-- ==== Sys2Proof/Word.lean ====
section
/-! DEFINITION. The two word types of the block: a byte is 8 bits, a word is 16 bits (00_scope.md R7). -/

namespace Sys2Proof

/-- A byte: the width of A, B, DP, CC and of one memory location. -/
abbrev Byte := BitVec 8

/-- A word: the width of D, X, Y, U, S, PC and of an address. -/
abbrev Word := BitVec 16

end Sys2Proof
end

