-- ==== Sys2Proof/Syntax.lean ====
section
/-! DEFINITION. The abstract syntax: the 268 rows of spec/opcode_table.json (30_encoding.md R65, R66, R67) as 132
constructors of `Instr`, each at the operand forms its rows give it (40_addressing_modes.md). -/

namespace Sys2Proof

/-- The base register of an indexed operand, postbyte bits 6 to 5 (R83). -/
inductive IndexReg where
  | x | y | u | s
  deriving DecidableEq, Repr

/-- The forms of the indexed postbyte with their extra bytes (R83). `indirect` is postbyte bit 4. The forms `,R+` and
`,-R` exist only direct and `[n]` only indirect: `Indexed.wf` (WellFormed.lean) says so. `ignored` holds the postbyte
bits 6 to 5 that the PC-relative forms do not use (R93, decision D20). -/
inductive Indexed where
  | offset5  (r : IndexReg) (n : BitVec 5)
  | postInc1 (r : IndexReg) (indirect : Bool)
  | postInc2 (r : IndexReg) (indirect : Bool)
  | preDec1  (r : IndexReg) (indirect : Bool)
  | preDec2  (r : IndexReg) (indirect : Bool)
  | noOffset (r : IndexReg) (indirect : Bool)
  | accB     (r : IndexReg) (indirect : Bool)
  | accA     (r : IndexReg) (indirect : Bool)
  | accD     (r : IndexReg) (indirect : Bool)
  | offset8  (r : IndexReg) (n : Byte) (indirect : Bool)
  | offset16 (r : IndexReg) (n : Word) (indirect : Bool)
  | pcr8     (ignored : BitVec 2) (n : Byte) (indirect : Bool)
  | pcr16    (ignored : BitVec 2) (n : Word) (indirect : Bool)
  | extended (addr : Word) (indirect : Bool)
  deriving DecidableEq, Repr

/-- A memory operand: direct, indexed or extended (R79, R83, R80). -/
inductive Loc where
  | dir (lo : Byte)
  | idx (x : Indexed)
  | ext (addr : Word)
  deriving DecidableEq, Repr

/-- The operand of an 8-bit instruction that also has an immediate form (R75, R77). -/
inductive Src8 where
  | imm (v : Byte)
  | mem (l : Loc)
  deriving DecidableEq, Repr

/-- The operand of a 16-bit instruction that also has an immediate form (R75, R78). -/
inductive Src16 where
  | imm (v : Word)
  | mem (l : Loc)
  deriving DecidableEq, Repr

/-- What follows the opcode bytes, by mode tag (R61). -/
inductive Operand where
  | inh
  | imm8  (v : Byte)
  | imm16 (v : Word)
  | dir   (lo : Byte)
  | ext   (addr : Word)
  | rel8  (disp : Byte)
  | rel16 (disp : Word)
  | idx   (x : Indexed)
  | reg   (src dst : BitVec 4)
  | stk   (list : Byte)
  deriving DecidableEq, Repr

/-- What a value is for each of the three memory forms of a mnemonic. -/
def Loc.select {α : Type} (dir idx ext : α) : Loc → α
  | .dir _ => dir
  | .idx _ => idx
  | .ext _ => ext

/-- What a value is for each of the four forms of an 8-bit mnemonic. -/
def Src8.select {α : Type} (imm dir idx ext : α) : Src8 → α
  | .imm _ => imm
  | .mem l => l.select dir idx ext

/-- What a value is for each of the four forms of a 16-bit mnemonic. -/
def Src16.select {α : Type} (imm dir idx ext : α) : Src16 → α
  | .imm _ => imm
  | .mem l => l.select dir idx ext

/-- A memory operand as it stands after the opcode bytes. -/
def Loc.operand : Loc → Operand
  | .dir lo => .dir lo
  | .idx x => .idx x
  | .ext addr => .ext addr

/-- An 8-bit operand as it stands after the opcode bytes. -/
def Src8.operand : Src8 → Operand
  | .imm v => .imm8 v
  | .mem l => l.operand

/-- A 16-bit operand as it stands after the opcode bytes. -/
def Src16.operand : Src16 → Operand
  | .imm v => .imm16 v
  | .mem l => l.operand

/-- The instructions: one constructor per mnemonic of spec/opcode_table.json, in the order of the rules that give them
their meaning. A row of the table is a constructor at one form of its operand: LDA has the rows `lda (.imm v)`,
`lda (.mem (.dir lo))`, `lda (.mem (.idx x))`, `lda (.mem (.ext addr))` (log entry 6). -/
inductive Instr where
  | lda (o : Src8)   -- LDA, R101
  | ldb (o : Src8)   -- LDB, R102
  | sta (l : Loc)   -- STA, R103
  | stb (l : Loc)   -- STB, R104
  | ldd (o : Src16)   -- LDD, R105
  | ldx (o : Src16)   -- LDX, R106
  | ldy (o : Src16)   -- LDY, R107
  | ldu (o : Src16)   -- LDU, R108
  | lds (o : Src16)   -- LDS, R109
  | std (l : Loc)   -- STD, R110
  | stx (l : Loc)   -- STX, R111
  | sty (l : Loc)   -- STY, R112
  | stu (l : Loc)   -- STU, R113
  | sts (l : Loc)   -- STS, R114
  | leax (x : Indexed)   -- LEAX, R115
  | leay (x : Indexed)   -- LEAY, R116
  | leas (x : Indexed)   -- LEAS, R117
  | leau (x : Indexed)   -- LEAU, R118
  | adda (o : Src8)   -- ADDA, R124
  | addb (o : Src8)   -- ADDB, R125
  | adca (o : Src8)   -- ADCA, R126
  | adcb (o : Src8)   -- ADCB, R127
  | suba (o : Src8)   -- SUBA, R128
  | subb (o : Src8)   -- SUBB, R129
  | sbca (o : Src8)   -- SBCA, R130
  | sbcb (o : Src8)   -- SBCB, R131
  | cmpa (o : Src8)   -- CMPA, R132
  | cmpb (o : Src8)   -- CMPB, R133
  | addd (o : Src16)   -- ADDD, R134
  | subd (o : Src16)   -- SUBD, R135
  | cmpd (o : Src16)   -- CMPD, R136
  | cmpx (o : Src16)   -- CMPX, R137
  | cmpy (o : Src16)   -- CMPY, R138
  | cmpu (o : Src16)   -- CMPU, R139
  | cmps (o : Src16)   -- CMPS, R140
  | neg (l : Loc)   -- NEG, R141
  | nega   -- NEGA, R142
  | negb   -- NEGB, R143
  | inc (l : Loc)   -- INC, R144
  | inca   -- INCA, R145
  | incb   -- INCB, R146
  | dec (l : Loc)   -- DEC, R147
  | deca   -- DECA, R148
  | decb   -- DECB, R149
  | clr (l : Loc)   -- CLR, R150
  | clra   -- CLRA, R151
  | clrb   -- CLRB, R152
  | tst (l : Loc)   -- TST, R153
  | tsta   -- TSTA, R154
  | tstb   -- TSTB, R155
  | daa   -- DAA, R156
  | mul   -- MUL, R157
  | sex   -- SEX, R158
  | abx   -- ABX, R159
  | anda (o : Src8)   -- ANDA, R160
  | andb (o : Src8)   -- ANDB, R161
  | ora (o : Src8)   -- ORA, R162
  | orb (o : Src8)   -- ORB, R163
  | eora (o : Src8)   -- EORA, R164
  | eorb (o : Src8)   -- EORB, R165
  | bita (o : Src8)   -- BITA, R166
  | bitb (o : Src8)   -- BITB, R167
  | com (l : Loc)   -- COM, R168
  | coma   -- COMA, R169
  | comb   -- COMB, R170
  | andcc (mask : Byte)   -- ANDCC, R171
  | orcc (mask : Byte)   -- ORCC, R172
  | lsr (l : Loc)   -- LSR, R173
  | lsra   -- LSRA, R174
  | lsrb   -- LSRB, R175
  | asr (l : Loc)   -- ASR, R176
  | asra   -- ASRA, R177
  | asrb   -- ASRB, R178
  | asl (l : Loc)   -- ASL, R179
  | asla   -- ASLA, R180
  | aslb   -- ASLB, R181
  | rol (l : Loc)   -- ROL, R182
  | rola   -- ROLA, R183
  | rolb   -- ROLB, R184
  | ror (l : Loc)   -- ROR, R185
  | rora   -- RORA, R186
  | rorb   -- RORB, R187
  | tfr (src dst : BitVec 4)   -- TFR, R190
  | exg (src dst : BitVec 4)   -- EXG, R191
  | pshs (list : Byte)   -- PSHS, R193
  | puls (list : Byte)   -- PULS, R194
  | pshu (list : Byte)   -- PSHU, R195
  | pulu (list : Byte)   -- PULU, R196
  | bra (disp : Byte)   -- BRA, R198
  | brn (disp : Byte)   -- BRN, R199
  | bhi (disp : Byte)   -- BHI, R200
  | bls (disp : Byte)   -- BLS, R201
  | bcc (disp : Byte)   -- BCC, R202
  | bcs (disp : Byte)   -- BCS, R203
  | bne (disp : Byte)   -- BNE, R204
  | beq (disp : Byte)   -- BEQ, R205
  | bvc (disp : Byte)   -- BVC, R206
  | bvs (disp : Byte)   -- BVS, R207
  | bpl (disp : Byte)   -- BPL, R208
  | bmi (disp : Byte)   -- BMI, R209
  | bge (disp : Byte)   -- BGE, R210
  | blt (disp : Byte)   -- BLT, R211
  | bgt (disp : Byte)   -- BGT, R212
  | ble (disp : Byte)   -- BLE, R213
  | lbra (disp : Word)   -- LBRA, R214
  | lbrn (disp : Word)   -- LBRN, R215
  | lbhi (disp : Word)   -- LBHI, R216
  | lbls (disp : Word)   -- LBLS, R217
  | lbcc (disp : Word)   -- LBCC, R218
  | lbcs (disp : Word)   -- LBCS, R219
  | lbne (disp : Word)   -- LBNE, R220
  | lbeq (disp : Word)   -- LBEQ, R221
  | lbvc (disp : Word)   -- LBVC, R222
  | lbvs (disp : Word)   -- LBVS, R223
  | lbpl (disp : Word)   -- LBPL, R224
  | lbmi (disp : Word)   -- LBMI, R225
  | lbge (disp : Word)   -- LBGE, R226
  | lblt (disp : Word)   -- LBLT, R227
  | lbgt (disp : Word)   -- LBGT, R228
  | lble (disp : Word)   -- LBLE, R229
  | bsr (disp : Byte)   -- BSR, R230
  | lbsr (disp : Word)   -- LBSR, R231
  | jmp (l : Loc)   -- JMP, R232
  | jsr (l : Loc)   -- JSR, R233
  | rts   -- RTS, R234
  | nop   -- NOP, R235
  | swi   -- SWI, R236
  | swi2   -- SWI2, R237
  | swi3   -- SWI3, R238
  | rti   -- RTI, R239
  | cwai (mask : Byte)   -- CWAI, R240
  | sync   -- SYNC, R241
  deriving DecidableEq, Repr

/-- The operand of an instruction as it stands after its opcode bytes (R61). -/
def Instr.operand : Instr → Operand
  | .lda o => o.operand
  | .ldb o => o.operand
  | .sta l => l.operand
  | .stb l => l.operand
  | .ldd o => o.operand
  | .ldx o => o.operand
  | .ldy o => o.operand
  | .ldu o => o.operand
  | .lds o => o.operand
  | .std l => l.operand
  | .stx l => l.operand
  | .sty l => l.operand
  | .stu l => l.operand
  | .sts l => l.operand
  | .leax x => .idx x
  | .leay x => .idx x
  | .leas x => .idx x
  | .leau x => .idx x
  | .adda o => o.operand
  | .addb o => o.operand
  | .adca o => o.operand
  | .adcb o => o.operand
  | .suba o => o.operand
  | .subb o => o.operand
  | .sbca o => o.operand
  | .sbcb o => o.operand
  | .cmpa o => o.operand
  | .cmpb o => o.operand
  | .addd o => o.operand
  | .subd o => o.operand
  | .cmpd o => o.operand
  | .cmpx o => o.operand
  | .cmpy o => o.operand
  | .cmpu o => o.operand
  | .cmps o => o.operand
  | .neg l => l.operand
  | .nega => .inh
  | .negb => .inh
  | .inc l => l.operand
  | .inca => .inh
  | .incb => .inh
  | .dec l => l.operand
  | .deca => .inh
  | .decb => .inh
  | .clr l => l.operand
  | .clra => .inh
  | .clrb => .inh
  | .tst l => l.operand
  | .tsta => .inh
  | .tstb => .inh
  | .daa => .inh
  | .mul => .inh
  | .sex => .inh
  | .abx => .inh
  | .anda o => o.operand
  | .andb o => o.operand
  | .ora o => o.operand
  | .orb o => o.operand
  | .eora o => o.operand
  | .eorb o => o.operand
  | .bita o => o.operand
  | .bitb o => o.operand
  | .com l => l.operand
  | .coma => .inh
  | .comb => .inh
  | .andcc mask => .imm8 mask
  | .orcc mask => .imm8 mask
  | .lsr l => l.operand
  | .lsra => .inh
  | .lsrb => .inh
  | .asr l => l.operand
  | .asra => .inh
  | .asrb => .inh
  | .asl l => l.operand
  | .asla => .inh
  | .aslb => .inh
  | .rol l => l.operand
  | .rola => .inh
  | .rolb => .inh
  | .ror l => l.operand
  | .rora => .inh
  | .rorb => .inh
  | .tfr src dst => .reg src dst
  | .exg src dst => .reg src dst
  | .pshs list => .stk list
  | .puls list => .stk list
  | .pshu list => .stk list
  | .pulu list => .stk list
  | .bra disp => .rel8 disp
  | .brn disp => .rel8 disp
  | .bhi disp => .rel8 disp
  | .bls disp => .rel8 disp
  | .bcc disp => .rel8 disp
  | .bcs disp => .rel8 disp
  | .bne disp => .rel8 disp
  | .beq disp => .rel8 disp
  | .bvc disp => .rel8 disp
  | .bvs disp => .rel8 disp
  | .bpl disp => .rel8 disp
  | .bmi disp => .rel8 disp
  | .bge disp => .rel8 disp
  | .blt disp => .rel8 disp
  | .bgt disp => .rel8 disp
  | .ble disp => .rel8 disp
  | .lbra disp => .rel16 disp
  | .lbrn disp => .rel16 disp
  | .lbhi disp => .rel16 disp
  | .lbls disp => .rel16 disp
  | .lbcc disp => .rel16 disp
  | .lbcs disp => .rel16 disp
  | .lbne disp => .rel16 disp
  | .lbeq disp => .rel16 disp
  | .lbvc disp => .rel16 disp
  | .lbvs disp => .rel16 disp
  | .lbpl disp => .rel16 disp
  | .lbmi disp => .rel16 disp
  | .lbge disp => .rel16 disp
  | .lblt disp => .rel16 disp
  | .lbgt disp => .rel16 disp
  | .lble disp => .rel16 disp
  | .bsr disp => .rel8 disp
  | .lbsr disp => .rel16 disp
  | .jmp l => l.operand
  | .jsr l => l.operand
  | .rts => .inh
  | .nop => .inh
  | .swi => .inh
  | .swi2 => .inh
  | .swi3 => .inh
  | .rti => .inh
  | .cwai mask => .imm8 mask
  | .sync => .inh

end Sys2Proof
end

