-- ==== Sys2Proof/WellFormed.lean ====
section
/-! DEFINITION. Which terms of the syntax stand for an encoding of the spec (40_addressing_modes.md R83, column
"indirect allowed"). -/

namespace Sys2Proof

/-- An indexed operand that R83 has: `,R+` and `,-R` have no indirect form, `[n]` has only the indirect one. -/
def Indexed.wf : Indexed → Bool
  | .offset5 _ _ => true
  | .postInc1 _ indirect => !indirect
  | .postInc2 _ _ => true
  | .preDec1 _ indirect => !indirect
  | .preDec2 _ _ => true
  | .noOffset _ _ => true
  | .accB _ _ => true
  | .accA _ _ => true
  | .accD _ _ => true
  | .offset8 _ _ _ => true
  | .offset16 _ _ _ => true
  | .pcr8 _ _ _ => true
  | .pcr16 _ _ _ => true
  | .extended _ indirect => indirect

/-- A memory operand that the spec has. -/
def Loc.wf : Loc → Bool
  | .dir _ => true
  | .idx x => x.wf
  | .ext _ => true

/-- An 8-bit operand that the spec has. -/
def Src8.wf : Src8 → Bool
  | .imm _ => true
  | .mem l => l.wf

/-- A 16-bit operand that the spec has. -/
def Src16.wf : Src16 → Bool
  | .imm _ => true
  | .mem l => l.wf

/-- An operand that the spec has. Every TFR and EXG postbyte counts: an invalid one is an encoding whose execution
raises InvalidRegisterTransfer (R71, R189). -/
def Operand.wf : Operand → Bool
  | .inh => true
  | .imm8 _ => true
  | .imm16 _ => true
  | .dir _ => true
  | .ext _ => true
  | .rel8 _ => true
  | .rel16 _ => true
  | .idx x => x.wf
  | .reg _ _ => true
  | .stk _ => true

/-- An instruction that the spec has. -/
def Instr.wf (i : Instr) : Bool :=
  i.operand.wf

end Sys2Proof
end

