-- ==== Sys2Proof/Decode.lean ====
section
/-! DEFINITION. The decoder (30_encoding.md R55 to R72, 40_addressing_modes.md R83 to R100), total on any bytes, and
after it the encoder, written from the same tables. -/

namespace Sys2Proof

/-! ## Bytes of a word (20_memory.md R37: the high byte comes first) -/

/-- The high byte of a word. -/
def hiByte (w : Word) : Byte := w.extractLsb' 8 8

/-- The low byte of a word. -/
def loByte (w : Word) : Byte := w.extractLsb' 0 8

/-- `h:l`, the word with high byte `h` and low byte `l` (R7). -/
def mkWord (h l : Byte) : Word := h ++ l

/-! ## The opcode map -/

/-- One entry of the opcode map: the mode tag (R61) with what makes the instruction from its operand. `unfetched` is
CWAI: its opcode is unimplemented and its mask byte is never fetched by the cycle (R55, R70, decision D22). -/
inductive Entry where
  | inh   (i : Instr)
  | imm8  (f : Byte → Instr)
  | imm16 (f : Word → Instr)
  | dir   (f : Byte → Instr)
  | ext   (f : Word → Instr)
  | rel8  (f : Byte → Instr)
  | rel16 (f : Word → Instr)
  | idx   (f : Indexed → Instr)
  | reg   (f : BitVec 4 → BitVec 4 → Instr)
  | stk   (f : Byte → Instr)
  | unfetched (f : Byte → Instr)

/-- Page 1, no prefix byte (R65). Every byte not listed is illegal (R69). -/
def page1 : Nat → Option Entry
  | 0x00 => some (.dir fun lo => .neg (.dir lo))
  | 0x03 => some (.dir fun lo => .com (.dir lo))
  | 0x04 => some (.dir fun lo => .lsr (.dir lo))
  | 0x06 => some (.dir fun lo => .ror (.dir lo))
  | 0x07 => some (.dir fun lo => .asr (.dir lo))
  | 0x08 => some (.dir fun lo => .asl (.dir lo))
  | 0x09 => some (.dir fun lo => .rol (.dir lo))
  | 0x0A => some (.dir fun lo => .dec (.dir lo))
  | 0x0C => some (.dir fun lo => .inc (.dir lo))
  | 0x0D => some (.dir fun lo => .tst (.dir lo))
  | 0x0E => some (.dir fun lo => .jmp (.dir lo))
  | 0x0F => some (.dir fun lo => .clr (.dir lo))
  | 0x12 => some (.inh .nop)
  | 0x13 => some (.inh .sync)
  | 0x16 => some (.rel16 .lbra)
  | 0x17 => some (.rel16 .lbsr)
  | 0x19 => some (.inh .daa)
  | 0x1A => some (.imm8 .orcc)
  | 0x1C => some (.imm8 .andcc)
  | 0x1D => some (.inh .sex)
  | 0x1E => some (.reg .exg)
  | 0x1F => some (.reg .tfr)
  | 0x20 => some (.rel8 .bra)
  | 0x21 => some (.rel8 .brn)
  | 0x22 => some (.rel8 .bhi)
  | 0x23 => some (.rel8 .bls)
  | 0x24 => some (.rel8 .bcc)
  | 0x25 => some (.rel8 .bcs)
  | 0x26 => some (.rel8 .bne)
  | 0x27 => some (.rel8 .beq)
  | 0x28 => some (.rel8 .bvc)
  | 0x29 => some (.rel8 .bvs)
  | 0x2A => some (.rel8 .bpl)
  | 0x2B => some (.rel8 .bmi)
  | 0x2C => some (.rel8 .bge)
  | 0x2D => some (.rel8 .blt)
  | 0x2E => some (.rel8 .bgt)
  | 0x2F => some (.rel8 .ble)
  | 0x30 => some (.idx .leax)
  | 0x31 => some (.idx .leay)
  | 0x32 => some (.idx .leas)
  | 0x33 => some (.idx .leau)
  | 0x34 => some (.stk .pshs)
  | 0x35 => some (.stk .puls)
  | 0x36 => some (.stk .pshu)
  | 0x37 => some (.stk .pulu)
  | 0x39 => some (.inh .rts)
  | 0x3A => some (.inh .abx)
  | 0x3B => some (.inh .rti)
  | 0x3C => some (.unfetched .cwai)
  | 0x3D => some (.inh .mul)
  | 0x3F => some (.inh .swi)
  | 0x40 => some (.inh .nega)
  | 0x43 => some (.inh .coma)
  | 0x44 => some (.inh .lsra)
  | 0x46 => some (.inh .rora)
  | 0x47 => some (.inh .asra)
  | 0x48 => some (.inh .asla)
  | 0x49 => some (.inh .rola)
  | 0x4A => some (.inh .deca)
  | 0x4C => some (.inh .inca)
  | 0x4D => some (.inh .tsta)
  | 0x4F => some (.inh .clra)
  | 0x50 => some (.inh .negb)
  | 0x53 => some (.inh .comb)
  | 0x54 => some (.inh .lsrb)
  | 0x56 => some (.inh .rorb)
  | 0x57 => some (.inh .asrb)
  | 0x58 => some (.inh .aslb)
  | 0x59 => some (.inh .rolb)
  | 0x5A => some (.inh .decb)
  | 0x5C => some (.inh .incb)
  | 0x5D => some (.inh .tstb)
  | 0x5F => some (.inh .clrb)
  | 0x60 => some (.idx fun x => .neg (.idx x))
  | 0x63 => some (.idx fun x => .com (.idx x))
  | 0x64 => some (.idx fun x => .lsr (.idx x))
  | 0x66 => some (.idx fun x => .ror (.idx x))
  | 0x67 => some (.idx fun x => .asr (.idx x))
  | 0x68 => some (.idx fun x => .asl (.idx x))
  | 0x69 => some (.idx fun x => .rol (.idx x))
  | 0x6A => some (.idx fun x => .dec (.idx x))
  | 0x6C => some (.idx fun x => .inc (.idx x))
  | 0x6D => some (.idx fun x => .tst (.idx x))
  | 0x6E => some (.idx fun x => .jmp (.idx x))
  | 0x6F => some (.idx fun x => .clr (.idx x))
  | 0x70 => some (.ext fun addr => .neg (.ext addr))
  | 0x73 => some (.ext fun addr => .com (.ext addr))
  | 0x74 => some (.ext fun addr => .lsr (.ext addr))
  | 0x76 => some (.ext fun addr => .ror (.ext addr))
  | 0x77 => some (.ext fun addr => .asr (.ext addr))
  | 0x78 => some (.ext fun addr => .asl (.ext addr))
  | 0x79 => some (.ext fun addr => .rol (.ext addr))
  | 0x7A => some (.ext fun addr => .dec (.ext addr))
  | 0x7C => some (.ext fun addr => .inc (.ext addr))
  | 0x7D => some (.ext fun addr => .tst (.ext addr))
  | 0x7E => some (.ext fun addr => .jmp (.ext addr))
  | 0x7F => some (.ext fun addr => .clr (.ext addr))
  | 0x80 => some (.imm8 fun v => .suba (.imm v))
  | 0x81 => some (.imm8 fun v => .cmpa (.imm v))
  | 0x82 => some (.imm8 fun v => .sbca (.imm v))
  | 0x83 => some (.imm16 fun v => .subd (.imm v))
  | 0x84 => some (.imm8 fun v => .anda (.imm v))
  | 0x85 => some (.imm8 fun v => .bita (.imm v))
  | 0x86 => some (.imm8 fun v => .lda (.imm v))
  | 0x88 => some (.imm8 fun v => .eora (.imm v))
  | 0x89 => some (.imm8 fun v => .adca (.imm v))
  | 0x8A => some (.imm8 fun v => .ora (.imm v))
  | 0x8B => some (.imm8 fun v => .adda (.imm v))
  | 0x8C => some (.imm16 fun v => .cmpx (.imm v))
  | 0x8D => some (.rel8 .bsr)
  | 0x8E => some (.imm16 fun v => .ldx (.imm v))
  | 0x90 => some (.dir fun lo => .suba (.mem (.dir lo)))
  | 0x91 => some (.dir fun lo => .cmpa (.mem (.dir lo)))
  | 0x92 => some (.dir fun lo => .sbca (.mem (.dir lo)))
  | 0x93 => some (.dir fun lo => .subd (.mem (.dir lo)))
  | 0x94 => some (.dir fun lo => .anda (.mem (.dir lo)))
  | 0x95 => some (.dir fun lo => .bita (.mem (.dir lo)))
  | 0x96 => some (.dir fun lo => .lda (.mem (.dir lo)))
  | 0x97 => some (.dir fun lo => .sta (.dir lo))
  | 0x98 => some (.dir fun lo => .eora (.mem (.dir lo)))
  | 0x99 => some (.dir fun lo => .adca (.mem (.dir lo)))
  | 0x9A => some (.dir fun lo => .ora (.mem (.dir lo)))
  | 0x9B => some (.dir fun lo => .adda (.mem (.dir lo)))
  | 0x9C => some (.dir fun lo => .cmpx (.mem (.dir lo)))
  | 0x9D => some (.dir fun lo => .jsr (.dir lo))
  | 0x9E => some (.dir fun lo => .ldx (.mem (.dir lo)))
  | 0x9F => some (.dir fun lo => .stx (.dir lo))
  | 0xA0 => some (.idx fun x => .suba (.mem (.idx x)))
  | 0xA1 => some (.idx fun x => .cmpa (.mem (.idx x)))
  | 0xA2 => some (.idx fun x => .sbca (.mem (.idx x)))
  | 0xA3 => some (.idx fun x => .subd (.mem (.idx x)))
  | 0xA4 => some (.idx fun x => .anda (.mem (.idx x)))
  | 0xA5 => some (.idx fun x => .bita (.mem (.idx x)))
  | 0xA6 => some (.idx fun x => .lda (.mem (.idx x)))
  | 0xA7 => some (.idx fun x => .sta (.idx x))
  | 0xA8 => some (.idx fun x => .eora (.mem (.idx x)))
  | 0xA9 => some (.idx fun x => .adca (.mem (.idx x)))
  | 0xAA => some (.idx fun x => .ora (.mem (.idx x)))
  | 0xAB => some (.idx fun x => .adda (.mem (.idx x)))
  | 0xAC => some (.idx fun x => .cmpx (.mem (.idx x)))
  | 0xAD => some (.idx fun x => .jsr (.idx x))
  | 0xAE => some (.idx fun x => .ldx (.mem (.idx x)))
  | 0xAF => some (.idx fun x => .stx (.idx x))
  | 0xB0 => some (.ext fun addr => .suba (.mem (.ext addr)))
  | 0xB1 => some (.ext fun addr => .cmpa (.mem (.ext addr)))
  | 0xB2 => some (.ext fun addr => .sbca (.mem (.ext addr)))
  | 0xB3 => some (.ext fun addr => .subd (.mem (.ext addr)))
  | 0xB4 => some (.ext fun addr => .anda (.mem (.ext addr)))
  | 0xB5 => some (.ext fun addr => .bita (.mem (.ext addr)))
  | 0xB6 => some (.ext fun addr => .lda (.mem (.ext addr)))
  | 0xB7 => some (.ext fun addr => .sta (.ext addr))
  | 0xB8 => some (.ext fun addr => .eora (.mem (.ext addr)))
  | 0xB9 => some (.ext fun addr => .adca (.mem (.ext addr)))
  | 0xBA => some (.ext fun addr => .ora (.mem (.ext addr)))
  | 0xBB => some (.ext fun addr => .adda (.mem (.ext addr)))
  | 0xBC => some (.ext fun addr => .cmpx (.mem (.ext addr)))
  | 0xBD => some (.ext fun addr => .jsr (.ext addr))
  | 0xBE => some (.ext fun addr => .ldx (.mem (.ext addr)))
  | 0xBF => some (.ext fun addr => .stx (.ext addr))
  | 0xC0 => some (.imm8 fun v => .subb (.imm v))
  | 0xC1 => some (.imm8 fun v => .cmpb (.imm v))
  | 0xC2 => some (.imm8 fun v => .sbcb (.imm v))
  | 0xC3 => some (.imm16 fun v => .addd (.imm v))
  | 0xC4 => some (.imm8 fun v => .andb (.imm v))
  | 0xC5 => some (.imm8 fun v => .bitb (.imm v))
  | 0xC6 => some (.imm8 fun v => .ldb (.imm v))
  | 0xC8 => some (.imm8 fun v => .eorb (.imm v))
  | 0xC9 => some (.imm8 fun v => .adcb (.imm v))
  | 0xCA => some (.imm8 fun v => .orb (.imm v))
  | 0xCB => some (.imm8 fun v => .addb (.imm v))
  | 0xCC => some (.imm16 fun v => .ldd (.imm v))
  | 0xCE => some (.imm16 fun v => .ldu (.imm v))
  | 0xD0 => some (.dir fun lo => .subb (.mem (.dir lo)))
  | 0xD1 => some (.dir fun lo => .cmpb (.mem (.dir lo)))
  | 0xD2 => some (.dir fun lo => .sbcb (.mem (.dir lo)))
  | 0xD3 => some (.dir fun lo => .addd (.mem (.dir lo)))
  | 0xD4 => some (.dir fun lo => .andb (.mem (.dir lo)))
  | 0xD5 => some (.dir fun lo => .bitb (.mem (.dir lo)))
  | 0xD6 => some (.dir fun lo => .ldb (.mem (.dir lo)))
  | 0xD7 => some (.dir fun lo => .stb (.dir lo))
  | 0xD8 => some (.dir fun lo => .eorb (.mem (.dir lo)))
  | 0xD9 => some (.dir fun lo => .adcb (.mem (.dir lo)))
  | 0xDA => some (.dir fun lo => .orb (.mem (.dir lo)))
  | 0xDB => some (.dir fun lo => .addb (.mem (.dir lo)))
  | 0xDC => some (.dir fun lo => .ldd (.mem (.dir lo)))
  | 0xDD => some (.dir fun lo => .std (.dir lo))
  | 0xDE => some (.dir fun lo => .ldu (.mem (.dir lo)))
  | 0xDF => some (.dir fun lo => .stu (.dir lo))
  | 0xE0 => some (.idx fun x => .subb (.mem (.idx x)))
  | 0xE1 => some (.idx fun x => .cmpb (.mem (.idx x)))
  | 0xE2 => some (.idx fun x => .sbcb (.mem (.idx x)))
  | 0xE3 => some (.idx fun x => .addd (.mem (.idx x)))
  | 0xE4 => some (.idx fun x => .andb (.mem (.idx x)))
  | 0xE5 => some (.idx fun x => .bitb (.mem (.idx x)))
  | 0xE6 => some (.idx fun x => .ldb (.mem (.idx x)))
  | 0xE7 => some (.idx fun x => .stb (.idx x))
  | 0xE8 => some (.idx fun x => .eorb (.mem (.idx x)))
  | 0xE9 => some (.idx fun x => .adcb (.mem (.idx x)))
  | 0xEA => some (.idx fun x => .orb (.mem (.idx x)))
  | 0xEB => some (.idx fun x => .addb (.mem (.idx x)))
  | 0xEC => some (.idx fun x => .ldd (.mem (.idx x)))
  | 0xED => some (.idx fun x => .std (.idx x))
  | 0xEE => some (.idx fun x => .ldu (.mem (.idx x)))
  | 0xEF => some (.idx fun x => .stu (.idx x))
  | 0xF0 => some (.ext fun addr => .subb (.mem (.ext addr)))
  | 0xF1 => some (.ext fun addr => .cmpb (.mem (.ext addr)))
  | 0xF2 => some (.ext fun addr => .sbcb (.mem (.ext addr)))
  | 0xF3 => some (.ext fun addr => .addd (.mem (.ext addr)))
  | 0xF4 => some (.ext fun addr => .andb (.mem (.ext addr)))
  | 0xF5 => some (.ext fun addr => .bitb (.mem (.ext addr)))
  | 0xF6 => some (.ext fun addr => .ldb (.mem (.ext addr)))
  | 0xF7 => some (.ext fun addr => .stb (.ext addr))
  | 0xF8 => some (.ext fun addr => .eorb (.mem (.ext addr)))
  | 0xF9 => some (.ext fun addr => .adcb (.mem (.ext addr)))
  | 0xFA => some (.ext fun addr => .orb (.mem (.ext addr)))
  | 0xFB => some (.ext fun addr => .addb (.mem (.ext addr)))
  | 0xFC => some (.ext fun addr => .ldd (.mem (.ext addr)))
  | 0xFD => some (.ext fun addr => .std (.ext addr))
  | 0xFE => some (.ext fun addr => .ldu (.mem (.ext addr)))
  | 0xFF => some (.ext fun addr => .stu (.ext addr))
  | _ => none

/-- Page 2, after the prefix byte 0x10 (R66). -/
def page2 : Nat → Option Entry
  | 0x21 => some (.rel16 .lbrn)
  | 0x22 => some (.rel16 .lbhi)
  | 0x23 => some (.rel16 .lbls)
  | 0x24 => some (.rel16 .lbcc)
  | 0x25 => some (.rel16 .lbcs)
  | 0x26 => some (.rel16 .lbne)
  | 0x27 => some (.rel16 .lbeq)
  | 0x28 => some (.rel16 .lbvc)
  | 0x29 => some (.rel16 .lbvs)
  | 0x2A => some (.rel16 .lbpl)
  | 0x2B => some (.rel16 .lbmi)
  | 0x2C => some (.rel16 .lbge)
  | 0x2D => some (.rel16 .lblt)
  | 0x2E => some (.rel16 .lbgt)
  | 0x2F => some (.rel16 .lble)
  | 0x3F => some (.inh .swi2)
  | 0x83 => some (.imm16 fun v => .cmpd (.imm v))
  | 0x8C => some (.imm16 fun v => .cmpy (.imm v))
  | 0x8E => some (.imm16 fun v => .ldy (.imm v))
  | 0x93 => some (.dir fun lo => .cmpd (.mem (.dir lo)))
  | 0x9C => some (.dir fun lo => .cmpy (.mem (.dir lo)))
  | 0x9E => some (.dir fun lo => .ldy (.mem (.dir lo)))
  | 0x9F => some (.dir fun lo => .sty (.dir lo))
  | 0xA3 => some (.idx fun x => .cmpd (.mem (.idx x)))
  | 0xAC => some (.idx fun x => .cmpy (.mem (.idx x)))
  | 0xAE => some (.idx fun x => .ldy (.mem (.idx x)))
  | 0xAF => some (.idx fun x => .sty (.idx x))
  | 0xB3 => some (.ext fun addr => .cmpd (.mem (.ext addr)))
  | 0xBC => some (.ext fun addr => .cmpy (.mem (.ext addr)))
  | 0xBE => some (.ext fun addr => .ldy (.mem (.ext addr)))
  | 0xBF => some (.ext fun addr => .sty (.ext addr))
  | 0xCE => some (.imm16 fun v => .lds (.imm v))
  | 0xDE => some (.dir fun lo => .lds (.mem (.dir lo)))
  | 0xDF => some (.dir fun lo => .sts (.dir lo))
  | 0xEE => some (.idx fun x => .lds (.mem (.idx x)))
  | 0xEF => some (.idx fun x => .sts (.idx x))
  | 0xFE => some (.ext fun addr => .lds (.mem (.ext addr)))
  | 0xFF => some (.ext fun addr => .sts (.ext addr))
  | _ => none

/-- Page 3, after the prefix byte 0x11 (R67). -/
def page3 : Nat → Option Entry
  | 0x3F => some (.inh .swi3)
  | 0x83 => some (.imm16 fun v => .cmpu (.imm v))
  | 0x8C => some (.imm16 fun v => .cmps (.imm v))
  | 0x93 => some (.dir fun lo => .cmpu (.mem (.dir lo)))
  | 0x9C => some (.dir fun lo => .cmps (.mem (.dir lo)))
  | 0xA3 => some (.idx fun x => .cmpu (.mem (.idx x)))
  | 0xAC => some (.idx fun x => .cmps (.mem (.idx x)))
  | 0xB3 => some (.ext fun addr => .cmpu (.mem (.ext addr)))
  | 0xBC => some (.ext fun addr => .cmps (.mem (.ext addr)))
  | _ => none

/-! ## The indexed postbyte -/

/-- The register field of the postbyte, bits 6 to 5 (R83). -/
def indexRegOf (code : BitVec 2) : IndexReg :=
  match code.toNat with
  | 0 => .x
  | 1 => .y
  | 2 => .u
  | _ => .s

/-- A postbyte decoded: no extra byte, one extra byte or two (R83). -/
inductive PostbyteForm where
  | done (x : Indexed)
  | one  (f : Byte → Indexed)
  | two  (f : Word → Indexed)

/-- The form a postbyte selects; none for the 39 invalid ones (R83, R96). -/
def postbyteForm (pb : Byte) : Option PostbyteForm :=
  let code := pb.extractLsb' 5 2
  let r := indexRegOf code
  let indirect := pb.getLsbD 4
  if pb.getLsbD 7 = false then
    some (.done (.offset5 r (pb.extractLsb' 0 5)))
  else
    match (pb.extractLsb' 0 4).toNat with
    | 0x0 => if indirect then none else some (.done (.postInc1 r false))
    | 0x1 => some (.done (.postInc2 r indirect))
    | 0x2 => if indirect then none else some (.done (.preDec1 r false))
    | 0x3 => some (.done (.preDec2 r indirect))
    | 0x4 => some (.done (.noOffset r indirect))
    | 0x5 => some (.done (.accB r indirect))
    | 0x6 => some (.done (.accA r indirect))
    | 0x8 => some (.one fun n => .offset8 r n indirect)
    | 0x9 => some (.two fun n => .offset16 r n indirect)
    | 0xB => some (.done (.accD r indirect))
    | 0xC => some (.one fun n => .pcr8 code n indirect)
    | 0xD => some (.two fun n => .pcr16 code n indirect)
    | 0xF => if pb = 0x9F then some (.two fun n => .extended n true) else none
    | _ => none

/-! ## The decoder -/

/-- Why bytes do not decode. `offset` counts from the first byte of the instruction and is where the fetch that
failed would have started (R57). -/
inductive Reject where
  /-- There is not one byte. -/
  | noBytes
  /-- No entry in the opcode map (R69). `opcode` is the byte, or prefix and byte. -/
  | undefinedOpcode (opcode : Word)
  /-- CWAI, whose mask byte is not fetched (R70, R240). -/
  | unimplementedOpcode (opcode : Word)
  /-- An indexed postbyte that selects no form (R96). -/
  | invalidPostbyte (opcode : Word) (postbyte : Byte)
  /-- The bytes end inside the instruction. -/
  | missingByte (opcode : Word) (offset : Nat)
  deriving DecidableEq, Repr

/-- `Fetch8` for an operand byte at `offset` (R56). -/
def fetch8 (opcode : Word) (offset : Nat) (f : Byte → Instr) : List Byte → Except Reject (Instr × List Byte)
  | b :: rest => .ok (f b, rest)
  | [] => .error (.missingByte opcode offset)

/-- `Fetch16` for two operand bytes at `offset`, the first one high (R56, R64). -/
def fetch16 (opcode : Word) (offset : Nat) (f : Word → Instr) : List Byte → Except Reject (Instr × List Byte)
  | h :: l :: rest => .ok (f (mkWord h l), rest)
  | _ => .error (.missingByte opcode offset)

/-- An indexed operand at `offset`: the postbyte is validated as soon as it is fetched, before its extra bytes
(R83, R247). -/
def fetchIndexed (opcode : Word) (offset : Nat) (f : Indexed → Instr) : List Byte → Except Reject (Instr × List Byte)
  | [] => .error (.missingByte opcode offset)
  | pb :: rest =>
    match postbyteForm pb with
    | none => .error (.invalidPostbyte opcode pb)
    | some (.done x) => .ok (f x, rest)
    | some (.one g) => fetch8 opcode (offset + 1) (fun n => f (g n)) rest
    | some (.two g) => fetch16 opcode (offset + 1) (fun n => f (g n)) rest

/-- The operand bytes an entry of the map calls for (R61, R72), at `offset`. -/
def fetchOperand (opcode : Word) (offset : Nat) (rest : List Byte) : Option Entry → Except Reject (Instr × List Byte)
  | none => .error (.undefinedOpcode opcode)
  | some (.inh i) => .ok (i, rest)
  | some (.imm8 f) => fetch8 opcode offset f rest
  | some (.imm16 f) => fetch16 opcode offset f rest
  | some (.dir f) => fetch8 opcode offset f rest
  | some (.ext f) => fetch16 opcode offset f rest
  | some (.rel8 f) => fetch8 opcode offset f rest
  | some (.rel16 f) => fetch16 opcode offset f rest
  | some (.idx f) => fetchIndexed opcode offset f rest
  | some (.reg f) => fetch8 opcode offset (fun pb => f (pb.extractLsb' 4 4) (pb.extractLsb' 0 4)) rest
  | some (.stk f) => fetch8 opcode offset f rest
  | some (.unfetched f) =>
    match rest with
    | b :: rest' => .ok (f b, rest')
    | [] => .error (.unimplementedOpcode opcode)

/-- The instruction at the head of the bytes, and the bytes after it. Only the first byte is tested for being a prefix
(R55, R58). -/
def decode : List Byte → Except Reject (Instr × List Byte)
  | [] => .error .noBytes
  | b0 :: rest =>
    if b0 = 0x10 then
      match rest with
      | [] => .error (.missingByte 0x0010 1)
      | b1 :: rest' => fetchOperand (mkWord 0x10 b1) 2 rest' (page2 b1.toNat)
    else if b0 = 0x11 then
      match rest with
      | [] => .error (.missingByte 0x0011 1)
      | b1 :: rest' => fetchOperand (mkWord 0x11 b1) 2 rest' (page3 b1.toNat)
    else
      fetchOperand (mkWord 0x00 b0) 1 rest (page1 b0.toNat)

/-! ## The encoder -/

/-- The register field of a base register (R83). -/
def IndexReg.code : IndexReg → BitVec 2
  | .x => 0
  | .y => 1
  | .u => 2
  | .s => 3

/-- A postbyte with bit 7 set: register field, indirect flag, sub-mode (R62). -/
def postbyteOf (code : BitVec 2) (indirect : Bool) (sub : BitVec 4) : Byte :=
  (1#1 ++ code ++ BitVec.ofBool indirect ++ sub : BitVec (1 + 2 + 1 + 4))

/-- The postbyte of an indexed operand (R83). -/
def Indexed.postbyte : Indexed → Byte
  | .offset5 r n => (0#1 ++ r.code ++ n : BitVec (1 + 2 + 5))
  | .postInc1 r indirect => postbyteOf r.code indirect 0x0
  | .postInc2 r indirect => postbyteOf r.code indirect 0x1
  | .preDec1 r indirect => postbyteOf r.code indirect 0x2
  | .preDec2 r indirect => postbyteOf r.code indirect 0x3
  | .noOffset r indirect => postbyteOf r.code indirect 0x4
  | .accB r indirect => postbyteOf r.code indirect 0x5
  | .accA r indirect => postbyteOf r.code indirect 0x6
  | .offset8 r _ indirect => postbyteOf r.code indirect 0x8
  | .offset16 r _ indirect => postbyteOf r.code indirect 0x9
  | .accD r indirect => postbyteOf r.code indirect 0xB
  | .pcr8 ignored _ indirect => postbyteOf ignored indirect 0xC
  | .pcr16 ignored _ indirect => postbyteOf ignored indirect 0xD
  | .extended _ indirect => postbyteOf 0 indirect 0xF

/-- The bytes after the postbyte (R83). -/
def Indexed.extraBytes : Indexed → List Byte
  | .offset8 _ n _ => [n]
  | .offset16 _ n _ => [hiByte n, loByte n]
  | .pcr8 _ n _ => [n]
  | .pcr16 _ n _ => [hiByte n, loByte n]
  | .extended n _ => [hiByte n, loByte n]
  | .offset5 _ _ => []
  | .postInc1 _ _ => []
  | .postInc2 _ _ => []
  | .preDec1 _ _ => []
  | .preDec2 _ _ => []
  | .noOffset _ _ => []
  | .accB _ _ => []
  | .accA _ _ => []
  | .accD _ _ => []

/-- The operand bytes (R61, R64, R99). -/
def Operand.bytes : Operand → List Byte
  | .inh => []
  | .imm8 v => [v]
  | .imm16 v => [hiByte v, loByte v]
  | .dir lo => [lo]
  | .ext addr => [hiByte addr, loByte addr]
  | .rel8 disp => [disp]
  | .rel16 disp => [hiByte disp, loByte disp]
  | .idx x => x.postbyte :: x.extraBytes
  | .reg src dst => [(src ++ dst : BitVec (4 + 4))]
  | .stk list => [list]

/-- The opcode of an instruction as a fault reports it: the byte on page 1, `prefix:byte` on pages 2 and 3
(R65, R66, R67, R243). -/
def Instr.opcode : Instr → Word
  | .lda o => o.select 0x0086 0x0096 0x00A6 0x00B6
  | .ldb o => o.select 0x00C6 0x00D6 0x00E6 0x00F6
  | .sta l => l.select 0x0097 0x00A7 0x00B7
  | .stb l => l.select 0x00D7 0x00E7 0x00F7
  | .ldd o => o.select 0x00CC 0x00DC 0x00EC 0x00FC
  | .ldx o => o.select 0x008E 0x009E 0x00AE 0x00BE
  | .ldy o => o.select 0x108E 0x109E 0x10AE 0x10BE
  | .ldu o => o.select 0x00CE 0x00DE 0x00EE 0x00FE
  | .lds o => o.select 0x10CE 0x10DE 0x10EE 0x10FE
  | .std l => l.select 0x00DD 0x00ED 0x00FD
  | .stx l => l.select 0x009F 0x00AF 0x00BF
  | .sty l => l.select 0x109F 0x10AF 0x10BF
  | .stu l => l.select 0x00DF 0x00EF 0x00FF
  | .sts l => l.select 0x10DF 0x10EF 0x10FF
  | .leax _ => 0x0030
  | .leay _ => 0x0031
  | .leas _ => 0x0032
  | .leau _ => 0x0033
  | .adda o => o.select 0x008B 0x009B 0x00AB 0x00BB
  | .addb o => o.select 0x00CB 0x00DB 0x00EB 0x00FB
  | .adca o => o.select 0x0089 0x0099 0x00A9 0x00B9
  | .adcb o => o.select 0x00C9 0x00D9 0x00E9 0x00F9
  | .suba o => o.select 0x0080 0x0090 0x00A0 0x00B0
  | .subb o => o.select 0x00C0 0x00D0 0x00E0 0x00F0
  | .sbca o => o.select 0x0082 0x0092 0x00A2 0x00B2
  | .sbcb o => o.select 0x00C2 0x00D2 0x00E2 0x00F2
  | .cmpa o => o.select 0x0081 0x0091 0x00A1 0x00B1
  | .cmpb o => o.select 0x00C1 0x00D1 0x00E1 0x00F1
  | .addd o => o.select 0x00C3 0x00D3 0x00E3 0x00F3
  | .subd o => o.select 0x0083 0x0093 0x00A3 0x00B3
  | .cmpd o => o.select 0x1083 0x1093 0x10A3 0x10B3
  | .cmpx o => o.select 0x008C 0x009C 0x00AC 0x00BC
  | .cmpy o => o.select 0x108C 0x109C 0x10AC 0x10BC
  | .cmpu o => o.select 0x1183 0x1193 0x11A3 0x11B3
  | .cmps o => o.select 0x118C 0x119C 0x11AC 0x11BC
  | .neg l => l.select 0x0000 0x0060 0x0070
  | .nega => 0x0040
  | .negb => 0x0050
  | .inc l => l.select 0x000C 0x006C 0x007C
  | .inca => 0x004C
  | .incb => 0x005C
  | .dec l => l.select 0x000A 0x006A 0x007A
  | .deca => 0x004A
  | .decb => 0x005A
  | .clr l => l.select 0x000F 0x006F 0x007F
  | .clra => 0x004F
  | .clrb => 0x005F
  | .tst l => l.select 0x000D 0x006D 0x007D
  | .tsta => 0x004D
  | .tstb => 0x005D
  | .daa => 0x0019
  | .mul => 0x003D
  | .sex => 0x001D
  | .abx => 0x003A
  | .anda o => o.select 0x0084 0x0094 0x00A4 0x00B4
  | .andb o => o.select 0x00C4 0x00D4 0x00E4 0x00F4
  | .ora o => o.select 0x008A 0x009A 0x00AA 0x00BA
  | .orb o => o.select 0x00CA 0x00DA 0x00EA 0x00FA
  | .eora o => o.select 0x0088 0x0098 0x00A8 0x00B8
  | .eorb o => o.select 0x00C8 0x00D8 0x00E8 0x00F8
  | .bita o => o.select 0x0085 0x0095 0x00A5 0x00B5
  | .bitb o => o.select 0x00C5 0x00D5 0x00E5 0x00F5
  | .com l => l.select 0x0003 0x0063 0x0073
  | .coma => 0x0043
  | .comb => 0x0053
  | .andcc _ => 0x001C
  | .orcc _ => 0x001A
  | .lsr l => l.select 0x0004 0x0064 0x0074
  | .lsra => 0x0044
  | .lsrb => 0x0054
  | .asr l => l.select 0x0007 0x0067 0x0077
  | .asra => 0x0047
  | .asrb => 0x0057
  | .asl l => l.select 0x0008 0x0068 0x0078
  | .asla => 0x0048
  | .aslb => 0x0058
  | .rol l => l.select 0x0009 0x0069 0x0079
  | .rola => 0x0049
  | .rolb => 0x0059
  | .ror l => l.select 0x0006 0x0066 0x0076
  | .rora => 0x0046
  | .rorb => 0x0056
  | .tfr _ _ => 0x001F
  | .exg _ _ => 0x001E
  | .pshs _ => 0x0034
  | .puls _ => 0x0035
  | .pshu _ => 0x0036
  | .pulu _ => 0x0037
  | .bra _ => 0x0020
  | .brn _ => 0x0021
  | .bhi _ => 0x0022
  | .bls _ => 0x0023
  | .bcc _ => 0x0024
  | .bcs _ => 0x0025
  | .bne _ => 0x0026
  | .beq _ => 0x0027
  | .bvc _ => 0x0028
  | .bvs _ => 0x0029
  | .bpl _ => 0x002A
  | .bmi _ => 0x002B
  | .bge _ => 0x002C
  | .blt _ => 0x002D
  | .bgt _ => 0x002E
  | .ble _ => 0x002F
  | .lbra _ => 0x0016
  | .lbrn _ => 0x1021
  | .lbhi _ => 0x1022
  | .lbls _ => 0x1023
  | .lbcc _ => 0x1024
  | .lbcs _ => 0x1025
  | .lbne _ => 0x1026
  | .lbeq _ => 0x1027
  | .lbvc _ => 0x1028
  | .lbvs _ => 0x1029
  | .lbpl _ => 0x102A
  | .lbmi _ => 0x102B
  | .lbge _ => 0x102C
  | .lblt _ => 0x102D
  | .lbgt _ => 0x102E
  | .lble _ => 0x102F
  | .bsr _ => 0x008D
  | .lbsr _ => 0x0017
  | .jmp l => l.select 0x000E 0x006E 0x007E
  | .jsr l => l.select 0x009D 0x00AD 0x00BD
  | .rts => 0x0039
  | .nop => 0x0012
  | .swi => 0x003F
  | .swi2 => 0x103F
  | .swi3 => 0x113F
  | .rti => 0x003B
  | .cwai _ => 0x003C
  | .sync => 0x0013

/-- The opcode bytes: one, or the prefix byte and one (R61). -/
def opcodeBytes (opcode : Word) : List Byte :=
  if hiByte opcode = 0 then [loByte opcode] else [hiByte opcode, loByte opcode]

/-- The bytes of an instruction in the order they lie in memory (R61). -/
def encode (i : Instr) : List Byte :=
  opcodeBytes i.opcode ++ i.operand.bytes

/-- The length of an instruction in bytes (R60). -/
def Instr.length (i : Instr) : Nat :=
  (encode i).length

/-! ## The opcode table's words -/

/-- A word of spec/opcode_table.json as bytes in memory order, with zeros after it up to the longest instruction
(5 bytes, R61). DEDUCED (log entry 5): the table writes a two-byte opcode as one number with the first byte in the high
position (R68: "0x108E"); a word that does not start with a prefix byte when read so is read lowest byte first. -/
def tableBytes (nbits w : Nat) : List Byte :=
  let b (k : Nat) : Byte := BitVec.ofNat 8 (w / 256 ^ k)
  if nbits = 16 ∧ (b 1 = 0x10 ∨ b 1 = 0x11) then
    [b 1, b 0, 0, 0, 0]
  else
    let k := (nbits + 7) / 8
    let only (n : Nat) : Byte := if n < k then b n else 0
    [only 0, only 1, only 2, only 3, only 4]

/-- The instruction the decoder reads from a word of spec/opcode_table.json. -/
def decodeTableWord (nbits w : Nat) : Option Instr :=
  match decode (tableBytes nbits w) with
  | .ok (i, _) => some i
  | .error _ => none

end Sys2Proof
end

