-- ==== Sys2Proof/Config.lean ====
section
/-! DEFINITION. The parameters of the block (00_scope.md R6), the vector addresses (20_memory.md R34) and the free
value of an undefined flag (10_state.md R27). -/

namespace Sys2Proof.Config

/-- `MEM_SIZE`: addresses 0x0000 to 0xFFFF exist (R6, R33). -/
def memSize : Nat := 65536

/-- `MEM_DEFAULT`: what a byte never written reads as (R6, R29, decision D3). -/
def memDefault : Byte := 0x00

/-- `REG_RESET` of A, B and DP (R6, R32, decision D5). -/
def reset8 : Byte := 0x00

/-- `REG_RESET` of X, Y, U and S (R6, R32, decision D5). -/
def reset16 : Word := 0x0000

/-- `CC_RESET`: every flag is 0 (R6, R32, decision D5). -/
def resetCc : Byte := 0x00

/-- `PC_RESET`. DESIGN CHOICE (log entry 1, unsafe): the spec leaves PC unspecified until `run` or the host sets it
(R32, U7); the model names 0x0000. -/
def resetPc : Word := 0x0000

/-- The vector word of SWI (R34, decision D17). -/
def vectorSwi : Word := 0xFFFA

/-- The vector word of SWI2 (R34, decision D17). -/
def vectorSwi2 : Word := 0xFFF4

/-- The vector word of SWI3 (R34, decision D17). -/
def vectorSwi3 : Word := 0xFFF2

/-- `UNDEF_FLAG`: the value the n-th undefined flag takes. A free value (R27, decision D9; log entry 2): it has no
body, so nothing can be proved about it. -/
opaque freeFlag : Nat → Bool

end Sys2Proof.Config
end

