-- ==== Sys2Proof/Machine/State.lean ====
section
/-! DEFINITION. The state of the block as plain data (10_state.md), the reasons a step can stop (60_exceptions.md) and
the state after reset. -/

namespace Sys2Proof.Machine

/-- The register file (10_state.md R13 to R19, R28) and the memory (R29). D is no field: it is the view A:B (R14). -/
structure State where
  /-- Accumulator A (R13). -/
  a  : Byte
  /-- Accumulator B (R13). -/
  b  : Byte
  /-- The direct page register (R18). -/
  dp : Byte
  /-- The condition code register, bit 7 to bit 0 = E F H I N Z V C (R19). -/
  cc : Byte
  /-- Index register X (R15). -/
  x  : Word
  /-- Index register Y (R15). -/
  y  : Word
  /-- The user stack pointer U (R16). -/
  u  : Word
  /-- The system stack pointer S (R16). -/
  s  : Word
  /-- The program counter: between steps, the address of the first byte of the next instruction (R17). -/
  pc : Word
  /-- The memory: the bytes that differ from `Config.memDefault`, by strictly rising address (R29; `Memory.wf`). -/
  mem : List Host.Cell
  /-- The model's own counter: how many undefined flags have been drawn (R27, log entry 2). -/
  freeDraws : Nat
  deriving DecidableEq, Repr

/-- The three faults of the block (R242). A fault is precise: the machine is left as it was before the step (R248), so
a fault carries no state. `opcode` is the opcode byte on page 1 and `prefix:byte` on pages 2 and 3 (R243). -/
inductive Fault where
  /-- Raised by an undefined opcode, by SYNC and CWAI, and by an invalid indexed postbyte, which it then carries
  (R243). Safe: it is the spec's own outcome. -/
  | illegalOpcode (pc : Word) (opcode : Word) (postbyte : Option Byte)
  /-- Raised by an access that would touch 0x10000 or above; `address` is the first address of the access (R244).
  Safe: it is the spec's own outcome. -/
  | outOfRange (pc : Word) (opcode : Word) (address : Nat)
  /-- Raised by TFR and EXG with an invalid postbyte (R245, R189). Safe: it is the spec's own outcome. -/
  | invalidRegisterTransfer (pc : Word) (opcode : Word) (postbyte : Byte)
  deriving DecidableEq, Repr

/-- The reasons to have no meaning for an instruction. Every instruction of this model has one, so no step ends so. -/
inductive Refusal where
  /-- Raised by an arm of `exec` whose instruction has no meaning yet; no arm does. Safe. -/
  | notModelled (mnemonic : String)
  deriving DecidableEq, Repr

/-- What a step of this machine answers. -/
abbrev Result := Host.Outcome State Fault Refusal

/-- The machine after reset: A, B, DP, CC, X, Y, U, S zero and no byte of memory written (R32, R260, R261). The spec
gives PC no value; DESIGN CHOICE (log entry 1). The counter starts at 0; DESIGN CHOICE (log entry 2). -/
def State.reset : State where
  a := Config.reset8
  b := Config.reset8
  dp := Config.reset8
  cc := Config.resetCc
  x := Config.reset16
  y := Config.reset16
  u := Config.reset16
  s := Config.reset16
  pc := Config.resetPc
  mem := []
  freeDraws := 0

end Sys2Proof.Machine
end

