-- ==== Sys2Proof/Machine/Flags.lean ====
section
/-! DEFINITION. The flags of CC (10_state.md R19 to R27), the branch conditions (45_branch_jump.md R197) and the
arithmetic of the ALU with its flags (42_arithmetic.md R119 to R123, 43_logic_shift.md). -/

namespace Sys2Proof.Machine

/-! ## The flags of CC -/

/-- The eight flags (R19). -/
inductive Flag where
  | c | v | z | n | i | h | f | e
  deriving DecidableEq, Repr

/-- The bit of CC a flag lies in (R19). -/
def Flag.bit : Flag → Nat
  | .c => 0
  | .v => 1
  | .z => 2
  | .n => 3
  | .i => 4
  | .h => 5
  | .f => 6
  | .e => 7

/-- The value of a flag in a CC byte. -/
def getFlag (fl : Flag) (cc : Byte) : Bool :=
  cc.getLsbD fl.bit

/-- A CC byte with one flag replaced and the other seven as they were. -/
def putFlag (fl : Flag) (value : Bool) (cc : Byte) : Byte :=
  if value then cc ||| BitVec.twoPow 8 fl.bit else cc &&& ~~~ BitVec.twoPow 8 fl.bit

/-- N and Z written. -/
def putNZ (n z : Bool) (cc : Byte) : Byte :=
  putFlag .n n (putFlag .z z cc)

/-- N, Z and V written. -/
def putNZV (n z v : Bool) (cc : Byte) : Byte :=
  putNZ n z (putFlag .v v cc)

/-- N, Z, V and C written. -/
def putNZVC (n z v c : Bool) (cc : Byte) : Byte :=
  putNZV n z v (putFlag .c c cc)

/-- N, Z and C written, V as it was. -/
def putNZC (n z c : Bool) (cc : Byte) : Byte :=
  putNZ n z (putFlag .c c cc)

/-- The flags of an 8-bit result that clears V and keeps C: N, Z from the result (R101, R103, R153, R160). -/
def putLogic8 (r : Byte) (cc : Byte) : Byte :=
  putNZV r.msb (r == 0) false cc

/-- The flags of a 16-bit load or store: N, Z from the word, V cleared, C kept (R105, R110). -/
def putLogic16 (r : Word) (cc : Byte) : Byte :=
  putNZV r.msb (r == 0) false cc

/-! ## Branch conditions -/

/-- The sixteen branch conditions (R197). -/
inductive Cond where
  | always | never | hi | ls | cc | cs | ne | eq | vc | vs | pl | mi | ge | lt | gt | le
  deriving DecidableEq, Repr

/-- When a branch is taken (R197). -/
def Cond.holds (c : Cond) (cc : Byte) : Bool :=
  match c with
  | .always => true
  | .never => false
  | .hi => !getFlag .c cc && !getFlag .z cc
  | .ls => getFlag .c cc || getFlag .z cc
  | .cc => !getFlag .c cc
  | .cs => getFlag .c cc
  | .ne => !getFlag .z cc
  | .eq => getFlag .z cc
  | .vc => !getFlag .v cc
  | .vs => getFlag .v cc
  | .pl => !getFlag .n cc
  | .mi => getFlag .n cc
  | .ge => getFlag .n cc == getFlag .v cc
  | .lt => getFlag .n cc != getFlag .v cc
  | .gt => !getFlag .z cc && getFlag .n cc == getFlag .v cc
  | .le => getFlag .z cc || getFlag .n cc != getFlag .v cc

/-! ## The ALU -/

/-- What `add8` returns (R120). -/
structure Sum8 where
  r : Byte
  h : Bool
  n : Bool
  z : Bool
  v : Bool
  c : Bool
  deriving DecidableEq, Repr

/-- What `sub8` returns: no half-carry (R121). -/
structure Diff8 where
  r : Byte
  n : Bool
  z : Bool
  v : Bool
  c : Bool
  deriving DecidableEq, Repr

/-- What `add16` and `sub16` return (R122, R123). -/
structure Result16 where
  r : Word
  n : Bool
  z : Bool
  v : Bool
  c : Bool
  deriving DecidableEq, Repr

/-- 8-bit addition with carry in (R120). -/
def add8 (a b : Byte) (cin : Bool) : Sum8 :=
  let s := a.toNat + b.toNat + cin.toNat
  let r := BitVec.ofNat 8 s
  { r := r
    h := decide (15 < a.toNat % 16 + b.toNat % 16 + cin.toNat)
    n := r.msb
    z := r == 0
    v := a.msb == b.msb && r.msb != a.msb
    c := decide (255 < s) }

/-- 8-bit subtraction with borrow in; C is the borrow (R121). -/
def sub8 (a b : Byte) (bin : Bool) : Diff8 :=
  let d : Int := (a.toNat : Int) - b.toNat - bin.toNat
  let r := BitVec.ofInt 8 d
  { r := r
    n := r.msb
    z := r == 0
    v := a.msb != b.msb && r.msb != a.msb
    c := decide (d < 0) }

/-- 16-bit addition (R122). -/
def add16 (a b : Word) : Result16 :=
  let s := a.toNat + b.toNat
  let r := BitVec.ofNat 16 s
  { r := r
    n := r.msb
    z := r == 0
    v := a.msb == b.msb && r.msb != a.msb
    c := decide (65535 < s) }

/-- 16-bit subtraction; C is the borrow (R123). -/
def sub16 (a b : Word) : Result16 :=
  let d : Int := (a.toNat : Int) - b.toNat
  let r := BitVec.ofInt 16 d
  { r := r
    n := r.msb
    z := r == 0
    v := a.msb != b.msb && r.msb != a.msb
    c := decide (d < 0) }

/-- The correction DAA adds, from A, H and C (R156). -/
def daaCorrection (a : Byte) (h c : Bool) : Byte :=
  let lo := a.toNat % 16
  let hi := a.toNat / 16
  let low : Byte := if h || decide (9 < lo) then 0x06 else 0x00
  let high : Byte := if c || decide (9 < hi) || (decide (8 < hi) && decide (9 < lo)) then 0x60 else 0x00
  low ||| high

/-- One right shift with a bit entering at bit 7: `top:m[7:1]` (R173, R176, R185). -/
def shiftRightIn (top : Bool) (m : Byte) : Byte :=
  (BitVec.ofBool top ++ m.extractLsb' 1 7 : BitVec (1 + 7))

/-- One left shift with a bit entering at bit 0: `(m * 2) mod 256 + low` (R179, R182). -/
def shiftLeftIn (m : Byte) (low : Bool) : Byte :=
  BitVec.ofNat 8 (m.toNat * 2 % 256 + low.toNat)

end Sys2Proof.Machine
end

