-- ==== Sys2Proof/Machine/Ops.lean ====
section
/-! DEFINITION. The named operations over memory and registers (20_memory.md, 10_state.md), the stack primitives,
fetching an instruction's bytes, taking a software interrupt and returning from one, and the fault a step reports. -/

namespace Sys2Proof.Machine

/-! ## Memory as data (10_state.md R29) -/

/-- The byte at an address; an address not listed reads as `Config.memDefault`. -/
def Memory.read : List Host.Cell → Nat → Byte
  | [], _ => Config.memDefault
  | (k, v) :: rest, addr => if k = addr then v else Memory.read rest addr

/-- One byte put in front of the cells after it. The default is not listed: putting it drops what is listed for the
address (in the canonical form nothing is). -/
def Memory.cons (addr : Nat) (v : Byte) (rest : List Host.Cell) : List Host.Cell :=
  if v = Config.memDefault then rest.filter (fun c => c.1 != addr) else (addr, v) :: rest

/-- The memory with one byte replaced, in the canonical form. -/
def Memory.write : List Host.Cell → Nat → Byte → List Host.Cell
  | [], addr, v => Memory.cons addr v []
  | (k, w) :: rest, addr, v =>
    if addr < k then Memory.cons addr v ((k, w) :: rest)
    else if addr = k then Memory.cons addr v rest
    else (k, w) :: Memory.write rest addr v

/-- The canonical form: addresses of the space, strictly rising, and no byte equal to the default. -/
def Memory.wf : List Host.Cell → Bool
  | [] => true
  | (k, v) :: rest =>
    decide (k < Config.memSize) && decide (v ≠ Config.memDefault) && rest.all (fun c => decide (k < c.1)) &&
      Memory.wf rest

/-! ## Registers -/

/-- The 8-bit registers, the ones with a TFR code 0x8 to 0xB (R188). -/
inductive Reg8 where
  | a | b | cc | dp
  deriving DecidableEq, Repr

/-- The 16-bit registers, the ones with a TFR code 0x0 to 0x5 (R188). -/
inductive Reg16 where
  | d | x | y | u | s | pc
  deriving DecidableEq, Repr

/-- The composite register D = A:B (R14). -/
def State.d (st : State) : Word := mkWord st.a st.b

/-- Read an 8-bit register. -/
def State.get8 (st : State) : Reg8 → Byte
  | .a => st.a
  | .b => st.b
  | .cc => st.cc
  | .dp => st.dp

/-- Write an 8-bit register. -/
def State.set8 (st : State) (r : Reg8) (v : Byte) : State :=
  match r with
  | .a => { st with a := v }
  | .b => { st with b := v }
  | .cc => { st with cc := v }
  | .dp => { st with dp := v }

/-- Read a 16-bit register; D reads A:B (R14). -/
def State.get16 (st : State) : Reg16 → Word
  | .d => st.d
  | .x => st.x
  | .y => st.y
  | .u => st.u
  | .s => st.s
  | .pc => st.pc

/-- Write a 16-bit register; D writes A and B at once (R14). -/
def State.set16 (st : State) (r : Reg16) (v : Word) : State :=
  match r with
  | .d => { st with a := hiByte v, b := loByte v }
  | .x => { st with x := v }
  | .y => { st with y := v }
  | .u => { st with u := v }
  | .s => { st with s := v }
  | .pc => { st with pc := v }

/-- CC replaced. -/
def State.withCc (st : State) (cc : Byte) : State := { st with cc := cc }

/-- PC replaced. -/
def State.withPc (st : State) (pc : Word) : State := { st with pc := pc }

/-- The memory replaced. -/
def State.withMem (st : State) (mem : List Host.Cell) : State := { st with mem := mem }

/-- The value of a flag. -/
def State.flag (st : State) (fl : Flag) : Bool := getFlag fl st.cc

/-- A flag that becomes undefined: a fresh free value is put in it (R27, decision D9; log entry 2). -/
def State.undefine (st : State) (fl : Flag) : State :=
  { st with cc := putFlag fl (Config.freeFlag st.freeDraws) st.cc, freeDraws := st.freeDraws + 1 }

/-! ## The bus (20_memory.md R35, R36): addresses are natural numbers, out of range is none -/

/-- `MemRead(addr, 1)` (R35). -/
def State.memRead1 (st : State) (addr : Nat) : Option Byte :=
  if addr < Config.memSize then some (Memory.read st.mem addr) else none

/-- `MemRead(addr, 2)`: both bytes are range-checked before either is touched (R35, R41). -/
def State.memRead2 (st : State) (addr : Nat) : Option Word :=
  if addr + 1 < Config.memSize then some (mkWord (Memory.read st.mem addr) (Memory.read st.mem (addr + 1))) else none

/-- `MemWrite(addr, 1, v)` (R36). -/
def State.memWrite1 (st : State) (addr : Nat) (v : Byte) : Option State :=
  if addr < Config.memSize then some (st.withMem (Memory.write st.mem addr v)) else none

/-- `MemWrite(addr, 2, v)`: the high byte at `addr`, the low byte after it, neither when the second does not exist
(R36, R37). -/
def State.memWrite2 (st : State) (addr : Nat) (v : Word) : Option State :=
  if addr + 1 < Config.memSize then
    some (st.withMem (Memory.write (Memory.write st.mem addr (hiByte v)) (addr + 1) (loByte v)))
  else none

/-- The byte at a 16-bit address, which always exists (R33). -/
def State.readByte (st : State) (addr : Word) : Byte := Memory.read st.mem addr.toNat

/-- The byte at a 16-bit address replaced. -/
def State.writeByte (st : State) (addr : Word) (v : Byte) : State :=
  st.withMem (Memory.write st.mem addr.toNat v)

/-! ## Stack primitives (20_memory.md R45 to R48); `p` is the stack pointer, S or U -/

/-- `Push8(p, v)` (R45). -/
def State.push8 (st : State) (p : Reg16) (v : Byte) : State :=
  (st.set16 p (st.get16 p - 1)).writeByte (st.get16 p - 1) v

/-- `Push16(p, v)`: the low byte first (R46). -/
def State.push16 (st : State) (p : Reg16) (v : Word) : State :=
  (st.push8 p (loByte v)).push8 p (hiByte v)

/-- `Pull8(p)`: the byte (R47). -/
def State.pulled8 (st : State) (p : Reg16) : Byte := st.readByte (st.get16 p)

/-- `Pull8(p)`: the state after it (R47). -/
def State.drop8 (st : State) (p : Reg16) : State := st.set16 p (st.get16 p + 1)

/-- `Pull16(p)`: the word, high byte first (R48). -/
def State.pulled16 (st : State) (p : Reg16) : Word := mkWord (st.pulled8 p) ((st.drop8 p).pulled8 p)

/-- `Pull16(p)`: the state after it (R48). -/
def State.drop16 (st : State) (p : Reg16) : State := (st.drop8 p).drop8 p

/-- `if sel: Push16(p, r)`. -/
def State.pushReg16 (st : State) (sel : Bool) (p r : Reg16) : State :=
  if sel then st.push16 p (st.get16 r) else st

/-- `if sel: Push8(p, r)`. -/
def State.pushReg8 (st : State) (sel : Bool) (p : Reg16) (r : Reg8) : State :=
  if sel then st.push8 p (st.get8 r) else st

/-- `if sel: r <- Pull16(p)`. -/
def State.pullReg16 (st : State) (sel : Bool) (p r : Reg16) : State :=
  if sel then (st.drop16 p).set16 r (st.pulled16 p) else st

/-- `if sel: r <- Pull8(p)`. -/
def State.pullReg8 (st : State) (sel : Bool) (p : Reg16) (r : Reg8) : State :=
  if sel then (st.drop8 p).set8 r (st.pulled8 p) else st

/-- Push the selected registers, bit 7 first; `other` is the other stack pointer, bit 6 (R192, R193, R195). -/
def State.pushList (st : State) (p other : Reg16) (list : Byte) : State :=
  let st := st.pushReg16 (list.getLsbD 7) p .pc
  let st := st.pushReg16 (list.getLsbD 6) p other
  let st := st.pushReg16 (list.getLsbD 5) p .y
  let st := st.pushReg16 (list.getLsbD 4) p .x
  let st := st.pushReg8 (list.getLsbD 3) p .dp
  let st := st.pushReg8 (list.getLsbD 2) p .b
  let st := st.pushReg8 (list.getLsbD 1) p .a
  st.pushReg8 (list.getLsbD 0) p .cc

/-- Pull the selected registers, bit 0 first; `other` is the other stack pointer, bit 6 (R192, R194, R196). -/
def State.pullList (st : State) (p other : Reg16) (list : Byte) : State :=
  let st := st.pullReg8 (list.getLsbD 0) p .cc
  let st := st.pullReg8 (list.getLsbD 1) p .a
  let st := st.pullReg8 (list.getLsbD 2) p .b
  let st := st.pullReg8 (list.getLsbD 3) p .dp
  let st := st.pullReg16 (list.getLsbD 4) p .x
  let st := st.pullReg16 (list.getLsbD 5) p .y
  let st := st.pullReg16 (list.getLsbD 6) p other
  st.pullReg16 (list.getLsbD 7) p .pc

/-! ## Software interrupts: entry and return (60_exceptions.md R251, R252) -/

/-- Taking a software interrupt: E is set, the whole register set is pushed on S, I and F are set if `mask`, and PC is
read from the vector word after the pushes (R236, R237, R238, R251). PC is already that of the next instruction. -/
def State.enterInterrupt (st : State) (vector : Word) (mask : Bool) : State :=
  let st := st.withCc (putFlag .e true st.cc)
  let st := st.pushList .s .u 0xFF
  let st := if mask then st.withCc (putFlag .i true (putFlag .f true st.cc)) else st
  st.withPc (mkWord (st.readByte vector) (st.readByte (vector + 1)))

/-- Returning: CC is pulled, then A, B, DP, X, Y, U if the E just pulled is 1, then PC (R239, R252). -/
def State.leaveInterrupt (st : State) : State :=
  let st := st.pullList .s .u 0x01
  let st := if st.flag .e then st.pullList .s .u 0x7E else st
  st.pullList .s .u 0x80

/-! ## Fetching an instruction's bytes (30_encoding.md R56, R57) -/

/-- The bytes from `addr` on, at most `count`, up to the end of the address space: they do not wrap (R57). -/
def State.bytesFrom (st : State) (addr : Nat) : Nat → List Byte
  | 0 => []
  | count + 1 =>
    match st.memRead1 addr with
    | some b => b :: State.bytesFrom st (addr + 1) count
    | none => []

/-- What the fetch cursor can see from PC: the longest instruction has 5 bytes (R61). -/
def State.fetchWindow (st : State) : List Byte :=
  st.bytesFrom st.pc.toNat 5

/-- The fault a step reports when the bytes at PC do not decode (R243, R244, R247). -/
def rejectFault (pc : Word) : Reject → Fault
  | .noBytes => .outOfRange pc 0 pc.toNat
  | .undefinedOpcode opcode => .illegalOpcode pc opcode none
  | .unimplementedOpcode opcode => .illegalOpcode pc opcode none
  | .invalidPostbyte opcode postbyte => .illegalOpcode pc opcode (some postbyte)
  | .missingByte opcode offset => .outOfRange pc opcode (pc.toNat + offset)

/-- Bytes written to memory from `addr` on, as far as the address space goes. -/
def State.placeBytes (st : State) (addr : Nat) : List Byte → State
  | [] => st
  | b :: rest =>
    match st.memWrite1 addr b with
    | some st' => State.placeBytes st' (addr + 1) rest
    | none => st

end Sys2Proof.Machine
end

