-- ==== Sys2Proof/Machine/Operands.lean ====
section
/-! DEFINITION. The addressing modes (40_addressing_modes.md R75 to R100) and the shapes of instruction over them:
resolve the operand, commit PC, then do the operation (30_encoding.md R55, R59). Every shape takes the instruction, for
its length and for the opcode a fault reports, and the state before the step. -/

namespace Sys2Proof.Machine

/-! ## PC -/

/-- `PCnext`, the address of the byte after the instruction, modulo 65536 (R59). -/
def State.pcNext (st : State) (i : Instr) : Word := st.pc + BitVec.ofNat 16 i.length

/-- PC committed (R59). -/
def State.advance (st : State) (i : Instr) : State := st.withPc (st.pcNext i)

/-! ## Indexed addressing -/

/-- The base register as a register of the machine (R83). -/
def baseReg : IndexReg → Reg16
  | .x => .x
  | .y => .y
  | .u => .u
  | .s => .s

/-- The address an indexed operand computes before indirection; `next` is `PCnext` (R83 to R94). -/
def indexedAddress (x : Indexed) (next : Word) (st : State) : Word :=
  match x with
  | .offset5 r n => st.get16 (baseReg r) + n.signExtend 16
  | .postInc1 r _ => st.get16 (baseReg r)
  | .postInc2 r _ => st.get16 (baseReg r)
  | .preDec1 r _ => st.get16 (baseReg r) - 1
  | .preDec2 r _ => st.get16 (baseReg r) - 2
  | .noOffset r _ => st.get16 (baseReg r)
  | .accB r _ => st.get16 (baseReg r) + st.b.signExtend 16
  | .accA r _ => st.get16 (baseReg r) + st.a.signExtend 16
  | .accD r _ => st.get16 (baseReg r) + st.d
  | .offset8 r n _ => st.get16 (baseReg r) + n.signExtend 16
  | .offset16 r n _ => st.get16 (baseReg r) + n
  | .pcr8 _ n _ => next + n.signExtend 16
  | .pcr16 _ n _ => next + n
  | .extended addr _ => addr

/-- The register side effect of an indexed operand (R85 to R88, R97). -/
def indexedUpdate (x : Indexed) (st : State) : State :=
  match x with
  | .offset5 _ _ => st
  | .postInc1 r _ => st.set16 (baseReg r) (st.get16 (baseReg r) + 1)
  | .postInc2 r _ => st.set16 (baseReg r) (st.get16 (baseReg r) + 2)
  | .preDec1 r _ => st.set16 (baseReg r) (st.get16 (baseReg r) - 1)
  | .preDec2 r _ => st.set16 (baseReg r) (st.get16 (baseReg r) - 2)
  | .noOffset _ _ => st
  | .accB _ _ => st
  | .accA _ _ => st
  | .accD _ _ => st
  | .offset8 _ _ _ => st
  | .offset16 _ _ _ => st
  | .pcr8 _ _ _ => st
  | .pcr16 _ _ _ => st
  | .extended _ _ => st

/-- Whether the address is replaced by the word it points to (R95). -/
def isIndirect : Indexed → Bool
  | .offset5 _ _ => false
  | .postInc1 _ indirect => indirect
  | .postInc2 _ indirect => indirect
  | .preDec1 _ indirect => indirect
  | .preDec2 _ indirect => indirect
  | .noOffset _ indirect => indirect
  | .accB _ indirect => indirect
  | .accA _ indirect => indirect
  | .accD _ indirect => indirect
  | .offset8 _ _ indirect => indirect
  | .offset16 _ _ indirect => indirect
  | .pcr8 _ _ indirect => indirect
  | .pcr16 _ _ indirect => indirect
  | .extended _ indirect => indirect

/-- The effective address of an indexed operand: one level of indirection, whose pointer word must exist (R95, R39).
A form R83 does not have (the decoder gives none) raises IllegalOpcode with its postbyte (R96; log entry 7). -/
def indexedEA (i : Instr) (x : Indexed) (st : State) : Except Fault Word :=
  if x.wf then
    let addr := indexedAddress x (st.pcNext i) st
    if isIndirect x then
      match st.memRead2 addr.toNat with
      | some pointer => .ok pointer
      | none => .error (.outOfRange st.pc i.opcode addr.toNat)
    else .ok addr
  else .error (.illegalOpcode st.pc i.opcode (some x.postbyte))

/-! ## Memory operands -/

/-- The effective address of a memory operand (R79, R80, R83). -/
def effectiveAddress (i : Instr) (l : Loc) (st : State) : Except Fault Word :=
  match l with
  | .dir lo => .ok (mkWord st.dp lo)
  | .idx x => indexedEA i x st
  | .ext addr => .ok addr

/-- The register side effect of a memory operand (R97). -/
def locUpdate (l : Loc) (st : State) : State :=
  match l with
  | .dir _ => st
  | .idx x => indexedUpdate x st
  | .ext _ => st

/-- The state in which the operation runs: side effect applied, PC committed (R55, R97). -/
def State.entered (st : State) (i : Instr) (l : Loc) : State :=
  (locUpdate l st).withPc (st.pcNext i)

/-- A memory operand resolved: its effective address and the state in which the operation runs (R55, R75). -/
def locate (i : Instr) (l : Loc) (st : State) : Except Fault (Word × State) :=
  match effectiveAddress i l st with
  | .ok ea => .ok (ea, st.entered i l)
  | .error f => .error f

/-- `operand8` and the state in which the operation runs: an immediate, or the byte at EA (R75). -/
def operand8 (i : Instr) (o : Src8) (st : State) : Except Fault (Byte × State) :=
  match o with
  | .imm v => .ok (v, st.advance i)
  | .mem l =>
    match locate i l st with
    | .ok (ea, s) => .ok (s.readByte ea, s)
    | .error f => .error f

/-- `operand16` and the state in which the operation runs: an immediate, or the word at EA, which raises OutOfRange at
EA = 0xFFFF (R75, R39). -/
def operand16 (i : Instr) (o : Src16) (st : State) : Except Fault (Word × State) :=
  match o with
  | .imm v => .ok (v, st.advance i)
  | .mem l =>
    match locate i l st with
    | .ok (ea, s) =>
      match s.memRead2 ea.toNat with
      | some v => .ok (v, s)
      | none => .error (.outOfRange st.pc i.opcode ea.toNat)
    | .error f => .error f

/-! ## The shapes -/

/-- No memory operand: PC committed, then the operation (R76, R81, R82, R99, R100). -/
def inherent (i : Instr) (f : State → State) (st : State) : Result :=
  .next (f (st.advance i))

/-- An operation on `operand8` (R75). -/
def withOperand8 (i : Instr) (o : Src8) (f : Byte → State → State) (st : State) : Result :=
  match operand8 i o st with
  | .ok (v, s) => .next (f v s)
  | .error e => .fault e

/-- An operation on `operand16` (R75). -/
def withOperand16 (i : Instr) (o : Src16) (f : Word → State → State) (st : State) : Result :=
  match operand16 i o st with
  | .ok (v, s) => .next (f v s)
  | .error e => .fault e

/-- The byte at EA read only (TST, R153). -/
def readLoc8 (i : Instr) (l : Loc) (f : Byte → State → State) (st : State) : Result :=
  match locate i l st with
  | .ok (ea, s) => .next (f (s.readByte ea) s)
  | .error e => .fault e

/-- A byte stored at EA with flags: `value` and `flags` are taken in the state in which the operation runs. -/
def storeLoc8 (i : Instr) (l : Loc) (value : State → Byte) (flags : State → State) (st : State) : Result :=
  match locate i l st with
  | .ok (ea, s) => .next ((flags s).writeByte ea (value s))
  | .error e => .fault e

/-- A word stored at EA with flags; at EA = 0xFFFF it raises OutOfRange and nothing is written (R110, R39). -/
def storeLoc16 (i : Instr) (l : Loc) (value : State → Word) (flags : State → State) (st : State) : Result :=
  match locate i l st with
  | .ok (ea, s) =>
    match (flags s).memWrite2 ea.toNat (value s) with
    | some s' => .next s'
    | none => .fault (.outOfRange st.pc i.opcode ea.toNat)
  | .error e => .fault e

/-- A read-modify-write of the byte at EA: one read, one write (R41). `result` and `flags` take the old byte and the
state in which the operation runs. -/
def modifyLoc (i : Instr) (l : Loc) (result : Byte → State → Byte) (flags : Byte → State → State) (st : State) :
    Result :=
  match locate i l st with
  | .ok (ea, s) => .next ((flags (s.readByte ea) s).writeByte ea (result (s.readByte ea) s))
  | .error e => .fault e

/-- The same operation on an accumulator (the inherent forms). -/
def modifyReg (i : Instr) (r : Reg8) (result : Byte → State → Byte) (flags : Byte → State → State) (st : State) :
    Result :=
  inherent i (fun s => (flags (s.get8 r) s).set8 r (result (s.get8 r) s)) st

/-- The effective address itself is used; nothing is read at it (JMP, JSR, LEA; R75). -/
def withEA (i : Instr) (l : Loc) (f : Word → State → State) (st : State) : Result :=
  match locate i l st with
  | .ok (ea, s) => .next (f ea s)
  | .error e => .fault e

/-- A branch: PC on the right is `PCnext` (R81, R82, R197). -/
def branch (i : Instr) (c : Cond) (disp : Word) (st : State) : Result :=
  inherent i (fun s => if c.holds s.cc then s.withPc (s.pc + disp) else s) st

/-! ## Register codes of TFR and EXG (44_transfer_stack.md R188, R189) -/

/-- A register a code names. -/
inductive TransferReg where
  | r8 (r : Reg8)
  | r16 (r : Reg16)
  deriving DecidableEq, Repr

/-- The register of a 4-bit code; none for the undefined codes 6, 7, 0xC to 0xF (R188). -/
def transferReg (code : BitVec 4) : Option TransferReg :=
  match code.toNat with
  | 0x0 => some (.r16 .d)
  | 0x1 => some (.r16 .x)
  | 0x2 => some (.r16 .y)
  | 0x3 => some (.r16 .u)
  | 0x4 => some (.r16 .s)
  | 0x5 => some (.r16 .pc)
  | 0x8 => some (.r8 .a)
  | 0x9 => some (.r8 .b)
  | 0xA => some (.r8 .cc)
  | 0xB => some (.r8 .dp)
  | _ => none

/-- A pair of registers of one width. -/
inductive TransferPair where
  | pair8 (src dst : Reg8)
  | pair16 (src dst : Reg16)
  deriving DecidableEq, Repr

/-- The pair a postbyte names; none when it is invalid (R189). -/
def transferPair (src dst : BitVec 4) : Option TransferPair :=
  match transferReg src, transferReg dst with
  | some (.r8 r1), some (.r8 r2) => some (.pair8 r1 r2)
  | some (.r16 r1), some (.r16 r2) => some (.pair16 r1 r2)
  | some (.r8 _), some (.r16 _) => none
  | some (.r16 _), some (.r8 _) => none
  | some _, none => none
  | none, _ => none

/-- An instruction on a register pair; an invalid postbyte raises InvalidRegisterTransfer (R189, R245). -/
def withPair (i : Instr) (src dst : BitVec 4) (f : TransferPair → State → State) (st : State) : Result :=
  match transferPair src dst with
  | some p => inherent i (f p) st
  | none => .fault (.invalidRegisterTransfer st.pc i.opcode (src ++ dst : BitVec (4 + 4)))

end Sys2Proof.Machine
end

