-- ==== Sys2Proof/Machine/Arithmetic.lean ====
section
/-! DEFINITION. The arithmetic instructions (42_arithmetic.md R124 to R159). -/

namespace Sys2Proof.Machine

/-! ## Shared operations -/

/-- The flags of an 8-bit addition: H, N, Z, V, C (R124 to R127). -/
def sumFlags (q : Sum8) (s : State) : State :=
  s.withCc (putNZVC q.n q.z q.v q.c (putFlag .h q.h s.cc))

/-- The flags of an 8-bit subtraction: N, Z, V, C; H becomes undefined (R128 to R133, R141 to R143). -/
def diffFlags (q : Diff8) (s : State) : State :=
  let s := s.undefine .h
  s.withCc (putNZVC q.n q.z q.v q.c s.cc)

/-- The flags of 16-bit arithmetic: N, Z, V, C; H is not touched (R134 to R140). -/
def flags16 (q : Result16) (s : State) : State :=
  s.withCc (putNZVC q.n q.z q.v q.c s.cc)

/-- ADD: no carry in (R124, R125). -/
def addTo (r : Reg8) (m : Byte) (s : State) : State :=
  let q := add8 (s.get8 r) m false
  (sumFlags q s).set8 r q.r

/-- ADC: the carry flag before the instruction comes in (R126, R127). -/
def addCarryTo (r : Reg8) (m : Byte) (s : State) : State :=
  let q := add8 (s.get8 r) m (s.flag .c)
  (sumFlags q s).set8 r q.r

/-- SUB: no borrow in (R128, R129). -/
def subFrom (r : Reg8) (m : Byte) (s : State) : State :=
  let q := sub8 (s.get8 r) m false
  (diffFlags q s).set8 r q.r

/-- SBC: the carry flag before the instruction comes in as a borrow (R130, R131). -/
def subCarryFrom (r : Reg8) (m : Byte) (s : State) : State :=
  let q := sub8 (s.get8 r) m (s.flag .c)
  (diffFlags q s).set8 r q.r

/-- CMP on an accumulator: the result is discarded (R132, R133). -/
def compare8 (r : Reg8) (m : Byte) (s : State) : State :=
  diffFlags (sub8 (s.get8 r) m false) s

/-- CMP on a 16-bit register: the result is discarded (R136 to R140). -/
def compare16 (r : Reg16) (m : Word) (s : State) : State :=
  flags16 (sub16 (s.get16 r) m) s

/-- ADDD (R134). -/
def addToD (m : Word) (s : State) : State :=
  let q := add16 s.d m
  (flags16 q s).set16 .d q.r

/-- SUBD (R135). -/
def subFromD (m : Word) (s : State) : State :=
  let q := sub16 s.d m
  (flags16 q s).set16 .d q.r

/-- NEG, the result (R141). -/
def negResult (m : Byte) (_ : State) : Byte := (sub8 0x00 m false).r

/-- NEG, the flags (R141). -/
def negFlags (m : Byte) (s : State) : State := diffFlags (sub8 0x00 m false) s

/-- INC, the result (R144). -/
def incResult (m : Byte) (_ : State) : Byte := m + 1

/-- INC, the flags: V when the operand was 0x7F, C kept (R144). -/
def incFlags (m : Byte) (s : State) : State :=
  s.withCc (putNZV (m + 1).msb (m + 1 == 0) (m == 0x7F) s.cc)

/-- DEC, the result (R147). -/
def decResult (m : Byte) (_ : State) : Byte := m - 1

/-- DEC, the flags: V when the operand was 0x80, C kept (R147). -/
def decFlags (m : Byte) (s : State) : State :=
  s.withCc (putNZV (m - 1).msb (m - 1 == 0) (m == 0x80) s.cc)

/-- CLR, the flags: N = 0, Z = 1, V = 0, C = 0 (R150). -/
def clrFlags (s : State) : State :=
  s.withCc (putNZVC false true false false s.cc)

/-- TST: N, Z from the operand, V = 0, C kept (R153). -/
def tstFlags (m : Byte) (s : State) : State :=
  s.withCc (putLogic8 m s.cc)

/-- DAA: V becomes undefined, a carry already set stays set (R156). -/
def daaOp (s : State) : State :=
  let sum := s.a.toNat + (daaCorrection s.a (s.flag .h) (s.flag .c)).toNat
  let r : Byte := BitVec.ofNat 8 sum
  let carry := s.flag .c || decide (255 < sum)
  let s := s.undefine .v
  (s.withCc (putNZC r.msb (r == 0) carry s.cc)).set8 .a r

/-- MUL: unsigned; Z from the product, C its bit 7, N and V kept (R157). -/
def mulOp (s : State) : State :=
  let p : Word := BitVec.ofNat 16 (s.a.toNat * s.b.toNat)
  (s.withCc (putFlag .z (p == 0) (putFlag .c (p.getLsbD 7) s.cc))).set16 .d p

/-- SEX: N, Z from B; V kept (R158, U5). -/
def sexOp (s : State) : State :=
  (s.withCc (putNZ s.b.msb (s.b == 0) s.cc)).set8 .a (if s.b.msb then 0xFF else 0x00)

/-- ABX: B is unsigned, no flag (R159). -/
def abxOp (s : State) : State :=
  s.set16 .x (s.x + s.b.zeroExtend 16)

/-! ## The instructions -/

/-- ADDA (R124). -/
def execAdda (o : Src8) (st : State) : Result := withOperand8 (.adda o) o (addTo .a) st

/-- ADDB (R125). -/
def execAddb (o : Src8) (st : State) : Result := withOperand8 (.addb o) o (addTo .b) st

/-- ADCA (R126). -/
def execAdca (o : Src8) (st : State) : Result := withOperand8 (.adca o) o (addCarryTo .a) st

/-- ADCB (R127). -/
def execAdcb (o : Src8) (st : State) : Result := withOperand8 (.adcb o) o (addCarryTo .b) st

/-- SUBA (R128). -/
def execSuba (o : Src8) (st : State) : Result := withOperand8 (.suba o) o (subFrom .a) st

/-- SUBB (R129). -/
def execSubb (o : Src8) (st : State) : Result := withOperand8 (.subb o) o (subFrom .b) st

/-- SBCA (R130). -/
def execSbca (o : Src8) (st : State) : Result := withOperand8 (.sbca o) o (subCarryFrom .a) st

/-- SBCB (R131). -/
def execSbcb (o : Src8) (st : State) : Result := withOperand8 (.sbcb o) o (subCarryFrom .b) st

/-- CMPA (R132). -/
def execCmpa (o : Src8) (st : State) : Result := withOperand8 (.cmpa o) o (compare8 .a) st

/-- CMPB (R133). -/
def execCmpb (o : Src8) (st : State) : Result := withOperand8 (.cmpb o) o (compare8 .b) st

/-- ADDD (R134). -/
def execAddd (o : Src16) (st : State) : Result := withOperand16 (.addd o) o addToD st

/-- SUBD (R135). -/
def execSubd (o : Src16) (st : State) : Result := withOperand16 (.subd o) o subFromD st

/-- CMPD (R136). -/
def execCmpd (o : Src16) (st : State) : Result := withOperand16 (.cmpd o) o (compare16 .d) st

/-- CMPX (R137). -/
def execCmpx (o : Src16) (st : State) : Result := withOperand16 (.cmpx o) o (compare16 .x) st

/-- CMPY (R138). -/
def execCmpy (o : Src16) (st : State) : Result := withOperand16 (.cmpy o) o (compare16 .y) st

/-- CMPU (R139). -/
def execCmpu (o : Src16) (st : State) : Result := withOperand16 (.cmpu o) o (compare16 .u) st

/-- CMPS (R140). -/
def execCmps (o : Src16) (st : State) : Result := withOperand16 (.cmps o) o (compare16 .s) st

/-- NEG (R141). -/
def execNeg (l : Loc) (st : State) : Result := modifyLoc (.neg l) l negResult negFlags st

/-- NEGA (R142). -/
def execNega (st : State) : Result := modifyReg .nega .a negResult negFlags st

/-- NEGB (R143). -/
def execNegb (st : State) : Result := modifyReg .negb .b negResult negFlags st

/-- INC (R144). -/
def execInc (l : Loc) (st : State) : Result := modifyLoc (.inc l) l incResult incFlags st

/-- INCA (R145). -/
def execInca (st : State) : Result := modifyReg .inca .a incResult incFlags st

/-- INCB (R146). -/
def execIncb (st : State) : Result := modifyReg .incb .b incResult incFlags st

/-- DEC (R147). -/
def execDec (l : Loc) (st : State) : Result := modifyLoc (.dec l) l decResult decFlags st

/-- DECA (R148). -/
def execDeca (st : State) : Result := modifyReg .deca .a decResult decFlags st

/-- DECB (R149). -/
def execDecb (st : State) : Result := modifyReg .decb .b decResult decFlags st

/-- CLR: one write, no read (R150, decision D21). -/
def execClr (l : Loc) (st : State) : Result := storeLoc8 (.clr l) l (fun _ => 0x00) clrFlags st

/-- CLRA (R151). -/
def execClra (st : State) : Result := inherent .clra (fun s => (clrFlags s).set8 .a 0x00) st

/-- CLRB (R152). -/
def execClrb (st : State) : Result := inherent .clrb (fun s => (clrFlags s).set8 .b 0x00) st

/-- TST (R153). -/
def execTst (l : Loc) (st : State) : Result := readLoc8 (.tst l) l tstFlags st

/-- TSTA (R154). -/
def execTsta (st : State) : Result := inherent .tsta (fun s => tstFlags s.a s) st

/-- TSTB (R155). -/
def execTstb (st : State) : Result := inherent .tstb (fun s => tstFlags s.b s) st

/-- DAA (R156). -/
def execDaa (st : State) : Result := inherent .daa daaOp st

/-- MUL (R157). -/
def execMul (st : State) : Result := inherent .mul mulOp st

/-- SEX (R158). -/
def execSex (st : State) : Result := inherent .sex sexOp st

/-- ABX (R159). -/
def execAbx (st : State) : Result := inherent .abx abxOp st

end Sys2Proof.Machine
end

