-- ==== Sys2Proof/Machine/Branch.lean ====
section
/-! DEFINITION. Branches, jumps, subroutine call and return, NOP (45_branch_jump.md R197 to R235). -/

namespace Sys2Proof.Machine

/-! ## Shared operations -/

/-- A call: the return address, `PCnext`, is pushed on S, then PC is the target (R230, R231, R233). -/
def callTo (target : Word) (s : State) : State :=
  (s.push16 .s s.pc).withPc target

/-- RTS: PC is pulled from S (R234). -/
def returnOp (s : State) : State :=
  (s.drop16 .s).withPc (s.pulled16 .s)

/-! ## Short branches -/

/-- BRA (R198). -/
def execBra (disp : Byte) (st : State) : Result :=
  branch (.bra disp) .always (disp.signExtend 16) st

/-- BRN (R199). -/
def execBrn (disp : Byte) (st : State) : Result :=
  branch (.brn disp) .never (disp.signExtend 16) st

/-- BHI (R200). -/
def execBhi (disp : Byte) (st : State) : Result :=
  branch (.bhi disp) .hi (disp.signExtend 16) st

/-- BLS (R201). -/
def execBls (disp : Byte) (st : State) : Result :=
  branch (.bls disp) .ls (disp.signExtend 16) st

/-- BCC (R202). -/
def execBcc (disp : Byte) (st : State) : Result :=
  branch (.bcc disp) .cc (disp.signExtend 16) st

/-- BCS (R203). -/
def execBcs (disp : Byte) (st : State) : Result :=
  branch (.bcs disp) .cs (disp.signExtend 16) st

/-- BNE (R204). -/
def execBne (disp : Byte) (st : State) : Result :=
  branch (.bne disp) .ne (disp.signExtend 16) st

/-- BEQ (R205). -/
def execBeq (disp : Byte) (st : State) : Result :=
  branch (.beq disp) .eq (disp.signExtend 16) st

/-- BVC (R206). -/
def execBvc (disp : Byte) (st : State) : Result :=
  branch (.bvc disp) .vc (disp.signExtend 16) st

/-- BVS (R207). -/
def execBvs (disp : Byte) (st : State) : Result :=
  branch (.bvs disp) .vs (disp.signExtend 16) st

/-- BPL (R208). -/
def execBpl (disp : Byte) (st : State) : Result :=
  branch (.bpl disp) .pl (disp.signExtend 16) st

/-- BMI (R209). -/
def execBmi (disp : Byte) (st : State) : Result :=
  branch (.bmi disp) .mi (disp.signExtend 16) st

/-- BGE (R210). -/
def execBge (disp : Byte) (st : State) : Result :=
  branch (.bge disp) .ge (disp.signExtend 16) st

/-- BLT (R211). -/
def execBlt (disp : Byte) (st : State) : Result :=
  branch (.blt disp) .lt (disp.signExtend 16) st

/-- BGT (R212). -/
def execBgt (disp : Byte) (st : State) : Result :=
  branch (.bgt disp) .gt (disp.signExtend 16) st

/-- BLE (R213). -/
def execBle (disp : Byte) (st : State) : Result :=
  branch (.ble disp) .le (disp.signExtend 16) st

/-! ## Long branches -/

/-- LBRA (R214). -/
def execLbra (disp : Word) (st : State) : Result :=
  branch (.lbra disp) .always disp st

/-- LBRN (R215). -/
def execLbrn (disp : Word) (st : State) : Result :=
  branch (.lbrn disp) .never disp st

/-- LBHI (R216). -/
def execLbhi (disp : Word) (st : State) : Result :=
  branch (.lbhi disp) .hi disp st

/-- LBLS (R217). -/
def execLbls (disp : Word) (st : State) : Result :=
  branch (.lbls disp) .ls disp st

/-- LBCC (R218). -/
def execLbcc (disp : Word) (st : State) : Result :=
  branch (.lbcc disp) .cc disp st

/-- LBCS (R219). -/
def execLbcs (disp : Word) (st : State) : Result :=
  branch (.lbcs disp) .cs disp st

/-- LBNE (R220). -/
def execLbne (disp : Word) (st : State) : Result :=
  branch (.lbne disp) .ne disp st

/-- LBEQ (R221). -/
def execLbeq (disp : Word) (st : State) : Result :=
  branch (.lbeq disp) .eq disp st

/-- LBVC (R222). -/
def execLbvc (disp : Word) (st : State) : Result :=
  branch (.lbvc disp) .vc disp st

/-- LBVS (R223). -/
def execLbvs (disp : Word) (st : State) : Result :=
  branch (.lbvs disp) .vs disp st

/-- LBPL (R224). -/
def execLbpl (disp : Word) (st : State) : Result :=
  branch (.lbpl disp) .pl disp st

/-- LBMI (R225). -/
def execLbmi (disp : Word) (st : State) : Result :=
  branch (.lbmi disp) .mi disp st

/-- LBGE (R226). -/
def execLbge (disp : Word) (st : State) : Result :=
  branch (.lbge disp) .ge disp st

/-- LBLT (R227). -/
def execLblt (disp : Word) (st : State) : Result :=
  branch (.lblt disp) .lt disp st

/-- LBGT (R228). -/
def execLbgt (disp : Word) (st : State) : Result :=
  branch (.lbgt disp) .gt disp st

/-- LBLE (R229). -/
def execLble (disp : Word) (st : State) : Result :=
  branch (.lble disp) .le disp st

/-! ## Calls, jumps, return, NOP -/

/-- BSR (R230). -/
def execBsr (disp : Byte) (st : State) : Result :=
  inherent (.bsr disp) (fun s => callTo (s.pc + disp.signExtend 16) s) st

/-- LBSR (R231). -/
def execLbsr (disp : Word) (st : State) : Result :=
  inherent (.lbsr disp) (fun s => callTo (s.pc + disp) s) st

/-- JMP: the effective address is the target (R232). -/
def execJmp (l : Loc) (st : State) : Result := withEA (.jmp l) l (fun ea s => s.withPc ea) st

/-- JSR: the effective address is computed before the push (R233). -/
def execJsr (l : Loc) (st : State) : Result := withEA (.jsr l) l callTo st

/-- RTS (R234). -/
def execRts (st : State) : Result := inherent .rts returnOp st

/-- NOP: only PC advances (R235). -/
def execNop (st : State) : Result := inherent .nop (fun s => s) st

end Sys2Proof.Machine
end

