-- ==== Sys2Proof/Machine/LoadStore.lean ====
section
/-! DEFINITION. Loads, stores and load effective address (41_load_store_lea.md R101 to R118). -/

namespace Sys2Proof.Machine

/-- Load an 8-bit register: N, Z from the value, V cleared (R101, R102). -/
def load8 (r : Reg8) (v : Byte) (s : State) : State :=
  (s.withCc (putLogic8 v s.cc)).set8 r v

/-- Load a 16-bit register: N, Z from the word, V cleared (R105 to R109). -/
def load16 (r : Reg16) (v : Word) (s : State) : State :=
  (s.withCc (putLogic16 v s.cc)).set16 r v

/-- Store an 8-bit register: N, Z from the value stored, V cleared (R103, R104). -/
def store8 (i : Instr) (l : Loc) (r : Reg8) (st : State) : Result :=
  storeLoc8 i l (fun s => s.get8 r) (fun s => s.withCc (putLogic8 (s.get8 r) s.cc)) st

/-- Store a 16-bit register: N, Z from the word stored, V cleared (R110 to R114). -/
def store16 (i : Instr) (l : Loc) (r : Reg16) (st : State) : Result :=
  storeLoc16 i l (fun s => s.get16 r) (fun s => s.withCc (putLogic16 (s.get16 r) s.cc)) st

/-- LEAX and LEAY: the address, and Z from it (R115, R116). -/
def leaWithZ (r : Reg16) (ea : Word) (s : State) : State :=
  (s.withCc (putFlag .z (ea == 0) s.cc)).set16 r ea

/-- LEAS and LEAU: the address, no flag (R117, R118). -/
def leaPlain (r : Reg16) (ea : Word) (s : State) : State :=
  s.set16 r ea

/-- LDA (R101). -/
def execLda (o : Src8) (st : State) : Result := withOperand8 (.lda o) o (load8 .a) st

/-- LDB (R102). -/
def execLdb (o : Src8) (st : State) : Result := withOperand8 (.ldb o) o (load8 .b) st

/-- STA (R103). -/
def execSta (l : Loc) (st : State) : Result := store8 (.sta l) l .a st

/-- STB (R104). -/
def execStb (l : Loc) (st : State) : Result := store8 (.stb l) l .b st

/-- LDD (R105). -/
def execLdd (o : Src16) (st : State) : Result := withOperand16 (.ldd o) o (load16 .d) st

/-- LDX (R106). -/
def execLdx (o : Src16) (st : State) : Result := withOperand16 (.ldx o) o (load16 .x) st

/-- LDY (R107). -/
def execLdy (o : Src16) (st : State) : Result := withOperand16 (.ldy o) o (load16 .y) st

/-- LDU (R108). -/
def execLdu (o : Src16) (st : State) : Result := withOperand16 (.ldu o) o (load16 .u) st

/-- LDS (R109). -/
def execLds (o : Src16) (st : State) : Result := withOperand16 (.lds o) o (load16 .s) st

/-- STD (R110). -/
def execStd (l : Loc) (st : State) : Result := store16 (.std l) l .d st

/-- STX (R111). -/
def execStx (l : Loc) (st : State) : Result := store16 (.stx l) l .x st

/-- STY (R112). -/
def execSty (l : Loc) (st : State) : Result := store16 (.sty l) l .y st

/-- STU (R113). -/
def execStu (l : Loc) (st : State) : Result := store16 (.stu l) l .u st

/-- STS (R114). -/
def execSts (l : Loc) (st : State) : Result := store16 (.sts l) l .s st

/-- LEAX (R115). -/
def execLeax (x : Indexed) (st : State) : Result := withEA (.leax x) (.idx x) (leaWithZ .x) st

/-- LEAY (R116). -/
def execLeay (x : Indexed) (st : State) : Result := withEA (.leay x) (.idx x) (leaWithZ .y) st

/-- LEAS (R117). -/
def execLeas (x : Indexed) (st : State) : Result := withEA (.leas x) (.idx x) (leaPlain .s) st

/-- LEAU (R118). -/
def execLeau (x : Indexed) (st : State) : Result := withEA (.leau x) (.idx x) (leaPlain .u) st

end Sys2Proof.Machine
end

