-- ==== Sys2Proof/Machine/Logic.lean ====
section
/-! DEFINITION. The logic, condition-code, shift and rotate instructions (43_logic_shift.md R160 to R187). -/

namespace Sys2Proof.Machine

/-! ## Shared operations -/

/-- AND into an accumulator: N, Z from the result, V = 0, C kept (R160, R161). -/
def andTo (r : Reg8) (m : Byte) (s : State) : State :=
  (s.withCc (putLogic8 (s.get8 r &&& m) s.cc)).set8 r (s.get8 r &&& m)

/-- OR into an accumulator (R162, R163). -/
def orTo (r : Reg8) (m : Byte) (s : State) : State :=
  (s.withCc (putLogic8 (s.get8 r ||| m) s.cc)).set8 r (s.get8 r ||| m)

/-- Exclusive OR into an accumulator (R164, R165). -/
def eorTo (r : Reg8) (m : Byte) (s : State) : State :=
  (s.withCc (putLogic8 (s.get8 r ^^^ m) s.cc)).set8 r (s.get8 r ^^^ m)

/-- BIT: the AND only sets flags (R166, R167). -/
def bitTest (r : Reg8) (m : Byte) (s : State) : State :=
  s.withCc (putLogic8 (s.get8 r &&& m) s.cc)

/-- COM, the result (R168). -/
def comResult (m : Byte) (_ : State) : Byte := ~~~m

/-- COM, the flags: V = 0, C = 1 (R168). -/
def comFlags (m : Byte) (s : State) : State :=
  s.withCc (putNZVC (~~~m).msb (~~~m == 0) false true s.cc)

/-- LSR, the result: 0 enters bit 7 (R173). -/
def lsrResult (m : Byte) (_ : State) : Byte := shiftRightIn false m

/-- LSR, the flags: N = 0, C = bit 0, V kept (R173). -/
def lsrFlags (m : Byte) (s : State) : State :=
  s.withCc (putNZC false (shiftRightIn false m == 0) (m.getLsbD 0) s.cc)

/-- ASR, the result: bit 7 is kept (R176). -/
def asrResult (m : Byte) (_ : State) : Byte := shiftRightIn m.msb m

/-- ASR, the flags: C = bit 0, V kept, H becomes undefined (R176). -/
def asrFlags (m : Byte) (s : State) : State :=
  let r := shiftRightIn m.msb m
  let s := s.undefine .h
  s.withCc (putNZC r.msb (r == 0) (m.getLsbD 0) s.cc)

/-- ASL, the result: 0 enters bit 0 (R179). -/
def aslResult (m : Byte) (_ : State) : Byte := shiftLeftIn m false

/-- ASL, the flags: V = bit 7 xor bit 6, C = bit 7, H becomes undefined (R179). -/
def aslFlags (m : Byte) (s : State) : State :=
  let r := shiftLeftIn m false
  let s := s.undefine .h
  s.withCc (putNZVC r.msb (r == 0) (m.getLsbD 7 != m.getLsbD 6) (m.getLsbD 7) s.cc)

/-- ROL, the result: the old C enters bit 0 (R182). -/
def rolResult (m : Byte) (s : State) : Byte := shiftLeftIn m (s.flag .c)

/-- ROL, the flags: V = bit 7 xor bit 6, C = bit 7, H kept (R182). -/
def rolFlags (m : Byte) (s : State) : State :=
  let r := shiftLeftIn m (s.flag .c)
  s.withCc (putNZVC r.msb (r == 0) (m.getLsbD 7 != m.getLsbD 6) (m.getLsbD 7) s.cc)

/-- ROR, the result: the old C enters bit 7 (R185). -/
def rorResult (m : Byte) (s : State) : Byte := shiftRightIn (s.flag .c) m

/-- ROR, the flags: C = bit 0, V and H kept (R185). -/
def rorFlags (m : Byte) (s : State) : State :=
  let r := shiftRightIn (s.flag .c) m
  s.withCc (putNZC r.msb (r == 0) (m.getLsbD 0) s.cc)

/-! ## The instructions -/

/-- ANDA (R160). -/
def execAnda (o : Src8) (st : State) : Result := withOperand8 (.anda o) o (andTo .a) st

/-- ANDB (R161). -/
def execAndb (o : Src8) (st : State) : Result := withOperand8 (.andb o) o (andTo .b) st

/-- ORA (R162). -/
def execOra (o : Src8) (st : State) : Result := withOperand8 (.ora o) o (orTo .a) st

/-- ORB (R163). -/
def execOrb (o : Src8) (st : State) : Result := withOperand8 (.orb o) o (orTo .b) st

/-- EORA (R164). -/
def execEora (o : Src8) (st : State) : Result := withOperand8 (.eora o) o (eorTo .a) st

/-- EORB (R165). -/
def execEorb (o : Src8) (st : State) : Result := withOperand8 (.eorb o) o (eorTo .b) st

/-- BITA (R166). -/
def execBita (o : Src8) (st : State) : Result := withOperand8 (.bita o) o (bitTest .a) st

/-- BITB (R167). -/
def execBitb (o : Src8) (st : State) : Result := withOperand8 (.bitb o) o (bitTest .b) st

/-- COM (R168). -/
def execCom (l : Loc) (st : State) : Result := modifyLoc (.com l) l comResult comFlags st

/-- COMA (R169). -/
def execComa (st : State) : Result := modifyReg .coma .a comResult comFlags st

/-- COMB (R170). -/
def execComb (st : State) : Result := modifyReg .comb .b comResult comFlags st

/-- ANDCC (R171). -/
def execAndcc (mask : Byte) (st : State) : Result :=
  inherent (.andcc mask) (fun s => s.withCc (s.cc &&& mask)) st

/-- ORCC (R172). -/
def execOrcc (mask : Byte) (st : State) : Result :=
  inherent (.orcc mask) (fun s => s.withCc (s.cc ||| mask)) st

/-- LSR (R173). -/
def execLsr (l : Loc) (st : State) : Result := modifyLoc (.lsr l) l lsrResult lsrFlags st

/-- LSRA (R174). -/
def execLsra (st : State) : Result := modifyReg .lsra .a lsrResult lsrFlags st

/-- LSRB (R175). -/
def execLsrb (st : State) : Result := modifyReg .lsrb .b lsrResult lsrFlags st

/-- ASR (R176). -/
def execAsr (l : Loc) (st : State) : Result := modifyLoc (.asr l) l asrResult asrFlags st

/-- ASRA (R177). -/
def execAsra (st : State) : Result := modifyReg .asra .a asrResult asrFlags st

/-- ASRB (R178). -/
def execAsrb (st : State) : Result := modifyReg .asrb .b asrResult asrFlags st

/-- ASL, also written LSL (R179, R74). -/
def execAsl (l : Loc) (st : State) : Result := modifyLoc (.asl l) l aslResult aslFlags st

/-- ASLA, also written LSLA (R180, R74). -/
def execAsla (st : State) : Result := modifyReg .asla .a aslResult aslFlags st

/-- ASLB, also written LSLB (R181, R74). -/
def execAslb (st : State) : Result := modifyReg .aslb .b aslResult aslFlags st

/-- ROL (R182). -/
def execRol (l : Loc) (st : State) : Result := modifyLoc (.rol l) l rolResult rolFlags st

/-- ROLA (R183). -/
def execRola (st : State) : Result := modifyReg .rola .a rolResult rolFlags st

/-- ROLB (R184). -/
def execRolb (st : State) : Result := modifyReg .rolb .b rolResult rolFlags st

/-- ROR (R185). -/
def execRor (l : Loc) (st : State) : Result := modifyLoc (.ror l) l rorResult rorFlags st

/-- RORA (R186). -/
def execRora (st : State) : Result := modifyReg .rora .a rorResult rorFlags st

/-- RORB (R187). -/
def execRorb (st : State) : Result := modifyReg .rorb .b rorResult rorFlags st

end Sys2Proof.Machine
end

