-- ==== Sys2Proof/Machine/System.lean ====
section
/-! DEFINITION. Software interrupts, return from interrupt, CWAI and SYNC (46_system.md R236 to R241). -/

namespace Sys2Proof.Machine

/-- SWI: masks I and F after the push (R236). -/
def execSwi (st : State) : Result := inherent .swi (fun s => s.enterInterrupt Config.vectorSwi true) st

/-- SWI2: does not mask (R237). -/
def execSwi2 (st : State) : Result := inherent .swi2 (fun s => s.enterInterrupt Config.vectorSwi2 false) st

/-- SWI3: does not mask (R238). -/
def execSwi3 (st : State) : Result := inherent .swi3 (fun s => s.enterInterrupt Config.vectorSwi3 false) st

/-- RTI (R239). -/
def execRti (st : State) : Result := inherent .rti State.leaveInterrupt st

/-- CWAI: "Unimplemented", always IllegalOpcode (R240, R70, decision D8). -/
def execCwai (mask : Byte) (st : State) : Result := .fault (.illegalOpcode st.pc (Instr.cwai mask).opcode none)

/-- SYNC: "Unimplemented", always IllegalOpcode (R241, R70, decision D8). -/
def execSync (st : State) : Result := .fault (.illegalOpcode st.pc Instr.sync.opcode none)

end Sys2Proof.Machine
end

