-- ==== Sys2Proof/Machine/Transfer.lean ====
section
/-! DEFINITION. Register transfer and exchange, push and pull (44_transfer_stack.md R188 to R196). -/

namespace Sys2Proof.Machine

/-- TFR: the source is copied; PC reads as `PCnext`, D as A:B (R190). -/
def transfer (p : TransferPair) (s : State) : State :=
  match p with
  | .pair8 src dst => s.set8 dst (s.get8 src)
  | .pair16 src dst => s.set16 dst (s.get16 src)

/-- EXG: both values are read before either is written (R191). -/
def exchange (p : TransferPair) (s : State) : State :=
  match p with
  | .pair8 r1 r2 => (s.set8 r2 (s.get8 r1)).set8 r1 (s.get8 r2)
  | .pair16 r1 r2 => (s.set16 r2 (s.get16 r1)).set16 r1 (s.get16 r2)

/-- TFR (R190). -/
def execTfr (src dst : BitVec 4) (st : State) : Result := withPair (.tfr src dst) src dst transfer st

/-- EXG (R191). -/
def execExg (src dst : BitVec 4) (st : State) : Result := withPair (.exg src dst) src dst exchange st

/-- PSHS: bit 6 names U (R193). -/
def execPshs (list : Byte) (st : State) : Result := inherent (.pshs list) (fun s => s.pushList .s .u list) st

/-- PULS: bit 6 names U (R194). -/
def execPuls (list : Byte) (st : State) : Result := inherent (.puls list) (fun s => s.pullList .s .u list) st

/-- PSHU: bit 6 names S (R195). -/
def execPshu (list : Byte) (st : State) : Result := inherent (.pshu list) (fun s => s.pushList .u .s list) st

/-- PULU: bit 6 names S (R196). -/
def execPulu (list : Byte) (st : State) : Result := inherent (.pulu list) (fun s => s.pullList .u .s list) st

end Sys2Proof.Machine
end

