-- ==== Sys2Proof/Machine/Dispatch.lean ====
section
/-! DEFINITION. One arm per instruction (30_encoding.md R55, "execute mnemonic"). -/

namespace Sys2Proof.Machine

def exec (i : Instr) (s : State) : Host.Outcome State Fault Refusal :=
  match i with
  | .lda o => Sys2Proof.Machine.execLda o s
  | .ldb o => Sys2Proof.Machine.execLdb o s
  | .sta l => Sys2Proof.Machine.execSta l s
  | .stb l => Sys2Proof.Machine.execStb l s
  | .ldd o => Sys2Proof.Machine.execLdd o s
  | .ldx o => Sys2Proof.Machine.execLdx o s
  | .ldy o => Sys2Proof.Machine.execLdy o s
  | .ldu o => Sys2Proof.Machine.execLdu o s
  | .lds o => Sys2Proof.Machine.execLds o s
  | .std l => Sys2Proof.Machine.execStd l s
  | .stx l => Sys2Proof.Machine.execStx l s
  | .sty l => Sys2Proof.Machine.execSty l s
  | .stu l => Sys2Proof.Machine.execStu l s
  | .sts l => Sys2Proof.Machine.execSts l s
  | .leax x => Sys2Proof.Machine.execLeax x s
  | .leay x => Sys2Proof.Machine.execLeay x s
  | .leas x => Sys2Proof.Machine.execLeas x s
  | .leau x => Sys2Proof.Machine.execLeau x s
  | .adda o => Sys2Proof.Machine.execAdda o s
  | .addb o => Sys2Proof.Machine.execAddb o s
  | .adca o => Sys2Proof.Machine.execAdca o s
  | .adcb o => Sys2Proof.Machine.execAdcb o s
  | .suba o => Sys2Proof.Machine.execSuba o s
  | .subb o => Sys2Proof.Machine.execSubb o s
  | .sbca o => Sys2Proof.Machine.execSbca o s
  | .sbcb o => Sys2Proof.Machine.execSbcb o s
  | .cmpa o => Sys2Proof.Machine.execCmpa o s
  | .cmpb o => Sys2Proof.Machine.execCmpb o s
  | .addd o => Sys2Proof.Machine.execAddd o s
  | .subd o => Sys2Proof.Machine.execSubd o s
  | .cmpd o => Sys2Proof.Machine.execCmpd o s
  | .cmpx o => Sys2Proof.Machine.execCmpx o s
  | .cmpy o => Sys2Proof.Machine.execCmpy o s
  | .cmpu o => Sys2Proof.Machine.execCmpu o s
  | .cmps o => Sys2Proof.Machine.execCmps o s
  | .neg l => Sys2Proof.Machine.execNeg l s
  | .nega => Sys2Proof.Machine.execNega s
  | .negb => Sys2Proof.Machine.execNegb s
  | .inc l => Sys2Proof.Machine.execInc l s
  | .inca => Sys2Proof.Machine.execInca s
  | .incb => Sys2Proof.Machine.execIncb s
  | .dec l => Sys2Proof.Machine.execDec l s
  | .deca => Sys2Proof.Machine.execDeca s
  | .decb => Sys2Proof.Machine.execDecb s
  | .clr l => Sys2Proof.Machine.execClr l s
  | .clra => Sys2Proof.Machine.execClra s
  | .clrb => Sys2Proof.Machine.execClrb s
  | .tst l => Sys2Proof.Machine.execTst l s
  | .tsta => Sys2Proof.Machine.execTsta s
  | .tstb => Sys2Proof.Machine.execTstb s
  | .daa => Sys2Proof.Machine.execDaa s
  | .mul => Sys2Proof.Machine.execMul s
  | .sex => Sys2Proof.Machine.execSex s
  | .abx => Sys2Proof.Machine.execAbx s
  | .anda o => Sys2Proof.Machine.execAnda o s
  | .andb o => Sys2Proof.Machine.execAndb o s
  | .ora o => Sys2Proof.Machine.execOra o s
  | .orb o => Sys2Proof.Machine.execOrb o s
  | .eora o => Sys2Proof.Machine.execEora o s
  | .eorb o => Sys2Proof.Machine.execEorb o s
  | .bita o => Sys2Proof.Machine.execBita o s
  | .bitb o => Sys2Proof.Machine.execBitb o s
  | .com l => Sys2Proof.Machine.execCom l s
  | .coma => Sys2Proof.Machine.execComa s
  | .comb => Sys2Proof.Machine.execComb s
  | .andcc mask => Sys2Proof.Machine.execAndcc mask s
  | .orcc mask => Sys2Proof.Machine.execOrcc mask s
  | .lsr l => Sys2Proof.Machine.execLsr l s
  | .lsra => Sys2Proof.Machine.execLsra s
  | .lsrb => Sys2Proof.Machine.execLsrb s
  | .asr l => Sys2Proof.Machine.execAsr l s
  | .asra => Sys2Proof.Machine.execAsra s
  | .asrb => Sys2Proof.Machine.execAsrb s
  | .asl l => Sys2Proof.Machine.execAsl l s
  | .asla => Sys2Proof.Machine.execAsla s
  | .aslb => Sys2Proof.Machine.execAslb s
  | .rol l => Sys2Proof.Machine.execRol l s
  | .rola => Sys2Proof.Machine.execRola s
  | .rolb => Sys2Proof.Machine.execRolb s
  | .ror l => Sys2Proof.Machine.execRor l s
  | .rora => Sys2Proof.Machine.execRora s
  | .rorb => Sys2Proof.Machine.execRorb s
  | .tfr src dst => Sys2Proof.Machine.execTfr src dst s
  | .exg src dst => Sys2Proof.Machine.execExg src dst s
  | .pshs list => Sys2Proof.Machine.execPshs list s
  | .puls list => Sys2Proof.Machine.execPuls list s
  | .pshu list => Sys2Proof.Machine.execPshu list s
  | .pulu list => Sys2Proof.Machine.execPulu list s
  | .bra disp => Sys2Proof.Machine.execBra disp s
  | .brn disp => Sys2Proof.Machine.execBrn disp s
  | .bhi disp => Sys2Proof.Machine.execBhi disp s
  | .bls disp => Sys2Proof.Machine.execBls disp s
  | .bcc disp => Sys2Proof.Machine.execBcc disp s
  | .bcs disp => Sys2Proof.Machine.execBcs disp s
  | .bne disp => Sys2Proof.Machine.execBne disp s
  | .beq disp => Sys2Proof.Machine.execBeq disp s
  | .bvc disp => Sys2Proof.Machine.execBvc disp s
  | .bvs disp => Sys2Proof.Machine.execBvs disp s
  | .bpl disp => Sys2Proof.Machine.execBpl disp s
  | .bmi disp => Sys2Proof.Machine.execBmi disp s
  | .bge disp => Sys2Proof.Machine.execBge disp s
  | .blt disp => Sys2Proof.Machine.execBlt disp s
  | .bgt disp => Sys2Proof.Machine.execBgt disp s
  | .ble disp => Sys2Proof.Machine.execBle disp s
  | .lbra disp => Sys2Proof.Machine.execLbra disp s
  | .lbrn disp => Sys2Proof.Machine.execLbrn disp s
  | .lbhi disp => Sys2Proof.Machine.execLbhi disp s
  | .lbls disp => Sys2Proof.Machine.execLbls disp s
  | .lbcc disp => Sys2Proof.Machine.execLbcc disp s
  | .lbcs disp => Sys2Proof.Machine.execLbcs disp s
  | .lbne disp => Sys2Proof.Machine.execLbne disp s
  | .lbeq disp => Sys2Proof.Machine.execLbeq disp s
  | .lbvc disp => Sys2Proof.Machine.execLbvc disp s
  | .lbvs disp => Sys2Proof.Machine.execLbvs disp s
  | .lbpl disp => Sys2Proof.Machine.execLbpl disp s
  | .lbmi disp => Sys2Proof.Machine.execLbmi disp s
  | .lbge disp => Sys2Proof.Machine.execLbge disp s
  | .lblt disp => Sys2Proof.Machine.execLblt disp s
  | .lbgt disp => Sys2Proof.Machine.execLbgt disp s
  | .lble disp => Sys2Proof.Machine.execLble disp s
  | .bsr disp => Sys2Proof.Machine.execBsr disp s
  | .lbsr disp => Sys2Proof.Machine.execLbsr disp s
  | .jmp l => Sys2Proof.Machine.execJmp l s
  | .jsr l => Sys2Proof.Machine.execJsr l s
  | .rts => Sys2Proof.Machine.execRts s
  | .nop => Sys2Proof.Machine.execNop s
  | .swi => Sys2Proof.Machine.execSwi s
  | .swi2 => Sys2Proof.Machine.execSwi2 s
  | .swi3 => Sys2Proof.Machine.execSwi3 s
  | .rti => Sys2Proof.Machine.execRti s
  | .cwai mask => Sys2Proof.Machine.execCwai mask s
  | .sync => Sys2Proof.Machine.execSync s

end Sys2Proof.Machine
end

