-- ==== Sys2Proof/Machine/Step.lean ====
section
/-! DEFINITION. One step of the block (30_encoding.md R55): fetch and decode the bytes at PC, then run the
instruction. -/

namespace Sys2Proof.Machine

/-- One instruction: a next state or one fault (R10, R55). The instruction's meaning commits PC itself (R59). -/
def step (s : State) : Host.Outcome State Fault Refusal :=
  match decode s.fetchWindow with
  | .ok (i, _) => exec i s
  | .error r => .fault (rejectFault s.pc r)

/-- The state with the instruction of a word of spec/opcode_table.json placed at PC, zeros after it up to the longest
instruction. It stands for the host's `load` (R42; log entry 4). -/
def State.withFetchWord (s : State) (nbits w : Nat) : State :=
  s.placeBytes s.pc.toNat (tableBytes nbits w)

end Sys2Proof.Machine
end

