-- ==== Sys2Proof/Machine/Driver.lean ====
section
/-! DEFINITION. What the host does between runs (70_reset_and_hazards.md R260 to R266, 20_memory.md R42, R43). The
host's `read_byte`, `read_word`, `write_byte`, `write_word` are `State.memRead1`, `memRead2`, `memWrite1`, `memWrite2`
(R43); its register accessors are `State.get8`, `set8`, `get16`, `set16` (R263); construction is `State.reset` (R260). -/

namespace Sys2Proof.Machine

/-- `load(address, bytes)`: all of it or, when it would pass the top of memory, OutOfRange and nothing (R42). -/
def State.load (st : State) (address : Nat) (bytes : List Byte) : Option State :=
  if address + bytes.length ≤ Config.memSize then some (st.placeBytes address bytes) else none

/-- `reset()`: the registers as `State.reset` has them, the memory as it was (R261). PC, unspecified by the spec, takes
the value of log entry 1. -/
def State.hostReset (st : State) : State :=
  { State.reset with mem := st.mem, freeDraws := st.freeDraws }

/-- An access of the host to the memory between runs (R42, R43). -/
inductive HostAccess where
  | readByte (address : Nat)
  | writeByte (address : Nat) (v : Byte)
  | readWord (address : Nat)
  | writeWord (address : Nat) (v : Word)
  | load (address : Nat) (bytes : List Byte)
  deriving DecidableEq, Repr

/-- The state after a host access, `none` when it fails with OutOfRange: a read changes nothing, a write only memory
(R35, R36, R42, R43). -/
def State.hostAccess (st : State) : HostAccess → Option State
  | .readByte address => (st.memRead1 address).map fun _ => st
  | .writeByte address v => st.memWrite1 address v
  | .readWord address => (st.memRead2 address).map fun _ => st
  | .writeWord address v => st.memWrite2 address v
  | .load address bytes => st.load address bytes

/-! ## The run -/

/-- A stop condition of `run` (R265): a predicate over the state of the machine and over `σ`, whatever the host closes
over (a step counter, the readings of a clock), which it may change. It answers no state of the machine, so it cannot
change that. -/
abbrev StopCondition (σ : Type) := σ → State → Bool × σ

/-- The stop condition that closes over nothing. -/
def stopWhen (holds : State → Bool) : StopCondition Unit := fun host st => (holds st, host)

/-- The minimal stop condition: PC equals a target end address (R265). -/
def stopAt (target : Word) : StopCondition Unit := stopWhen fun st => st.pc == target

/-- A breakpoint set (R258). -/
def stopAtAny (breakpoints : List Word) : StopCondition Unit := stopWhen fun st => breakpoints.contains st.pc

/-- A bound on the number of steps (R255, R258, R265): the host counts the completed steps. -/
def stopAfter (bound : Nat) : StopCondition Nat := fun count _ => (decide (bound ≤ count + 1), count + 1)

/-- How a run ends (R265, R266): the stop condition held; a fault, with the state before the faulting step; or, the
model's own ends, a refusal or fuel used up before either (log entry 8). -/
inductive RunEnd where
  | stopped (st : State)
  | faulted (f : Fault) (st : State)
  | refused (r : Refusal) (st : State)
  | running (st : State)
  deriving DecidableEq, Repr

/-- The loop of `run`: the stop condition is evaluated after every completed instruction and never before the first
(R265, decision D10). `fuel` bounds the number of steps (U13; log entry 8). -/
def runLoop {σ : Type} (stop : StopCondition σ) : Nat → σ → State → RunEnd
  | 0, _, st => .running st
  | fuel + 1, host, st =>
    match step st with
    | .next st' => if (stop host st').1 then .stopped st' else runLoop stop fuel (stop host st').2 st'
    | .fault f => .faulted f st
    | .refused r => .refused r st

/-- `run(start, stop)` (R265), `host` being what the stop condition closes over as the run begins. -/
def State.run {σ : Type} (st : State) (fuel : Nat) (start : Word) (stop : StopCondition σ) (host : σ) : RunEnd :=
  runLoop stop fuel host (st.withPc start)

end Sys2Proof.Machine
end

