-- ==== Sys2Proof/Machine/Trace.lean ====
section
/-! DEFINITION. What the trace observer sees of a step, of a run and of a host access: the bus accesses in the order the
rules perform them (20_memory.md R44, R50; decision D14). It is no part of the state and no rule depends on it (R31,
R44). -/

namespace Sys2Proof.Machine

/-- One byte access on the bus: a word access is two of them, the lower address first (R35, R36, D14). -/
inductive BusEvent where
  | read  (addr : Word) (v : Byte)
  | write (addr : Word) (v : Byte)
  deriving DecidableEq, Repr

/-- How an instruction uses the bus after its own bytes are fetched. -/
inductive DataUse where
  /-- Not at all. -/
  | nothing
  /-- `operand8` is read (R75). -/
  | operand8 (o : Src8)
  /-- `operand16` is read (R75). -/
  | operand16 (o : Src16)
  /-- The byte at EA is read (R153). -/
  | readByte (l : Loc)
  /-- The byte at EA is written and not read (R103, R150, decision D21). -/
  | writeByte (l : Loc)
  /-- The word at EA is written and not read (R110). -/
  | writeWord (l : Loc)
  /-- The byte at EA is read once and written once (R41). -/
  | modify (l : Loc)
  /-- Only the address is used (R75). -/
  | address (l : Loc)
  /-- PC is pushed on S (R230). -/
  | call
  /-- The address is resolved, then PC is pushed on S (R233). -/
  | callAt (l : Loc)
  /-- A register list is pushed (R192). -/
  | push (p : Reg16) (list : Byte)
  /-- A register list is pulled (R192). -/
  | pull (p : Reg16) (list : Byte)
  /-- The whole register set is pushed on S, then the vector is read (R251). -/
  | interrupt (vector : Word)
  /-- CC is pulled from S, then what its E flag calls for (R239). -/
  | leave
  deriving DecidableEq, Repr

/-- The bus use of each instruction. -/
def dataUse : Instr → DataUse
  | .lda o => .operand8 o
  | .ldb o => .operand8 o
  | .sta l => .writeByte l
  | .stb l => .writeByte l
  | .ldd o => .operand16 o
  | .ldx o => .operand16 o
  | .ldy o => .operand16 o
  | .ldu o => .operand16 o
  | .lds o => .operand16 o
  | .std l => .writeWord l
  | .stx l => .writeWord l
  | .sty l => .writeWord l
  | .stu l => .writeWord l
  | .sts l => .writeWord l
  | .leax x => .address (.idx x)
  | .leay x => .address (.idx x)
  | .leas x => .address (.idx x)
  | .leau x => .address (.idx x)
  | .adda o => .operand8 o
  | .addb o => .operand8 o
  | .adca o => .operand8 o
  | .adcb o => .operand8 o
  | .suba o => .operand8 o
  | .subb o => .operand8 o
  | .sbca o => .operand8 o
  | .sbcb o => .operand8 o
  | .cmpa o => .operand8 o
  | .cmpb o => .operand8 o
  | .addd o => .operand16 o
  | .subd o => .operand16 o
  | .cmpd o => .operand16 o
  | .cmpx o => .operand16 o
  | .cmpy o => .operand16 o
  | .cmpu o => .operand16 o
  | .cmps o => .operand16 o
  | .neg l => .modify l
  | .nega => .nothing
  | .negb => .nothing
  | .inc l => .modify l
  | .inca => .nothing
  | .incb => .nothing
  | .dec l => .modify l
  | .deca => .nothing
  | .decb => .nothing
  | .clr l => .writeByte l
  | .clra => .nothing
  | .clrb => .nothing
  | .tst l => .readByte l
  | .tsta => .nothing
  | .tstb => .nothing
  | .daa => .nothing
  | .mul => .nothing
  | .sex => .nothing
  | .abx => .nothing
  | .anda o => .operand8 o
  | .andb o => .operand8 o
  | .ora o => .operand8 o
  | .orb o => .operand8 o
  | .eora o => .operand8 o
  | .eorb o => .operand8 o
  | .bita o => .operand8 o
  | .bitb o => .operand8 o
  | .com l => .modify l
  | .coma => .nothing
  | .comb => .nothing
  | .andcc _ => .nothing
  | .orcc _ => .nothing
  | .lsr l => .modify l
  | .lsra => .nothing
  | .lsrb => .nothing
  | .asr l => .modify l
  | .asra => .nothing
  | .asrb => .nothing
  | .asl l => .modify l
  | .asla => .nothing
  | .aslb => .nothing
  | .rol l => .modify l
  | .rola => .nothing
  | .rolb => .nothing
  | .ror l => .modify l
  | .rora => .nothing
  | .rorb => .nothing
  | .tfr _ _ => .nothing
  | .exg _ _ => .nothing
  | .pshs list => .push .s list
  | .puls list => .pull .s list
  | .pshu list => .push .u list
  | .pulu list => .pull .u list
  | .bra _ => .nothing
  | .brn _ => .nothing
  | .bhi _ => .nothing
  | .bls _ => .nothing
  | .bcc _ => .nothing
  | .bcs _ => .nothing
  | .bne _ => .nothing
  | .beq _ => .nothing
  | .bvc _ => .nothing
  | .bvs _ => .nothing
  | .bpl _ => .nothing
  | .bmi _ => .nothing
  | .bge _ => .nothing
  | .blt _ => .nothing
  | .bgt _ => .nothing
  | .ble _ => .nothing
  | .lbra _ => .nothing
  | .lbrn _ => .nothing
  | .lbhi _ => .nothing
  | .lbls _ => .nothing
  | .lbcc _ => .nothing
  | .lbcs _ => .nothing
  | .lbne _ => .nothing
  | .lbeq _ => .nothing
  | .lbvc _ => .nothing
  | .lbvs _ => .nothing
  | .lbpl _ => .nothing
  | .lbmi _ => .nothing
  | .lbge _ => .nothing
  | .lblt _ => .nothing
  | .lbgt _ => .nothing
  | .lble _ => .nothing
  | .bsr _ => .call
  | .lbsr _ => .call
  | .jmp l => .address l
  | .jsr l => .callAt l
  | .rts => .pull .s 0x80
  | .nop => .nothing
  | .swi => .interrupt Config.vectorSwi
  | .swi2 => .interrupt Config.vectorSwi2
  | .swi3 => .interrupt Config.vectorSwi3
  | .rti => .leave
  | .cwai _ => .nothing
  | .sync => .nothing

/-- How many bytes a register list moves (R192). -/
def listBytes (list : Byte) : Nat :=
  2 * ((list.getLsbD 7).toNat + (list.getLsbD 6).toNat + (list.getLsbD 5).toNat + (list.getLsbD 4).toNat) +
    ((list.getLsbD 3).toNat + (list.getLsbD 2).toNat + (list.getLsbD 1).toNat + (list.getLsbD 0).toNat)

/-- The addresses `count` pushed bytes go to, in order: down from the stack pointer (R45). -/
def pushAddresses (sp : Word) (count : Nat) : List Word :=
  (List.range count).map fun k => sp - 1 - BitVec.ofNat 16 k

/-- The addresses `count` pulled bytes come from, in order: up from the stack pointer (R47). -/
def pullAddresses (sp : Word) (count : Nat) : List Word :=
  (List.range count).map fun k => sp + BitVec.ofNat 16 k

/-- The two addresses of a word, when both exist (R35). -/
def wordAddresses (addr : Word) : List Word :=
  if addr.toNat + 1 < Config.memSize then [addr, addr + 1] else []

/-- The addresses of the pointer word an indirect operand reads (R95). -/
def pointerAddresses (i : Instr) (l : Loc) (st : State) : List Word :=
  match l with
  | .dir _ => []
  | .ext _ => []
  | .idx x => if x.wf && isIndirect x then wordAddresses (indexedAddress x (st.pcNext i) st) else []

/-- The effective address as a list: empty when the operand does not resolve. -/
def eaList (i : Instr) (l : Loc) (st : State) : List Word :=
  match effectiveAddress i l st with
  | .ok ea => [ea]
  | .error _ => []

/-- The data addresses an instruction reads before it writes, in order. -/
def readAddresses (i : Instr) (st : State) : List Word :=
  match dataUse i with
  | .nothing => []
  | .operand8 (.imm _) => []
  | .operand8 (.mem l) => pointerAddresses i l st ++ eaList i l st
  | .operand16 (.imm _) => []
  | .operand16 (.mem l) => pointerAddresses i l st ++ (eaList i l st).flatMap wordAddresses
  | .readByte l => pointerAddresses i l st ++ eaList i l st
  | .writeByte l => pointerAddresses i l st
  | .writeWord l => pointerAddresses i l st
  | .modify l => pointerAddresses i l st ++ eaList i l st
  | .address l => pointerAddresses i l st
  | .call => []
  | .callAt l => pointerAddresses i l st
  | .push _ _ => []
  | .pull p list => pullAddresses (st.get16 p) (listBytes list)
  | .interrupt _ => []
  | .leave => pullAddresses st.s (if getFlag .e (st.readByte st.s) then 12 else 3)

/-- The addresses an instruction writes, in order. -/
def writeAddresses (i : Instr) (st : State) : List Word :=
  match dataUse i with
  | .nothing => []
  | .operand8 _ => []
  | .operand16 _ => []
  | .readByte _ => []
  | .writeByte l => eaList i l st
  | .writeWord l => (eaList i l st).flatMap wordAddresses
  | .modify l => eaList i l st
  | .address _ => []
  | .call => pushAddresses st.s 2
  | .callAt l => (eaList i l st).flatMap fun _ => pushAddresses (st.entered i l).s 2
  | .push p list => pushAddresses (st.get16 p) (listBytes list)
  | .pull _ _ => []
  | .interrupt _ => pushAddresses st.s 12
  | .leave => []

/-- The addresses an instruction reads after it wrote: the vector word (R236 to R238). -/
def lateReadAddresses (i : Instr) : List Word :=
  match dataUse i with
  | .interrupt vector => wordAddresses vector
  | .nothing => []
  | .operand8 _ => []
  | .operand16 _ => []
  | .readByte _ => []
  | .writeByte _ => []
  | .writeWord _ => []
  | .modify _ => []
  | .address _ => []
  | .call => []
  | .callAt _ => []
  | .push _ _ => []
  | .pull _ _ => []
  | .leave => []

/-- The data accesses of an instruction, in order: reads of the memory before it, writes, reads of the memory after
them. An instruction that faults writes nothing. -/
def dataEvents (i : Instr) (st : State) : List BusEvent :=
  let reads := (readAddresses i st).map fun a => BusEvent.read a (st.readByte a)
  match exec i st with
  | .next st' =>
    reads ++ (writeAddresses i st).map (fun a => BusEvent.write a (st'.readByte a)) ++
      (lateReadAddresses i).map fun a => BusEvent.read a (st'.readByte a)
  | .fault _ => reads
  | .refused _ => reads

/-- How many bytes the cycle fetches of an instruction: all of them, and of CWAI only the opcode (R55, D22). -/
def fetchedLength (i : Instr) : Nat :=
  match i with
  | .cwai _ => 1
  | _ => i.length

/-- How many bytes the cycle fetched before it found that they do not decode (R247). -/
def rejectedLength : Reject → Nat
  | .noBytes => 0
  | .undefinedOpcode opcode => (opcodeBytes opcode).length
  | .unimplementedOpcode opcode => (opcodeBytes opcode).length
  | .invalidPostbyte opcode _ => (opcodeBytes opcode).length + 1
  | .missingByte _ offset => offset

/-- The fetches of `count` instruction bytes, in ascending address order (R50, R56). -/
def fetchEvents (st : State) (count : Nat) : List BusEvent :=
  (List.range count).map fun k => BusEvent.read (st.pc + BitVec.ofNat 16 k) (st.readByte (st.pc + BitVec.ofNat 16 k))

/-- What the trace observer is told of one step (R44). -/
def busTrace (st : State) : List BusEvent :=
  match decode st.fetchWindow with
  | .ok (i, _) => fetchEvents st (fetchedLength i) ++ dataEvents i st
  | .error r => fetchEvents st (rejectedLength r)

/-- What the trace observer is told of the steps of a run, in order, the faulting step with them (R44, R265). -/
def runLoopTrace {σ : Type} (stop : StopCondition σ) : Nat → σ → State → List BusEvent
  | 0, _, _ => []
  | fuel + 1, host, st =>
    busTrace st ++
      match step st with
      | .next st' => if (stop host st').1 then [] else runLoopTrace stop fuel (stop host st').2 st'
      | .fault _ => []
      | .refused _ => []

/-- What the trace observer is told of `run(start, stop)` (R44, R265). -/
def State.runTrace {σ : Type} (st : State) (fuel : Nat) (start : Word) (stop : StopCondition σ) (host : σ) :
    List BusEvent :=
  runLoopTrace stop fuel host (st.withPc start)

/-- What the trace observer is told of a host access (R43, R44): of a byte one access, of a word two, the lower address
first (R35, D14), and nothing when it fails with OutOfRange. `load` is no `MemRead` or `MemWrite` (R42), so the observer
is told nothing of it; DEDUCED (log entry 11). -/
def hostTrace (st : State) : HostAccess → List BusEvent
  | .readByte address =>
    match st.memRead1 address with
    | some v => [.read (BitVec.ofNat 16 address) v]
    | none => []
  | .writeByte address v =>
    match st.memWrite1 address v with
    | some _ => [.write (BitVec.ofNat 16 address) v]
    | none => []
  | .readWord address =>
    match st.memRead2 address with
    | some v => [.read (BitVec.ofNat 16 address) (hiByte v), .read (BitVec.ofNat 16 (address + 1)) (loByte v)]
    | none => []
  | .writeWord address v =>
    match st.memWrite2 address v with
    | some _ => [.write (BitVec.ofNat 16 address) (hiByte v), .write (BitVec.ofNat 16 (address + 1)) (loByte v)]
    | none => []
  | .load _ _ => []

/-- What reaches the listener: everything when the configuration given at construction attaches one, else nothing
(R44, R260). -/
def heard (attached : Bool) (events : List BusEvent) : List BusEvent := if attached then events else []

end Sys2Proof.Machine
end

