-- ==== Sys2Proof/Safety.lean ====
section
/-! DEFINITION. The terms the claims use: CC written out flag by flag, the results of the ALU written over the integers,
what it is for an instruction to complete with an effect, the invariant of the memory and what a safe run is. -/

namespace Sys2Proof.Machine

/-! ## CC flag by flag -/

/-- CC from its eight flags in the order E F H I N Z V C, bit 7 first (R19). -/
def packCc (e f h i n z v c : Bool) : Byte :=
  BitVec.ofNat 8 (128 * e.toNat + 64 * f.toNat + 32 * h.toNat + 16 * i.toNat + 8 * n.toNat + 4 * z.toNat +
    2 * v.toNat + c.toNat)

/-- CC with N, Z and V as given and the five other flags as `s` has them. -/
def ccNZV (s : State) (n z v : Bool) : Byte :=
  packCc (s.flag .e) (s.flag .f) (s.flag .h) (s.flag .i) n z v (s.flag .c)

/-- CC with N, Z, V and C as given and the four other flags as `s` has them. -/
def ccNZVC (s : State) (n z v c : Bool) : Byte :=
  packCc (s.flag .e) (s.flag .f) (s.flag .h) (s.flag .i) n z v c

/-- CC with H, N, Z, V and C as given and E, F and I as `s` has them. -/
def ccHNZVC (s : State) (h n z v c : Bool) : Byte :=
  packCc (s.flag .e) (s.flag .f) h (s.flag .i) n z v c

/-- CC with N, Z and C as given and the five other flags as `s` has them. -/
def ccNZC (s : State) (n z c : Bool) : Byte :=
  packCc (s.flag .e) (s.flag .f) (s.flag .h) (s.flag .i) n z (s.flag .v) c

/-- The value the next undefined flag takes (R27; log entry 2). -/
def nextFree (s : State) : Bool := Config.freeFlag s.freeDraws

/-! ## The ALU over the integers -/

/-- Whether an integer lies outside the signed bytes. -/
def overflows8 (k : Int) : Bool := decide (k < -128 ∨ 127 < k)

/-- Whether an integer lies outside the signed words. -/
def overflows16 (k : Int) : Bool := decide (k < -32768 ∨ 32767 < k)

/-- The byte of a sum of two bytes and a carry. -/
def sumByte (a m : Byte) (carry : Bool) : Byte := BitVec.ofNat 8 (a.toNat + m.toNat + carry.toNat)

/-- CC after an 8-bit addition: H the carry out of bit 3, V the signed overflow, C the carry out of bit 7 (R120). -/
def ccAfterSum (s : State) (a m : Byte) (carry : Bool) : Byte :=
  ccHNZVC s (decide (15 < a.toNat % 16 + m.toNat % 16 + carry.toNat)) (sumByte a m carry).msb (sumByte a m carry == 0)
    (overflows8 (a.toInt + m.toInt + carry.toNat)) (decide (255 < a.toNat + m.toNat + carry.toNat))

/-- The byte of a difference of two bytes and a borrow. -/
def diffByte (a m : Byte) (borrow : Bool) : Byte := BitVec.ofInt 8 (a.toInt - m.toInt - borrow.toNat)

/-- CC after an 8-bit subtraction: H is the free value, V the signed overflow, C the unsigned borrow (R121, R27). -/
def ccAfterDiff (s : State) (a m : Byte) (borrow : Bool) : Byte :=
  ccHNZVC s (nextFree s) (diffByte a m borrow).msb (diffByte a m borrow == 0)
    (overflows8 (a.toInt - m.toInt - borrow.toNat)) (decide (a.toNat < m.toNat + borrow.toNat))

/-- CC after a 16-bit addition; H is kept (R122). -/
def ccAfterSum16 (s : State) (a m : Word) : Byte :=
  ccNZVC s (a + m).msb (a + m == 0) (overflows16 (a.toInt + m.toInt)) (decide (65535 < a.toNat + m.toNat))

/-- CC after a 16-bit subtraction; H is kept (R123). -/
def ccAfterDiff16 (s : State) (a m : Word) : Byte :=
  ccNZVC s (a - m).msb (a - m == 0) (overflows16 (a.toInt - m.toInt)) (decide (a.toNat < m.toNat))

/-! ## Completing with an effect

`effect` gives the registers after the instruction from the operand and `s`, the state after the addressing mode: PC
committed and the side effect of the indexed form applied. Where the operand does not resolve, the instruction ends in
that fault and in no other. -/

/-- The instruction completes with the effect whenever `operand8` is readable. -/
def CompletesOn8 (make : Src8 → Instr) (effect : Byte → State → State) : Prop :=
  ∀ o st,
    (∀ v s, operand8 (make o) o st = .ok (v, s) → exec (make o) st = .next (effect v s)) ∧
    (∀ f, operand8 (make o) o st = .error f → exec (make o) st = .fault f)

/-- The instruction completes with the effect whenever `operand16` is readable. -/
def CompletesOn16 (make : Src16 → Instr) (effect : Word → State → State) : Prop :=
  ∀ o st,
    (∀ v s, operand16 (make o) o st = .ok (v, s) → exec (make o) st = .next (effect v s)) ∧
    (∀ f, operand16 (make o) o st = .error f → exec (make o) st = .fault f)

/-- The instruction completes with the effect, a function of the effective address, whenever that resolves. -/
def CompletesAt (make : Loc → Instr) (effect : Word → State → State) : Prop :=
  ∀ l st,
    (∀ ea s, locate (make l) l st = .ok (ea, s) → exec (make l) st = .next (effect ea s)) ∧
    (∀ f, locate (make l) l st = .error f → exec (make l) st = .fault f)

/-- `CompletesAt` for an instruction that has the indexed mode only. -/
def CompletesAtIndexed (make : Indexed → Instr) (effect : Word → State → State) : Prop :=
  ∀ x st,
    (∀ ea s, locate (make x) (.idx x) st = .ok (ea, s) → exec (make x) st = .next (effect ea s)) ∧
    (∀ f, locate (make x) (.idx x) st = .error f → exec (make x) st = .fault f)

/-- The instruction stores one byte, `value`, at the effective address and completes with the effect on the registers,
both functions of the byte `m` that was there; every other byte of memory is as it was. -/
def CompletesStoring8 (make : Loc → Instr) (value : Byte → State → Byte) (effect : Byte → State → State) : Prop :=
  ∀ l st,
    (∀ ea s, locate (make l) l st = .ok (ea, s) →
      ∃ mem, exec (make l) st = .next { effect (st.readByte ea) s with mem := mem } ∧
        ∀ addr, Memory.read mem addr =
          if addr = ea.toNat then value (st.readByte ea) s else Memory.read st.mem addr) ∧
    (∀ f, locate (make l) l st = .error f → exec (make l) st = .fault f)

/-- The instruction stores the word `value` at the effective address, high byte first, and completes with the effect on
the registers; every other byte is as it was. At the effective address 0xFFFF it ends in OutOfRange. -/
def CompletesStoring16 (make : Loc → Instr) (value : State → Word) (effect : State → State) : Prop :=
  ∀ l st,
    (∀ ea s, locate (make l) l st = .ok (ea, s) → ea ≠ 0xFFFF →
      ∃ mem, exec (make l) st = .next { effect s with mem := mem } ∧
        ∀ addr, Memory.read mem addr =
          if addr = ea.toNat then hiByte (value s)
          else if addr = ea.toNat + 1 then loByte (value s)
          else Memory.read st.mem addr) ∧
    (∀ s, locate (make l) l st = .ok (0xFFFF, s) →
      exec (make l) st = .fault (.outOfRange st.pc (make l).opcode 0xFFFF)) ∧
    (∀ f, locate (make l) l st = .error f → exec (make l) st = .fault f)

/-- The instruction has no operand in memory and completes in every state; `s` is the state with PC committed. -/
def Completes (i : Instr) (effect : State → State) : Prop :=
  ∀ st : State, exec i st = .next (effect { st with pc := st.pc + BitVec.ofNat 16 i.length })

/-- The three forms of an instruction on a byte: in memory, in A and in B; one result and one effect on the registers,
both functions of the byte and of `s`. -/
def CompletesOnByte (onMemory : Loc → Instr) (onA onB : Instr) (result : Byte → State → Byte)
    (effect : Byte → State → State) : Prop :=
  CompletesStoring8 onMemory result effect ∧
  Completes onA (fun s => { effect s.a s with a := result s.a s }) ∧
  Completes onB (fun s => { effect s.b s with b := result s.b s })

/-- The branch completes in every state: PC becomes `PCnext` plus the displacement when the condition holds and
`PCnext` when it does not; nothing else changes. -/
def BranchesWhen (i : Instr) (disp : Int) (taken : State → Bool) : Prop :=
  ∀ st : State, exec i st = .next { st with
    pc := BitVec.ofInt 16 (st.pc.toNat + i.length + if taken st then disp else 0) }

/-- In the state `t` the branch completes: PC becomes `PCnext` plus the displacement when `taken` and `PCnext` when
not. -/
def BranchTaken (i : Instr) (t : State) (disp : Int) (taken : Bool) : Prop :=
  exec i t = .next { t with pc := BitVec.ofInt 16 (t.pc.toNat + i.length + if taken then disp else 0) }

/-- In the state `t` the short and the long form of a branch complete and go to `PCnext` plus the displacement when
`taken`, to `PCnext` when not. -/
def BothTaken (short : Byte → Instr) (long : Word → Instr) (t : State) (taken : Bool) : Prop :=
  (∀ disp, BranchTaken (short disp) t disp.toInt taken) ∧ ∀ disp, BranchTaken (long disp) t disp.toInt taken

/-- In the state `t` every conditional branch tells how `r` and `m` compare: the last column of the table of R197. -/
def BranchesTellOrder {w : Nat} (t : State) (r m : BitVec w) : Prop :=
  BothTaken .bhi .lbhi t (decide (m.toNat < r.toNat)) ∧ BothTaken .bls .lbls t (decide (r.toNat ≤ m.toNat)) ∧
  BothTaken .bcc .lbcc t (decide (m.toNat ≤ r.toNat)) ∧ BothTaken .bcs .lbcs t (decide (r.toNat < m.toNat)) ∧
  BothTaken .bne .lbne t (decide (r ≠ m)) ∧ BothTaken .beq .lbeq t (decide (r = m)) ∧
  BothTaken .bvc .lbvc t (decide ((r - m).toInt = r.toInt - m.toInt)) ∧
  BothTaken .bvs .lbvs t (decide ((r - m).toInt ≠ r.toInt - m.toInt)) ∧
  BothTaken .bpl .lbpl t (decide (0 ≤ (r - m).toInt)) ∧ BothTaken .bmi .lbmi t (decide ((r - m).toInt < 0)) ∧
  BothTaken .bge .lbge t (decide (m.toInt ≤ r.toInt)) ∧ BothTaken .blt .lblt t (decide (r.toInt < m.toInt)) ∧
  BothTaken .bgt .lbgt t (decide (m.toInt < r.toInt)) ∧ BothTaken .ble .lble t (decide (r.toInt ≤ m.toInt))

/-- After the instruction on a byte the branches tell how the register compares with it. -/
def OrdersBranches8 (make : Src8 → Instr) (register : State → Byte) : Prop :=
  ∀ o st m s, operand8 (make o) o st = .ok (m, s) →
    ∃ t, exec (make o) st = .next t ∧ BranchesTellOrder t (register s) m

/-- After the instruction on a word the branches tell how the register compares with it. -/
def OrdersBranches16 (make : Src16 → Instr) (register : State → Word) : Prop :=
  ∀ o st m s, operand16 (make o) o st = .ok (m, s) →
    ∃ t, exec (make o) st = .next t ∧ BranchesTellOrder t (register s) m

/-! ## Forms with a side effect -/

/-- The auto-increment and auto-decrement forms: the base register, how far from its value the address lies, and what
is added to it (R85 to R88). -/
inductive AutoForm : Indexed → IndexReg → Int → Int → Prop where
  | postInc1 (r : IndexReg) (indirect : Bool) : AutoForm (.postInc1 r indirect) r 0 1
  | postInc2 (r : IndexReg) (indirect : Bool) : AutoForm (.postInc2 r indirect) r 0 2
  | preDec1 (r : IndexReg) (indirect : Bool) : AutoForm (.preDec1 r indirect) r (-1) (-1)
  | preDec2 (r : IndexReg) (indirect : Bool) : AutoForm (.preDec2 r indirect) r (-2) (-2)

/-- The store of a base register. -/
def storeOf : IndexReg → Loc → Instr
  | .x => .stx
  | .y => .sty
  | .u => .stu
  | .s => .sts

/-- The load of a base register. -/
def loadOf : IndexReg → Src16 → Instr
  | .x => .ldx
  | .y => .ldy
  | .u => .ldu
  | .s => .lds

/-- The load of an effective address into a base register. -/
def leaOf : IndexReg → Indexed → Instr
  | .x => .leax
  | .y => .leay
  | .u => .leau
  | .s => .leas

/-! ## Stack frames -/

/-- The bytes a push of the list leaves from the new stack pointer upward: CC, A, B, DP, X, Y, the other stack pointer,
PC, the selected ones only, words high byte first (R192). -/
def stackImage (s : State) (other : Word) (list : Byte) : List Byte :=
  (if list.getLsbD 0 then [s.cc] else []) ++ (if list.getLsbD 1 then [s.a] else []) ++
  (if list.getLsbD 2 then [s.b] else []) ++ (if list.getLsbD 3 then [s.dp] else []) ++
  (if list.getLsbD 4 then [hiByte s.x, loByte s.x] else []) ++ (if list.getLsbD 5 then [hiByte s.y, loByte s.y] else []) ++
  (if list.getLsbD 6 then [hiByte other, loByte other] else []) ++
  (if list.getLsbD 7 then [hiByte s.pc, loByte s.pc] else [])

/-- The bytes lie in `mem` from the address `sp` upward, modulo 65536, and every other byte is as `old` has it. -/
def StoredFrom (mem old : List Host.Cell) (sp : Word) (bytes : List Byte) : Prop :=
  (∀ k (h : k < bytes.length), Memory.read mem (sp + BitVec.ofNat 16 k).toNat = bytes[k]) ∧
  (∀ a : Word, (∀ k < bytes.length, a ≠ sp + BitVec.ofNat 16 k) → Memory.read mem a.toNat = Memory.read old a.toNat)

/-- The frame of a software interrupt, from the new S upward: CC with E = 1, A, B, DP, X, Y, U, and the return address
(R236, R192). -/
def interruptFrame (st : State) (ret : Word) : List Byte :=
  [packCc true (st.flag .f) (st.flag .h) (st.flag .i) (st.flag .n) (st.flag .z) (st.flag .v) (st.flag .c),
    st.a, st.b, st.dp, hiByte st.x, loByte st.x, hiByte st.y, loByte st.y, hiByte st.u, loByte st.u,
    hiByte ret, loByte ret]

/-- The word pulled from an address: high byte there, low byte after it, modulo 65536 (R48). -/
def stackWord (s : State) (addr : Word) : Word := mkWord (s.readByte addr) (s.readByte (addr + 1))

/-- How many bytes of a list lie below the registers of a list bit: what the bits under it move (R192). -/
def stackOffset (list : Byte) (bit : Nat) : Word :=
  BitVec.ofNat 16 (listBytes (list &&& BitVec.ofNat 8 (2 ^ bit - 1)))

/-! ## Encodings -/

/-- How many operand bytes follow the opcode bytes, by mode tag; of an indexed operand the postbyte tells (R61, R72). -/
def operandByteCount : Operand → Nat
  | .inh => 0
  | .imm8 _ => 1
  | .imm16 _ => 2
  | .dir _ => 1
  | .ext _ => 2
  | .rel8 _ => 1
  | .rel16 _ => 2
  | .idx x =>
    if x.postbyte.toNat < 0x80 then 1
    else if x.postbyte.toNat % 16 = 0x8 ∨ x.postbyte.toNat % 16 = 0xC then 2
    else if x.postbyte.toNat % 16 = 0x9 ∨ x.postbyte.toNat % 16 = 0xD ∨ x.postbyte.toNat % 16 = 0xF then 3
    else 1
  | .reg _ _ => 1
  | .stk _ => 1

/-- Whether the last two bytes of the operand are fetched by one `Fetch16` (R56, R78, R80, R82, R92 to R94). -/
def endsInWord : Operand → Bool
  | .imm16 _ => true
  | .ext _ => true
  | .rel16 _ => true
  | .idx x => x.extraBytes.length == 2
  | .inh => false
  | .imm8 _ => false
  | .dir _ => false
  | .rel8 _ => false
  | .reg _ _ => false
  | .stk _ => false

/-- The bytes of an instruction lie at PC and all of them below 0x10000. -/
def StoredAtPc (i : Instr) (st : State) : Prop :=
  st.pc.toNat + i.length ≤ Config.memSize ∧
    ∀ k (h : k < (encode i).length), Memory.read st.mem (st.pc.toNat + k) = (encode i)[k]

/-- The 33 illegal bytes of page 1 (R69). -/
def illegalPage1 : List Byte :=
  [0x01, 0x02, 0x05, 0x0B, 0x14, 0x15, 0x18, 0x1B, 0x38, 0x3E, 0x41] ++
  [0x42, 0x45, 0x4B, 0x4E, 0x51, 0x52, 0x55, 0x5B, 0x5E, 0x61, 0x62] ++
  [0x65, 0x6B, 0x71, 0x72, 0x75, 0x7B, 0x87, 0x8F, 0xC7, 0xCD, 0xCF]

/-- The 38 second bytes defined on page 2 (R66). -/
def definedPage2 : List Byte :=
  [0x21, 0x22, 0x23, 0x24, 0x25, 0x26, 0x27, 0x28, 0x29, 0x2A, 0x2B, 0x2C, 0x2D, 0x2E, 0x2F, 0x3F, 0x83, 0x8C, 0x8E] ++
  [0x93, 0x9C, 0x9E, 0x9F, 0xA3, 0xAC, 0xAE, 0xAF, 0xB3, 0xBC, 0xBE, 0xBF, 0xCE, 0xDE, 0xDF, 0xEE, 0xEF, 0xFE, 0xFF]

/-- The 9 second bytes defined on page 3 (R67). -/
def definedPage3 : List Byte :=
  [0x3F, 0x83, 0x8C, 0x93, 0x9C, 0xA3, 0xAC, 0xB3, 0xBC]

/-- The 39 invalid indexed postbytes (R96). -/
def invalidPostbytes : List Byte :=
  [0x87, 0x8A, 0x8E, 0x97, 0x9A, 0x9E, 0xA7, 0xAA, 0xAE, 0xB7, 0xBA, 0xBE] ++
  [0xC7, 0xCA, 0xCE, 0xD7, 0xDA, 0xDE, 0xE7, 0xEA, 0xEE, 0xF7, 0xFA, 0xFE] ++
  [0x90, 0x92, 0xB0, 0xB2, 0xD0, 0xD2, 0xF0, 0xF2, 0x8F, 0xAF, 0xBF, 0xCF, 0xDF, 0xEF, 0xFF]

/-- The page 1 opcodes with an indexed form (R65): the LEA row, columns 6x, Ax and Ex. -/
def indexedPage1 : List Byte :=
  [0x30, 0x31, 0x32, 0x33, 0x60, 0x63, 0x64, 0x66, 0x67, 0x68, 0x69, 0x6A, 0x6C, 0x6D, 0x6E, 0x6F] ++
  [0xA0, 0xA1, 0xA2, 0xA3, 0xA4, 0xA5, 0xA6, 0xA7, 0xA8, 0xA9, 0xAA, 0xAB, 0xAC, 0xAD, 0xAE, 0xAF] ++
  [0xE0, 0xE1, 0xE2, 0xE3, 0xE4, 0xE5, 0xE6, 0xE7, 0xE8, 0xE9, 0xEA, 0xEB, 0xEC, 0xED, 0xEE, 0xEF]

/-- The page 2 second bytes with an indexed form (R66). -/
def indexedPage2 : List Byte := [0xA3, 0xAC, 0xAE, 0xAF, 0xEE, 0xEF]

/-- The page 3 second bytes with an indexed form (R67). -/
def indexedPage3 : List Byte := [0xA3, 0xAC]

/-! ## Register codes -/

/-- The TFR and EXG code of an 8-bit register (R188). -/
def code8 : Reg8 → BitVec 4
  | .a => 0x8
  | .b => 0x9
  | .cc => 0xA
  | .dp => 0xB

/-- The TFR and EXG code of a 16-bit register (R188). -/
def code16 : Reg16 → BitVec 4
  | .d => 0x0
  | .x => 0x1
  | .y => 0x2
  | .u => 0x3
  | .s => 0x4
  | .pc => 0x5

/-- The two codes name registers of one width (R189). -/
def ValidPair (src dst : BitVec 4) : Prop :=
  (∃ r q, src = code8 r ∧ dst = code8 q) ∨ ∃ r q, src = code16 r ∧ dst = code16 q

/-! ## Faults -/

/-- The memory operand of an instruction, if it has one. -/
def memoryOperand (i : Instr) : Option Loc :=
  match dataUse i with
  | .operand8 (.mem l) => some l
  | .operand16 (.mem l) => some l
  | .readByte l => some l
  | .writeByte l => some l
  | .writeWord l => some l
  | .modify l => some l
  | .address l => some l
  | .callAt l => some l
  | .operand8 (.imm _) => none
  | .operand16 (.imm _) => none
  | .nothing => none
  | .call => none
  | .push _ _ => none
  | .pull _ _ => none
  | .interrupt _ => none
  | .leave => none

/-- Whether the memory operand of an instruction is a word. -/
def wordOperand (i : Instr) : Bool :=
  match dataUse i with
  | .operand16 (.mem _) => true
  | .writeWord _ => true
  | .operand16 (.imm _) => false
  | .operand8 _ => false
  | .readByte _ => false
  | .writeByte _ => false
  | .modify _ => false
  | .address _ => false
  | .callAt _ => false
  | .nothing => false
  | .call => false
  | .push _ _ => false
  | .pull _ _ => false
  | .interrupt _ => false
  | .leave => false

/-- The instruction has an indirect operand whose pointer would be read at 0xFFFF (R95, R39). -/
def PointerAtTop (i : Instr) (st : State) : Prop :=
  ∃ x, memoryOperand i = some (.idx x) ∧ isIndirect x = true ∧ indexedAddress x (st.pcNext i) st = 0xFFFF

/-- The instruction reads or writes a word at the effective address 0xFFFF (R39). -/
def WordAtTop (i : Instr) (st : State) : Prop :=
  wordOperand i = true ∧ ∃ l, memoryOperand i = some l ∧ effectiveAddress i l st = .ok 0xFFFF

/-- The instruction is TFR or EXG with a postbyte that names no pair of registers of one width (R189). -/
def BadTransfer (i : Instr) : Prop :=
  ∃ src dst, (i = .tfr src dst ∨ i = .exg src dst) ∧ ¬ValidPair src dst

/-- The instruction is SYNC or CWAI (R70). -/
def Unimplemented (i : Instr) : Prop :=
  i = .sync ∨ ∃ mask, i = .cwai mask

/-! ## Invariant and safe runs -/

/-- The memory is in its canonical form. -/
def MemoryCanonical (st : State) : Prop := Memory.wf st.mem = true

/-- `t` is reached from `st` by some number of completed steps. -/
inductive Reaches : State → State → Prop where
  | refl (st : State) : Reaches st st
  | step (st t u : State) (first : step st = .next t) (rest : Reaches t u) : Reaches st u

/-- `t` is reached from `st` by `n` completed steps. -/
inductive StepsTo : Nat → State → State → Prop where
  | zero (st : State) : StepsTo 0 st st
  | succ (n : Nat) (st t u : State) (first : step st = .next t) (rest : StepsTo n t u) : StepsTo (n + 1) st u

/-- A run from `st` is safe when no state it reaches ends in a fault or a refusal (R246, last sentence). -/
def SafeFrom (st : State) : Prop :=
  ∀ t, Reaches st t → ∃ u, step t = .next u

end Sys2Proof.Machine
end

