-- ==== Sys2Proof/Certificates/Slice0/Obligations.lean ====
section
/-! DEFINITION. The statements for the provers, file by file of the spec. `s` is everywhere the state in which an
operation runs: the addressing mode resolved and PC committed (30_encoding.md R55, R59). -/

open Sys2Proof Sys2Proof.Machine

/-! ## Encoding and decoding (30_encoding.md) -/

/-- Decoding the bytes of a well-formed instruction gives it back, whatever follows them (R61, R72). -/
def Obligations.DecodeOfEncodeGivesInstruction : Prop :=
  ∀ (i : Instr) (rest : List Byte), i.wf = true → decode (encode i ++ rest) = .ok (i, rest)

/-- Whatever bytes decode, decode to a well-formed instruction whose encoding they start with: each byte sequence has
one meaning. That no bit is dropped holds of the PC-relative postbytes because the term keeps their bits 6 to 5, which
the spec ignores (R93): the model's own choice (log entry 9). -/
def Obligations.EncodeOfDecodeGivesBytes : Prop :=
  ∀ (bytes rest : List Byte) (i : Instr), decode bytes = .ok (i, rest) → i.wf = true ∧ encode i ++ rest = bytes

/-- The length of an instruction is its opcode bytes, one on page 1 and two on pages 2 and 3, plus the operand bytes of
its mode; it is 1 to 5 (R60, R61, R72). -/
def Obligations.LengthIsOpcodeBytesPlusOperandBytes : Prop :=
  ∀ i : Instr, i.wf = true →
    (i.opcode.toNat / 256 = 0 ∨ i.opcode.toNat / 256 = 0x10 ∨ i.opcode.toNat / 256 = 0x11) ∧
    i.length = (if i.opcode.toNat / 256 = 0 then 1 else 2) + operandByteCount i.operand ∧
    1 ≤ i.length ∧ i.length ≤ 5

/-- An undefined opcode faults with IllegalOpcode: the 33 bytes of page 1, and on pages 2 and 3 every second byte but
the 38 and the 9 defined ones; the map has 221, 38 and 9 entries (R68, R69). -/
def Obligations.UndefinedOpcodesFault : Prop :=
  (∀ st : State, st.readByte st.pc ∈ illegalPage1 →
    step st = .fault (.illegalOpcode st.pc (mkWord 0x00 (st.readByte st.pc)) none)) ∧
  (∀ st : State, st.pc ≠ 0xFFFF → st.readByte st.pc = 0x10 → st.readByte (st.pc + 1) ∉ definedPage2 →
    step st = .fault (.illegalOpcode st.pc (mkWord 0x10 (st.readByte (st.pc + 1))) none)) ∧
  (∀ st : State, st.pc ≠ 0xFFFF → st.readByte st.pc = 0x11 → st.readByte (st.pc + 1) ∉ definedPage3 →
    step st = .fault (.illegalOpcode st.pc (mkWord 0x11 (st.readByte (st.pc + 1))) none)) ∧
  (List.range 256).countP (fun b => (page1 b).isSome) = 221 ∧
  (List.range 256).countP (fun b => (page2 b).isSome) = 38 ∧
  (List.range 256).countP (fun b => (page3 b).isSome) = 9

/-- An instruction whose bytes run past 0xFFFF faults with OutOfRange at the first fetch that fails: with `k` of its
bytes below 0x10000, a `Fetch8` fails at 0x10000 and a `Fetch16` of which one byte is there at 0xFFFF; a prefix byte
alone is reported as the opcode (R57, R244). CWAI is not among them: it faults before its mask is fetched (R240). -/
def Obligations.BytesPastTheTopFault : Prop :=
  ∀ (i : Instr) (st : State) (k : Nat), i.wf = true → (∀ mask, i ≠ .cwai mask) →
    st.pc.toNat + k = 65536 → k < i.length →
    (∀ j (h : j < (encode i).length), j < k → Memory.read st.mem (st.pc.toNat + j) = (encode i)[j]) →
    step st = .fault (.outOfRange st.pc
      (if k = 1 ∧ i.opcode.toNat / 256 ≠ 0 then mkWord 0x00 (hiByte i.opcode) else i.opcode)
      (if endsInWord i.operand = true ∧ k + 1 = i.length then 65535 else 65536))

/-- A few words written out from the opcode map and the postbyte table (R61, R65, R66, R67, R83). -/
def Obligations.SampleWordsDecode : Prop :=
  decode [0x86, 0x80] = .ok (.lda (.imm 0x80), []) ∧
  decode [0xA6, 0x1F] = .ok (.lda (.mem (.idx (.offset5 .x 0x1F))), []) ∧
  decode [0x10, 0xAE, 0x89, 0x12, 0x34] = .ok (.ldy (.mem (.idx (.offset16 .x 0x1234 false))), []) ∧
  decode [0x11, 0x83, 0xFF, 0xFE] = .ok (.cmpu (.imm 0xFFFE), []) ∧
  decode [0x6E, 0x9F, 0x20, 0x00] = .ok (.jmp (.idx (.extended 0x2000 true)), []) ∧
  decode [0x1F, 0x8B] = .ok (.tfr 0x8 0xB, []) ∧
  decode [0x34, 0x16] = .ok (.pshs 0x16, []) ∧
  decode [0x10, 0x27, 0xFF, 0xFC] = .ok (.lbeq 0xFFFC, [])

/-! ## The step (30_encoding.md R55, 60_exceptions.md) -/

/-- When the bytes at PC decode to `i`, the step is `exec i`: it adds nothing around it (R55). -/
def Obligations.StepRunsDecodedInstruction : Prop :=
  ∀ (st : State) (i : Instr) (rest : List Byte), decode st.fetchWindow = .ok (i, rest) → step st = exec i st

/-- When the encoding of a well-formed instruction lies in memory at PC, the step is `exec` of that instruction (R55). -/
def Obligations.StepRunsStoredInstruction : Prop :=
  ∀ (st : State) (i : Instr), i.wf = true → StoredAtPc i st → step st = exec i st

/-- A step ends in a next state or in a fault of one of the three kinds; it never refuses (R10). -/
def Obligations.StepEndsInNextOrFault : Prop :=
  ∀ st : State, (∃ t, step st = .next t) ∨ ∃ f, step st = .fault f

/-- The 39 invalid indexed postbytes, and no other, select no form, and every instruction with an indexed form faults on
them with IllegalOpcode, before any byte after the postbyte is fetched (R96, R243, R247). -/
def Obligations.InvalidPostbytesFault : Prop :=
  (∀ pb : Byte, postbyteForm pb = none ↔ pb ∈ invalidPostbytes) ∧
  (∀ st : State, st.pc.toNat + 1 < 65536 → st.readByte st.pc ∈ indexedPage1 →
    st.readByte (st.pc + 1) ∈ invalidPostbytes →
    step st = .fault (.illegalOpcode st.pc (mkWord 0x00 (st.readByte st.pc)) (some (st.readByte (st.pc + 1))))) ∧
  (∀ st : State, st.pc.toNat + 2 < 65536 → st.readByte st.pc = 0x10 → st.readByte (st.pc + 1) ∈ indexedPage2 →
    st.readByte (st.pc + 2) ∈ invalidPostbytes →
    step st = .fault (.illegalOpcode st.pc (mkWord 0x10 (st.readByte (st.pc + 1))) (some (st.readByte (st.pc + 2))))) ∧
  (∀ st : State, st.pc.toNat + 2 < 65536 → st.readByte st.pc = 0x11 → st.readByte (st.pc + 1) ∈ indexedPage3 →
    st.readByte (st.pc + 2) ∈ invalidPostbytes →
    step st = .fault (.illegalOpcode st.pc (mkWord 0x11 (st.readByte (st.pc + 1))) (some (st.readByte (st.pc + 2)))))

/-- SYNC and CWAI always fault with IllegalOpcode, wherever they lie: executed, and met by a step, CWAI also at 0xFFFF
where its mask byte could not be fetched (R70, R240, R241). -/
def Obligations.SyncAndCwaiAlwaysFault : Prop :=
  ∀ st : State,
    exec .sync st = .fault (.illegalOpcode st.pc 0x0013 none) ∧
    (∀ mask, exec (.cwai mask) st = .fault (.illegalOpcode st.pc 0x003C none)) ∧
    (st.readByte st.pc = 0x13 → step st = .fault (.illegalOpcode st.pc 0x0013 none)) ∧
    (st.readByte st.pc = 0x3C → step st = .fault (.illegalOpcode st.pc 0x003C none))

/-- A decoded instruction faults exactly when it is SYNC or CWAI, a transfer with an invalid postbyte, an indirect
operand with its pointer at 0xFFFF or a word operand at 0xFFFF, each with the values the fault records (R243 to R246). -/
def Obligations.FaultsExactlyWhenListed : Prop :=
  ∀ (i : Instr) (st : State) (f : Fault), i.wf = true →
    (exec i st = .fault f ↔
      (Unimplemented i ∧ f = .illegalOpcode st.pc i.opcode none) ∨
      (∃ src dst, (i = .tfr src dst ∨ i = .exg src dst) ∧ ¬ValidPair src dst ∧
        f = .invalidRegisterTransfer st.pc i.opcode (src ++ dst : BitVec (4 + 4))) ∨
      ((PointerAtTop i st ∨ WordAtTop i st) ∧ f = .outOfRange st.pc i.opcode 0xFFFF))

/-- A run that only ever meets defined, implemented opcodes with valid postbytes, pairs of one width, and pointers and
word operands that do not start at 0xFFFF, never faults (R246, last sentence but one). -/
def Obligations.DisciplinedProgramsNeverFault : Prop :=
  ∀ st : State,
    (∀ t, Reaches st t → ∃ i rest, decode t.fetchWindow = .ok (i, rest) ∧ ¬Unimplemented i ∧ ¬BadTransfer i ∧
      ¬PointerAtTop i t ∧ ¬WordAtTop i t) →
    SafeFrom st

/-! ## State, memory and host operations (10_state.md, 20_memory.md, 70_reset_and_hazards.md) -/

/-- Every step keeps the memory in its canonical form. -/
def Obligations.StepKeepsMemoryCanonical : Prop :=
  ∀ s s' : State, MemoryCanonical s → step s = .next s' → MemoryCanonical s'

/-- Construction and `reset()`: A, B, D, DP, CC, X, Y, U, S are zero; after construction every byte of memory reads 0x00;
`reset()` leaves the memory as it is and twice is the same as once; both states meet the invariant. What PC and the
model's counter hold is the model's own choice (log entries 1 and 2) and is not stated (R32, R260, R261). -/
def Obligations.ResetClearsRegistersAndKeepsMemory : Prop :=
  (∀ st : State, st = State.reset ∨ (∃ t : State, st = t.hostReset) →
    (st.a = 0 ∧ st.b = 0 ∧ st.d = 0 ∧ st.dp = 0 ∧ st.cc = 0) ∧ (st.x = 0 ∧ st.y = 0 ∧ st.u = 0 ∧ st.s = 0)) ∧
  (∀ addr, Memory.read State.reset.mem addr = 0x00) ∧ MemoryCanonical State.reset ∧
  ∀ st : State, st.hostReset.mem = st.mem ∧ st.hostReset.hostReset = st.hostReset ∧ (MemoryCanonical st → MemoryCanonical st.hostReset)

/-- The bus: an access whose last byte would lie above 0xFFFF fails and writes nothing; otherwise a byte is a byte and a
word is big-endian, wherever it starts; no register changes (R35 to R39). -/
def Obligations.BusAccessesAreBigEndianAndChecked : Prop :=
  ∀ (st : State) (addr : Nat) (v : Byte) (w : Word),
    (65535 < addr → st.memRead1 addr = none ∧ st.memWrite1 addr v = none) ∧
    (65535 < addr + 1 → st.memRead2 addr = none ∧ st.memWrite2 addr w = none) ∧
    (addr ≤ 65535 → st.memRead1 addr = some (Memory.read st.mem addr) ∧
      ∃ t, st.memWrite1 addr v = some t ∧ t = { st with mem := t.mem } ∧
        ∀ b, Memory.read t.mem b = if b = addr then v else Memory.read st.mem b) ∧
    (addr + 1 ≤ 65535 →
      (∃ r, st.memRead2 addr = some r ∧
        r.toNat = (Memory.read st.mem addr).toNat * 256 + (Memory.read st.mem (addr + 1)).toNat) ∧
      ∃ t, st.memWrite2 addr w = some t ∧ t = { st with mem := t.mem } ∧ t.memRead2 addr = some w ∧
        (Memory.read t.mem addr).toNat = w.toNat / 256 ∧ (Memory.read t.mem (addr + 1)).toNat = w.toNat % 256 ∧
        ∀ b, b ≠ addr → b ≠ addr + 1 → Memory.read t.mem b = Memory.read st.mem b)

/-- `load` writes the whole sequence, or nothing when its last byte would lie above 0xFFFF; no register changes; the
canonical form is kept (R42). -/
def Obligations.LoadWritesSequenceOrNothing : Prop :=
  ∀ (st : State) (addr : Nat) (bytes : List Byte),
    ((addr : Int) + bytes.length - 1 > 65535 → st.load addr bytes = none) ∧
    ((addr : Int) + bytes.length - 1 ≤ 65535 →
      ∃ t, st.load addr bytes = some t ∧ t = { st with mem := t.mem } ∧ (MemoryCanonical st → MemoryCanonical t) ∧
        (∀ k (h : k < bytes.length), Memory.read t.mem (addr + k) = bytes[k]) ∧
        ∀ b, b < addr ∨ addr + bytes.length ≤ b → Memory.read t.mem b = Memory.read st.mem b)

/-- The stack primitives on S and on U: a push decrements first and writes at the new pointer, a word is pushed low byte
first; a pull reads at the pointer and increments after; a pull undoes a push (R45 to R48). -/
def Obligations.StackPrimitivesPushAndPull : Prop :=
  ∀ (st : State) (p : Reg16), p = .s ∨ p = .u → ∀ (v : Byte) (w : Word),
    (∃ mem, st.push8 p v = { st.set16 p (st.get16 p - 1) with mem := mem } ∧
      StoredFrom mem st.mem (st.get16 p - 1) [v]) ∧
    (∃ mem, st.push16 p w = { st.set16 p (st.get16 p - 2) with mem := mem } ∧
      StoredFrom mem st.mem (st.get16 p - 2) [hiByte w, loByte w]) ∧
    st.push16 p w = (st.push8 p (loByte w)).push8 p (hiByte w) ∧
    st.pulled8 p = st.readByte (st.get16 p) ∧ st.drop8 p = st.set16 p (st.get16 p + 1) ∧
    st.pulled16 p = mkWord (st.readByte (st.get16 p)) (st.readByte (st.get16 p + 1)) ∧
    st.drop16 p = st.set16 p (st.get16 p + 2) ∧
    (st.push8 p v).pulled8 p = v ∧ (st.push16 p w).pulled16 p = w ∧
    (st.push16 p w).drop16 p = { st with mem := (st.push16 p w).mem }

/-- D is the view A:B: reading it, writing it, writing one half (R14). -/
def Obligations.DIsTheViewOfAAndB : Prop :=
  ∀ (st : State) (v : Word) (a b : Byte),
    (st.get16 .d).toNat = st.a.toNat * 256 + st.b.toNat ∧
    ((st.set16 .d v).a.toNat = v.toNat / 256 ∧ (st.set16 .d v).b.toNat = v.toNat % 256) ∧
    ((st.set16 .d v).get16 .d = v ∧ st.set16 .d v = (st.set8 .a (hiByte v)).set8 .b (loByte v)) ∧
    ((st.set8 .a a).set8 .b b).get16 .d = mkWord a b ∧ ((st.set8 .b b).set8 .a a).get16 .d = mkWord a b ∧
    ((st.set8 .a a).get16 .d = mkWord a st.b ∧ (st.set8 .b b).get16 .d = mkWord st.a b)

/-- `run`, for every stop condition over the state and over whatever the host closes over: it ends `stopped` only after
a completed step whose state meets the stop condition, `faulted` only with the state before the faulting step; a stop
condition that holds after one step runs one step; with a bound of `n` steps the run ends `stopped` after exactly `n` of
them (R265, R266). The bound `fuel` and the end `running` are the model's own (log entry 8). -/
def Obligations.RunStopsAfterCompletedStep : Prop :=
  (∀ (σ : Type) (st : State) (fuel : Nat) (start : Word) (stop : StopCondition σ) (host : σ),
    (∀ t, st.run fuel start stop host = .stopped t →
      ∃ u h, Reaches (st.withPc start) u ∧ step u = .next t ∧ (stop h t).1 = true) ∧
    (∀ f t, st.run fuel start stop host = .faulted f t → Reaches (st.withPc start) t ∧ step t = .fault f) ∧
    (∀ r t, st.run fuel start stop host ≠ .refused r t) ∧
    (∀ t, step (st.withPc start) = .next t → (stop host t).1 = true →
      st.run (fuel + 1) start stop host = .stopped t)) ∧
  ∀ (st t : State) (fuel n : Nat) (start : Word), 0 < n → n ≤ fuel → StepsTo n (st.withPc start) t →
    st.run fuel start (stopAfter n) 0 = .stopped t

/-! ## Addressing modes (40_addressing_modes.md) -/

/-- Immediate, direct and extended operands: the address is `DP * 256 + lo` or as given; the operand is the immediate,
or the byte or the big-endian word at the address, a word not at 0xFFFF; PC is committed and nothing else changes
(R75, R77 to R80). -/
def Obligations.SimpleModesResolve : Prop :=
  ∀ (i : Instr) (st : State),
    (∀ v, operand8 i (.imm v) st = .ok (v, { st with pc := st.pc + BitVec.ofNat 16 i.length })) ∧
    (∀ v, operand16 i (.imm v) st = .ok (v, { st with pc := st.pc + BitVec.ofNat 16 i.length })) ∧
    (∀ lo, ∃ ea : Word, ea.toNat = st.dp.toNat * 256 + lo.toNat ∧
      locate i (.dir lo) st = .ok (ea, { st with pc := st.pc + BitVec.ofNat 16 i.length })) ∧
    (∀ addr, locate i (.ext addr) st = .ok (addr, { st with pc := st.pc + BitVec.ofNat 16 i.length })) ∧
    (∀ l ea s, locate i l st = .ok (ea, s) →
      operand8 i (.mem l) st = .ok (st.readByte ea, s) ∧
      (ea ≠ 0xFFFF → operand16 i (.mem l) st = .ok (mkWord (st.readByte ea) (st.readByte (ea + 1)), s)) ∧
      (ea = 0xFFFF → operand16 i (.mem l) st = .error (.outOfRange st.pc i.opcode 0xFFFF))) ∧
    (∀ l f, locate i l st = .error f → operand8 i (.mem l) st = .error f ∧ operand16 i (.mem l) st = .error f)

/-- The direct (not indirect) indexed forms: each address modulo 65536 and the side effect on the base register, which
the auto-increment and auto-decrement forms have and no other (R84 to R93). -/
def Obligations.IndexedFormsResolve : Prop :=
  ∀ (i : Instr) (st : State) (r : IndexReg) (n5 : BitVec 5) (n8 : Byte) (n16 : Word) (ignored : BitVec 2),
    let R := st.get16 (baseReg r)
    let next := st.pc + BitVec.ofNat 16 i.length
    let s := { st with pc := next }
    locate i (.idx (.offset5 r n5)) st = .ok (BitVec.ofInt 16 (R.toNat + n5.toInt), s) ∧
    locate i (.idx (.postInc1 r false)) st = .ok (R, s.set16 (baseReg r) (BitVec.ofNat 16 (R.toNat + 1))) ∧
    locate i (.idx (.postInc2 r false)) st = .ok (R, s.set16 (baseReg r) (BitVec.ofNat 16 (R.toNat + 2))) ∧
    locate i (.idx (.preDec1 r false)) st =
      .ok (BitVec.ofInt 16 (R.toNat - 1), s.set16 (baseReg r) (BitVec.ofInt 16 (R.toNat - 1))) ∧
    locate i (.idx (.preDec2 r false)) st =
      .ok (BitVec.ofInt 16 (R.toNat - 2), s.set16 (baseReg r) (BitVec.ofInt 16 (R.toNat - 2))) ∧
    locate i (.idx (.noOffset r false)) st = .ok (R, s) ∧
    locate i (.idx (.accB r false)) st = .ok (BitVec.ofInt 16 (R.toNat + st.b.toInt), s) ∧
    locate i (.idx (.accA r false)) st = .ok (BitVec.ofInt 16 (R.toNat + st.a.toInt), s) ∧
    locate i (.idx (.accD r false)) st = .ok (BitVec.ofNat 16 (R.toNat + (st.a.toNat * 256 + st.b.toNat)), s) ∧
    locate i (.idx (.offset8 r n8 false)) st = .ok (BitVec.ofInt 16 (R.toNat + n8.toInt), s) ∧
    locate i (.idx (.offset16 r n16 false)) st = .ok (BitVec.ofInt 16 (R.toNat + n16.toInt), s) ∧
    locate i (.idx (.pcr8 ignored n8 false)) st = .ok (BitVec.ofInt 16 (next.toNat + n8.toInt), s) ∧
    locate i (.idx (.pcr16 ignored n16 false)) st = .ok (BitVec.ofInt 16 (next.toNat + n16.toInt), s)

/-- Indirection, once: an indirect form resolves to the big-endian word at the address of the direct form (of `[n]`, at
n), with the same side effect; at 0xFFFF it faults with OutOfRange (R94, R95). -/
def Obligations.IndirectFormsResolveOnce : Prop :=
  ∀ (i : Instr) (st : State) (x direct : Indexed) (a : Word) (s : State),
    ((∃ r, x = .postInc2 r true ∧ direct = .postInc2 r false) ∨ (∃ r, x = .preDec2 r true ∧ direct = .preDec2 r false) ∨
      (∃ r, x = .noOffset r true ∧ direct = .noOffset r false) ∨ (∃ r, x = .accB r true ∧ direct = .accB r false) ∨
      (∃ r, x = .accA r true ∧ direct = .accA r false) ∨ (∃ r, x = .accD r true ∧ direct = .accD r false) ∨
      (∃ r n, x = .offset8 r n true ∧ direct = .offset8 r n false) ∨
      (∃ r n, x = .offset16 r n true ∧ direct = .offset16 r n false) ∨
      (∃ g n, x = .pcr8 g n true ∧ direct = .pcr8 g n false) ∨
      (∃ g n, x = .pcr16 g n true ∧ direct = .pcr16 g n false)) ∧
      locate i (.idx direct) st = .ok (a, s) ∨
    (x = .extended a true ∧ s = { st with pc := st.pc + BitVec.ofNat 16 i.length }) →
    (a ≠ 0xFFFF → locate i (.idx x) st = .ok (mkWord (st.readByte a) (st.readByte (a + 1)), s)) ∧
    (a = 0xFFFF → locate i (.idx x) st = .error (.outOfRange st.pc i.opcode 0xFFFF))

/-- The side effect of every auto-increment and auto-decrement form, on every base register, direct or indirect, comes
before the operation: whatever the instruction, its operand resolves in a state that has it, so a store of the base
register stores the changed value, a load of it overwrites the change, LEA of it leaves the address, and of another
register both; LDA and LDB are the plain case. An accumulator offset uses the value from before the instruction, also
when the instruction loads that accumulator (R97). A fault carries no state, so the side effect of a faulting
instruction is nowhere (log entry 12). -/
def Obligations.IndexedSideEffectComesFirst : Prop :=
  (∀ (st : State) (x : Indexed) (r : IndexReg) (off change : Int), AutoForm x r off change → x.wf = true →
    let direct : Word := BitVec.ofInt 16 ((st.get16 (baseReg r)).toNat + off)
    let changed : Word := BitVec.ofInt 16 ((st.get16 (baseReg r)).toNat + change)
    let ea : Word := if isIndirect x then mkWord (st.readByte direct) (st.readByte (direct + 1)) else direct
    (isIndirect x = true → direct ≠ 0xFFFF) →
    (∀ i, locate i (.idx x) st =
      .ok (ea, ({ st with pc := st.pc + BitVec.ofNat 16 i.length } : State).set16 (baseReg r) changed)) ∧
    (ea ≠ 0xFFFF → ∃ t, exec (storeOf r (.idx x)) st = .next t ∧ t.get16 (baseReg r) = changed ∧
      mkWord (t.readByte ea) (t.readByte (ea + 1)) = changed) ∧
    (ea ≠ 0xFFFF → ∃ t, exec (loadOf r (.mem (.idx x))) st = .next t ∧
      t.get16 (baseReg r) = mkWord (st.readByte ea) (st.readByte (ea + 1))) ∧
    (∀ q, ∃ t, exec (leaOf q x) st = .next t ∧ t.get16 (baseReg q) = ea ∧
      (q ≠ r → t.get16 (baseReg r) = changed)) ∧
    (∃ t, exec (.lda (.mem (.idx x))) st = .next t ∧ t.a = st.readByte ea ∧ t.get16 (baseReg r) = changed) ∧
    ∃ t, exec (.ldb (.mem (.idx x))) st = .next t ∧ t.b = st.readByte ea ∧ t.get16 (baseReg r) = changed) ∧
  ∀ (st : State) (r : IndexReg) (x : Indexed) (ea : Word),
    (x = .accA r false ∧ ea = BitVec.ofInt 16 ((st.get16 (baseReg r)).toNat + st.a.toInt) ∨
      x = .accB r false ∧ ea = BitVec.ofInt 16 ((st.get16 (baseReg r)).toNat + st.b.toInt) ∨
      x = .accD r false ∧ ea = st.get16 (baseReg r) + st.d) →
    (∃ t, exec (.lda (.mem (.idx x))) st = .next t ∧ t.a = st.readByte ea) ∧
    (∃ t, exec (.ldb (.mem (.idx x))) st = .next t ∧ t.b = st.readByte ea) ∧
    (ea ≠ 0xFFFF → ∃ t, exec (.ldd (.mem (.idx x))) st = .next t ∧
      t.d = mkWord (st.readByte ea) (st.readByte (ea + 1)))

/-! ## Loads, stores, LEA (41_load_store_lea.md) -/

/-- LDA and LDB: the register is the operand, N and Z from it, V = 0; nothing else (R101, R102). -/
def Obligations.LoadAccumulators : Prop :=
  CompletesOn8 .lda (fun v s => { s with a := v, cc := ccNZV s v.msb (v == 0) false }) ∧
  CompletesOn8 .ldb (fun v s => { s with b := v, cc := ccNZV s v.msb (v == 0) false })

/-- LDD, LDX, LDY, LDU and LDS (R105 to R109). -/
def Obligations.LoadWordRegisters : Prop :=
  CompletesOn16 .ldd (fun v s => { s with a := hiByte v, b := loByte v, cc := ccNZV s v.msb (v == 0) false }) ∧
  CompletesOn16 .ldx (fun v s => { s with x := v, cc := ccNZV s v.msb (v == 0) false }) ∧
  CompletesOn16 .ldy (fun v s => { s with y := v, cc := ccNZV s v.msb (v == 0) false }) ∧
  CompletesOn16 .ldu (fun v s => { s with u := v, cc := ccNZV s v.msb (v == 0) false }) ∧
  CompletesOn16 .lds (fun v s => { s with s := v, cc := ccNZV s v.msb (v == 0) false })

/-- STA and STB: the byte at EA is the register, every other byte as before; N and Z from it, V = 0 (R103, R104). -/
def Obligations.StoreAccumulators : Prop :=
  CompletesStoring8 .sta (fun _ s => s.a) (fun _ s => { s with cc := ccNZV s s.a.msb (s.a == 0) false }) ∧
  CompletesStoring8 .stb (fun _ s => s.b) (fun _ s => { s with cc := ccNZV s s.b.msb (s.b == 0) false })

/-- STD, STX, STY, STU and STS: the word at EA is the register as the addressing mode left it; at EA = 0xFFFF
OutOfRange (R110 to R114). -/
def Obligations.StoreWordRegisters : Prop :=
  CompletesStoring16 .std (fun s => mkWord s.a s.b)
    (fun s => { s with cc := ccNZV s (mkWord s.a s.b).msb (mkWord s.a s.b == 0) false }) ∧
  CompletesStoring16 .stx (fun s => s.x) (fun s => { s with cc := ccNZV s s.x.msb (s.x == 0) false }) ∧
  CompletesStoring16 .sty (fun s => s.y) (fun s => { s with cc := ccNZV s s.y.msb (s.y == 0) false }) ∧
  CompletesStoring16 .stu (fun s => s.u) (fun s => { s with cc := ccNZV s s.u.msb (s.u == 0) false }) ∧
  CompletesStoring16 .sts (fun s => s.s) (fun s => { s with cc := ccNZV s s.s.msb (s.s == 0) false })

/-- LEAX and LEAY: the register is EA, Z from it; LEAS and LEAU: the register is EA, no flag. EA = 0xFFFF is no fault
(R115 to R118). -/
def Obligations.LoadEffectiveAddress : Prop :=
  CompletesAtIndexed .leax (fun ea s =>
    { s with x := ea, cc := ccNZV s (s.flag .n) (ea == 0) (s.flag .v) }) ∧
  CompletesAtIndexed .leay (fun ea s =>
    { s with y := ea, cc := ccNZV s (s.flag .n) (ea == 0) (s.flag .v) }) ∧
  CompletesAtIndexed .leas (fun ea s => { s with s := ea }) ∧
  CompletesAtIndexed .leau (fun ea s => { s with u := ea })

/-! ## Arithmetic (42_arithmetic.md) -/

/-- ADDA, ADDB without carry in, ADCA, ADCB with the old C: the byte of the sum and H, N, Z, V, C (R124 to R127). -/
def Obligations.AddToAccumulators : Prop :=
  CompletesOn8 .adda (fun m s => { s with a := sumByte s.a m false, cc := ccAfterSum s s.a m false }) ∧
  CompletesOn8 .addb (fun m s => { s with b := sumByte s.b m false, cc := ccAfterSum s s.b m false }) ∧
  CompletesOn8 .adca (fun m s => { s with a := sumByte s.a m (s.flag .c), cc := ccAfterSum s s.a m (s.flag .c) }) ∧
  CompletesOn8 .adcb (fun m s => { s with b := sumByte s.b m (s.flag .c), cc := ccAfterSum s s.b m (s.flag .c) })

/-- SUBA, SUBB, SBCA, SBCB, CMPA, CMPB: the byte of the difference, discarded by CMP, and N, Z, V, C; H takes the free
value, whatever it is, and one draw is counted (R128 to R133, R27; log entry 2). -/
def Obligations.SubtractAndCompareAccumulators : Prop :=
  CompletesOn8 .suba (fun m s =>
    { s with a := diffByte s.a m false, cc := ccAfterDiff s s.a m false, freeDraws := s.freeDraws + 1 }) ∧
  CompletesOn8 .subb (fun m s =>
    { s with b := diffByte s.b m false, cc := ccAfterDiff s s.b m false, freeDraws := s.freeDraws + 1 }) ∧
  CompletesOn8 .sbca (fun m s =>
    { s with a := diffByte s.a m (s.flag .c), cc := ccAfterDiff s s.a m (s.flag .c), freeDraws := s.freeDraws + 1 }) ∧
  CompletesOn8 .sbcb (fun m s =>
    { s with b := diffByte s.b m (s.flag .c), cc := ccAfterDiff s s.b m (s.flag .c), freeDraws := s.freeDraws + 1 }) ∧
  CompletesOn8 .cmpa (fun m s => { s with cc := ccAfterDiff s s.a m false, freeDraws := s.freeDraws + 1 }) ∧
  CompletesOn8 .cmpb (fun m s => { s with cc := ccAfterDiff s s.b m false, freeDraws := s.freeDraws + 1 })

/-- ADDD and SUBD: D modulo 65536 and N, Z, V, C of the 16-bit operation; H is kept (R134, R135). -/
def Obligations.AddAndSubtractD : Prop :=
  CompletesOn16 .addd (fun m s =>
    { s with a := hiByte (s.d + m), b := loByte (s.d + m), cc := ccAfterSum16 s s.d m }) ∧
  CompletesOn16 .subd (fun m s =>
    { s with a := hiByte (s.d - m), b := loByte (s.d - m), cc := ccAfterDiff16 s s.d m })

/-- CMPD, CMPX, CMPY, CMPU and CMPS: N, Z, V, C only (R136 to R140). -/
def Obligations.CompareWordRegisters : Prop :=
  CompletesOn16 .cmpd (fun m s => { s with cc := ccAfterDiff16 s s.d m }) ∧
  CompletesOn16 .cmpx (fun m s => { s with cc := ccAfterDiff16 s s.x m }) ∧
  CompletesOn16 .cmpy (fun m s => { s with cc := ccAfterDiff16 s s.y m }) ∧
  CompletesOn16 .cmpu (fun m s => { s with cc := ccAfterDiff16 s s.u m }) ∧
  CompletesOn16 .cmps (fun m s => { s with cc := ccAfterDiff16 s s.s m })

/-- NEG, INC and DEC on memory, A and B: NEG is 0 - m, H takes the free value, whatever it is, and one draw is
counted (R27; log entry 2); INC and DEC keep C and H and set V on 0x7F and 0x80 (R141 to R149). -/
def Obligations.NegateIncrementDecrement : Prop :=
  CompletesOnByte .neg .nega .negb (fun m _ => diffByte 0x00 m false)
    (fun m s => { s with cc := ccAfterDiff s 0x00 m false, freeDraws := s.freeDraws + 1 }) ∧
  CompletesOnByte .inc .inca .incb (fun m _ => m + 1)
    (fun m s => { s with cc := ccNZV s (m + 1).msb (m + 1 == 0) (m == 0x7F) }) ∧
  CompletesOnByte .dec .deca .decb (fun m _ => m - 1)
    (fun m s => { s with cc := ccNZV s (m - 1).msb (m - 1 == 0) (m == 0x80) })

/-- CLR writes 0x00 with N = 0, Z = 1, V = 0, C = 0; TST sets N and Z from the byte, V = 0, and writes nothing back
(R150 to R155). -/
def Obligations.ClearAndTest : Prop :=
  CompletesOnByte .clr .clra .clrb (fun _ _ => 0x00) (fun _ s => { s with cc := ccNZVC s false true false false }) ∧
  CompletesAt .tst (fun ea s =>
    { s with cc := ccNZV s (s.readByte ea).msb (s.readByte ea == 0) false }) ∧
  Completes .tsta (fun s => { s with cc := ccNZV s s.a.msb (s.a == 0) false }) ∧
  Completes .tstb (fun s => { s with cc := ccNZV s s.b.msb (s.b == 0) false })

/-- DAA: the correction from H, C and the two digits, the sum, N and Z from it, a carry already set stays set; V takes
the free value, whatever it is (R156, R27; log entry 2). -/
def Obligations.DecimalAdjust : Prop :=
  Completes .daa (fun s =>
    let lo := s.a.toNat % 16
    let hi := s.a.toNat / 16
    let low := if s.flag .h = true ∨ 9 < lo then 0x06 else 0
    let high := if s.flag .c = true ∨ 9 < hi ∨ 8 < hi ∧ 9 < lo then 0x60 else 0
    let sum := s.a.toNat + low + high
    let r : Byte := BitVec.ofNat 8 sum
    { s with
      a := r
      cc := packCc (s.flag .e) (s.flag .f) (s.flag .h) (s.flag .i) r.msb (r == 0) (nextFree s)
        (s.flag .c || decide (255 < sum))
      freeDraws := s.freeDraws + 1 })

/-- DAA after ADCA of two packed decimal bytes gives the packed decimal sum, with its carry in C: p and q are numbers
below 100, the carry in is the C flag before ADCA. -/
def Obligations.DecimalAdjustAddsDecimal : Prop :=
  ∀ (st : State) (p q : Nat), p < 100 → q < 100 → st.a = BitVec.ofNat 8 (p / 10 * 16 + p % 10) →
    ∃ t u, exec (.adca (.imm (BitVec.ofNat 8 (q / 10 * 16 + q % 10)))) st = .next t ∧ exec .daa t = .next u ∧
      let total := p + q + (st.flag .c).toNat
      u.a = BitVec.ofNat 8 (total % 100 / 10 * 16 + total % 10) ∧ u.flag .c = decide (100 ≤ total)

/-- MUL: D is the unsigned product, Z from it, C its bit 7; SEX: A is the sign of B, N and Z from B; ABX: X plus the
unsigned B, no flag (R157 to R159). -/
def Obligations.MultiplySignExtendAddIndex : Prop :=
  Completes .mul (fun s =>
    let p := s.a.toNat * s.b.toNat
    { s with
      a := BitVec.ofNat 8 (p / 256)
      b := BitVec.ofNat 8 (p % 256)
      cc := ccNZC s (s.flag .n) (decide (p = 0)) (decide (p / 128 % 2 = 1)) }) ∧
  Completes .sex (fun s =>
    { s with
      a := if 128 ≤ s.b.toNat then 0xFF else 0x00
      cc := ccNZV s s.b.msb (s.b == 0) (s.flag .v) }) ∧
  (∀ s t : State, exec .sex s = .next t → t.d.toInt = s.b.toInt) ∧
  Completes .abx (fun s => { s with x := BitVec.ofNat 16 (s.x.toNat + s.b.toNat) })

/-! ## Logic and shifts (43_logic_shift.md) -/

/-- AND, OR, EOR into an accumulator and BIT, which discards the AND: N and Z from the result, V = 0, C kept
(R160 to R167). -/
def Obligations.LogicOnAccumulators : Prop :=
  CompletesOn8 .anda (fun m s => { s with a := s.a &&& m, cc := ccNZV s (s.a &&& m).msb (s.a &&& m == 0) false }) ∧
  CompletesOn8 .andb (fun m s => { s with b := s.b &&& m, cc := ccNZV s (s.b &&& m).msb (s.b &&& m == 0) false }) ∧
  CompletesOn8 .ora (fun m s => { s with a := s.a ||| m, cc := ccNZV s (s.a ||| m).msb (s.a ||| m == 0) false }) ∧
  CompletesOn8 .orb (fun m s => { s with b := s.b ||| m, cc := ccNZV s (s.b ||| m).msb (s.b ||| m == 0) false }) ∧
  CompletesOn8 .eora (fun m s => { s with a := s.a ^^^ m, cc := ccNZV s (s.a ^^^ m).msb (s.a ^^^ m == 0) false }) ∧
  CompletesOn8 .eorb (fun m s => { s with b := s.b ^^^ m, cc := ccNZV s (s.b ^^^ m).msb (s.b ^^^ m == 0) false }) ∧
  CompletesOn8 .bita (fun m s => { s with cc := ccNZV s (s.a &&& m).msb (s.a &&& m == 0) false }) ∧
  CompletesOn8 .bitb (fun m s => { s with cc := ccNZV s (s.b &&& m).msb (s.b &&& m == 0) false })

/-- COM on memory, A and B: 255 - m, N and Z from it, V = 0, C = 1; ANDCC and ORCC: each bit of CC with the bit of the
mask (R168 to R172). -/
def Obligations.ComplementAndCcMasks : Prop :=
  CompletesOnByte .com .coma .comb (fun m _ => BitVec.ofNat 8 (255 - m.toNat))
    (fun m s => { s with cc := ccNZVC s (!m.msb) (m == 0xFF) false true }) ∧
  (∀ mask, Completes (.andcc mask) (fun s => { s with
    cc := packCc (s.flag .e && getFlag .e mask) (s.flag .f && getFlag .f mask) (s.flag .h && getFlag .h mask)
      (s.flag .i && getFlag .i mask) (s.flag .n && getFlag .n mask) (s.flag .z && getFlag .z mask)
      (s.flag .v && getFlag .v mask) (s.flag .c && getFlag .c mask) })) ∧
  ∀ mask, Completes (.orcc mask) (fun s => { s with
    cc := packCc (s.flag .e || getFlag .e mask) (s.flag .f || getFlag .f mask) (s.flag .h || getFlag .h mask)
      (s.flag .i || getFlag .i mask) (s.flag .n || getFlag .n mask) (s.flag .z || getFlag .z mask)
      (s.flag .v || getFlag .v mask) (s.flag .c || getFlag .c mask) })

/-- LSR, ASR and ROR on memory, A and B: half the byte, with 0, bit 7 or the old C entering bit 7; C is bit 0; V is kept;
after ASR H takes the free value, whatever it is, and one draw is counted (R173 to R178, R185 to R187, R27; log entry
2). -/
def Obligations.ShiftAndRotateRight : Prop :=
  CompletesOnByte .lsr .lsra .lsrb (fun m _ => BitVec.ofNat 8 (m.toNat / 2))
    (fun m s => { s with cc := ccNZC s false (m.toNat / 2 == 0) (m.getLsbD 0) }) ∧
  CompletesOnByte .asr .asra .asrb (fun m _ => BitVec.ofInt 8 (m.toInt / 2))
    (fun m s => { s with
      cc := packCc (s.flag .e) (s.flag .f) (nextFree s) (s.flag .i) m.msb (m.toInt / 2 == 0) (s.flag .v) (m.getLsbD 0)
      freeDraws := s.freeDraws + 1 }) ∧
  CompletesOnByte .ror .rora .rorb (fun m s => BitVec.ofNat 8 (m.toNat / 2 + 128 * (s.flag .c).toNat))
    (fun m s => { s with
      cc := ccNZC s (s.flag .c) (m.toNat / 2 + 128 * (s.flag .c).toNat == 0) (m.getLsbD 0) })

/-- ASL and ROL on memory, A and B: twice the byte, with 0 or the old C entering bit 0; N from bit 6, C from bit 7, V is
their exclusive or; after ASL H takes the free value, whatever it is, and one draw is counted, ROL keeps H (R179 to
R184, R27; log entry 2). -/
def Obligations.ShiftAndRotateLeft : Prop :=
  CompletesOnByte .asl .asla .aslb (fun m _ => BitVec.ofNat 8 (m.toNat * 2))
    (fun m s => { s with
      cc := ccHNZVC s (nextFree s) (m.getLsbD 6) (m.toNat * 2 % 256 == 0) (m.getLsbD 7 ^^ m.getLsbD 6) (m.getLsbD 7)
      freeDraws := s.freeDraws + 1 }) ∧
  CompletesOnByte .rol .rola .rolb (fun m s => BitVec.ofNat 8 (m.toNat * 2 + (s.flag .c).toNat))
    (fun m s => { s with
      cc := ccNZVC s (m.getLsbD 6) ((m.toNat * 2 + (s.flag .c).toNat) % 256 == 0) (m.getLsbD 7 ^^ m.getLsbD 6)
        (m.getLsbD 7) })

/-! ## Transfers and the stack (44_transfer_stack.md) -/

/-- TFR copies and EXG exchanges two registers of one width, PC read as the next instruction's address and D as A:B;
every other postbyte faults with InvalidRegisterTransfer; 52 postbytes are valid (R188 to R191, R245). -/
def Obligations.TransferAndExchange : Prop :=
  (∀ r q, Completes (.tfr (code8 r) (code8 q)) (fun s => s.set8 q (s.get8 r))) ∧
  (∀ r q, Completes (.tfr (code16 r) (code16 q)) (fun s => s.set16 q (s.get16 r))) ∧
  (∀ r q, Completes (.exg (code8 r) (code8 q)) (fun s => (s.set8 q (s.get8 r)).set8 r (s.get8 q))) ∧
  (∀ r q, Completes (.exg (code16 r) (code16 q)) (fun s => (s.set16 q (s.get16 r)).set16 r (s.get16 q))) ∧
  (∀ src dst st, ¬ValidPair src dst →
    exec (.tfr src dst) st = .fault (.invalidRegisterTransfer st.pc 0x001F (src ++ dst : BitVec (4 + 4))) ∧
    exec (.exg src dst) st = .fault (.invalidRegisterTransfer st.pc 0x001E (src ++ dst : BitVec (4 + 4)))) ∧
  (List.range 256).countP (fun pb =>
    (transferPair (BitVec.ofNat 4 (pb / 16)) (BitVec.ofNat 4 pb)).isSome) = 52

/-- PSHS and PSHU: the selected registers lie from the new stack pointer upward in the order CC, A, B, DP, X, Y, U or S,
PC, words high byte first; every other byte and register is as before (R192, R193, R195). -/
def Obligations.PushesStoreSelectedRegisters : Prop :=
  ∀ (list : Byte) (st : State),
    let s : State := { st with pc := st.pc + 2 }
    (∃ mem, exec (.pshs list) st = .next { s with s := st.s - BitVec.ofNat 16 (listBytes list), mem := mem } ∧
      StoredFrom mem st.mem (st.s - BitVec.ofNat 16 (listBytes list)) (stackImage s s.u list)) ∧
    (∃ mem, exec (.pshu list) st = .next { s with u := st.u - BitVec.ofNat 16 (listBytes list), mem := mem } ∧
      StoredFrom mem st.mem (st.u - BitVec.ofNat 16 (listBytes list)) (stackImage s s.s list)) ∧
    (stackImage s s.u list).length = listBytes list ∧ listBytes list ≤ 12

/-- PULS and PULU: each selected register is read at the stack pointer plus what the lower bits of the list pulled; the
others keep their values; the stack pointer rises by the bytes pulled; memory is not changed (R192, R194, R196). -/
def Obligations.PullsReadSelectedRegisters : Prop :=
  ∀ (list : Byte) (st : State),
    let s : State := { st with pc := st.pc + 2 }
    exec (.puls list) st = .next { s with
      cc := if list.getLsbD 0 then s.readByte s.s else s.cc
      a := if list.getLsbD 1 then s.readByte (s.s + stackOffset list 1) else s.a
      b := if list.getLsbD 2 then s.readByte (s.s + stackOffset list 2) else s.b
      dp := if list.getLsbD 3 then s.readByte (s.s + stackOffset list 3) else s.dp
      x := if list.getLsbD 4 then stackWord s (s.s + stackOffset list 4) else s.x
      y := if list.getLsbD 5 then stackWord s (s.s + stackOffset list 5) else s.y
      u := if list.getLsbD 6 then stackWord s (s.s + stackOffset list 6) else s.u
      pc := if list.getLsbD 7 then stackWord s (s.s + stackOffset list 7) else s.pc
      s := s.s + BitVec.ofNat 16 (listBytes list) } ∧
    exec (.pulu list) st = .next { s with
      cc := if list.getLsbD 0 then s.readByte s.u else s.cc
      a := if list.getLsbD 1 then s.readByte (s.u + stackOffset list 1) else s.a
      b := if list.getLsbD 2 then s.readByte (s.u + stackOffset list 2) else s.b
      dp := if list.getLsbD 3 then s.readByte (s.u + stackOffset list 3) else s.dp
      x := if list.getLsbD 4 then stackWord s (s.u + stackOffset list 4) else s.x
      y := if list.getLsbD 5 then stackWord s (s.u + stackOffset list 5) else s.y
      s := if list.getLsbD 6 then stackWord s (s.u + stackOffset list 6) else s.s
      pc := if list.getLsbD 7 then stackWord s (s.u + stackOffset list 7) else s.pc
      u := s.u + BitVec.ofNat 16 (listBytes list) }

/-- A pull with the same list undoes a push: in any state `t'` with the stack pointer and the memory as the push left
them, whatever the other registers hold, it gives the registers of the list their values from before the push, keeps the
others, and moves the stack pointer back; PC, if in the list, becomes the address after the push (R192). -/
def Obligations.PullUndoesPush : Prop :=
  ∀ (list : Byte) (st t t' : State), t'.mem = t.mem →
    (exec (.pshs list) st = .next t → t'.s = t.s → exec (.puls list) t' = .next { t' with
      cc := if list.getLsbD 0 then st.cc else t'.cc
      a := if list.getLsbD 1 then st.a else t'.a
      b := if list.getLsbD 2 then st.b else t'.b
      dp := if list.getLsbD 3 then st.dp else t'.dp
      x := if list.getLsbD 4 then st.x else t'.x
      y := if list.getLsbD 5 then st.y else t'.y
      u := if list.getLsbD 6 then st.u else t'.u
      pc := if list.getLsbD 7 then st.pc + 2 else t'.pc + 2
      s := st.s }) ∧
    (exec (.pshu list) st = .next t → t'.u = t.u → exec (.pulu list) t' = .next { t' with
      cc := if list.getLsbD 0 then st.cc else t'.cc
      a := if list.getLsbD 1 then st.a else t'.a
      b := if list.getLsbD 2 then st.b else t'.b
      dp := if list.getLsbD 3 then st.dp else t'.dp
      x := if list.getLsbD 4 then st.x else t'.x
      y := if list.getLsbD 5 then st.y else t'.y
      s := if list.getLsbD 6 then st.s else t'.s
      pc := if list.getLsbD 7 then st.pc + 2 else t'.pc + 2
      u := st.u })

/-! ## Branches, calls, returns (45_branch_jump.md) -/

/-- BRA, BRN, BNE, BEQ and their long forms (R197; R198, R199, R204, R205, R214, R215, R220, R221). -/
def Obligations.BranchAlwaysNeverAndOnZero : Prop :=
  (∀ d : Byte, BranchesWhen (.bra d) d.toInt (fun _ => true) ∧ BranchesWhen (.brn d) d.toInt (fun _ => false) ∧
    BranchesWhen (.bne d) d.toInt (fun s => !s.flag .z) ∧ BranchesWhen (.beq d) d.toInt (fun s => s.flag .z)) ∧
  (∀ d : Word, BranchesWhen (.lbra d) d.toInt (fun _ => true) ∧ BranchesWhen (.lbrn d) d.toInt (fun _ => false) ∧
    BranchesWhen (.lbne d) d.toInt (fun s => !s.flag .z) ∧ BranchesWhen (.lbeq d) d.toInt (fun s => s.flag .z))

/-- BHI, BLS, BCC, BCS and their long forms (R200 to R203, R216 to R219). -/
def Obligations.BranchOnUnsignedOrder : Prop :=
  (∀ d : Byte, BranchesWhen (.bhi d) d.toInt (fun s => !s.flag .c && !s.flag .z) ∧
    BranchesWhen (.bls d) d.toInt (fun s => s.flag .c || s.flag .z) ∧
    BranchesWhen (.bcc d) d.toInt (fun s => !s.flag .c) ∧ BranchesWhen (.bcs d) d.toInt (fun s => s.flag .c)) ∧
  (∀ d : Word, BranchesWhen (.lbhi d) d.toInt (fun s => !s.flag .c && !s.flag .z) ∧
    BranchesWhen (.lbls d) d.toInt (fun s => s.flag .c || s.flag .z) ∧
    BranchesWhen (.lbcc d) d.toInt (fun s => !s.flag .c) ∧ BranchesWhen (.lbcs d) d.toInt (fun s => s.flag .c))

/-- BVC, BVS, BPL, BMI and their long forms (R206 to R209, R222 to R225). -/
def Obligations.BranchOnOverflowAndSign : Prop :=
  (∀ d : Byte, BranchesWhen (.bvc d) d.toInt (fun s => !s.flag .v) ∧ BranchesWhen (.bvs d) d.toInt (fun s => s.flag .v) ∧
    BranchesWhen (.bpl d) d.toInt (fun s => !s.flag .n) ∧ BranchesWhen (.bmi d) d.toInt (fun s => s.flag .n)) ∧
  (∀ d : Word, BranchesWhen (.lbvc d) d.toInt (fun s => !s.flag .v) ∧ BranchesWhen (.lbvs d) d.toInt (fun s => s.flag .v) ∧
    BranchesWhen (.lbpl d) d.toInt (fun s => !s.flag .n) ∧ BranchesWhen (.lbmi d) d.toInt (fun s => s.flag .n))

/-- BGE, BLT, BGT, BLE and their long forms (R210 to R213, R226 to R229). -/
def Obligations.BranchOnSignedOrder : Prop :=
  (∀ d : Byte, BranchesWhen (.bge d) d.toInt (fun s => s.flag .n == s.flag .v) ∧
    BranchesWhen (.blt d) d.toInt (fun s => s.flag .n ^^ s.flag .v) ∧
    BranchesWhen (.bgt d) d.toInt (fun s => !s.flag .z && (s.flag .n == s.flag .v)) ∧
    BranchesWhen (.ble d) d.toInt (fun s => s.flag .z || (s.flag .n ^^ s.flag .v))) ∧
  (∀ d : Word, BranchesWhen (.lbge d) d.toInt (fun s => s.flag .n == s.flag .v) ∧
    BranchesWhen (.lblt d) d.toInt (fun s => s.flag .n ^^ s.flag .v) ∧
    BranchesWhen (.lbgt d) d.toInt (fun s => !s.flag .z && (s.flag .n == s.flag .v)) ∧
    BranchesWhen (.lble d) d.toInt (fun s => s.flag .z || (s.flag .n ^^ s.flag .v)))

/-- What every conditional branch, short and long, means after a compare or a subtraction of bytes or of words, whatever
the operand form: BHI, BLS, BCC, BCS compare unsigned, BGE, BLT, BGT, BLE signed, BNE and BEQ equality, BVC and BVS ask
whether the signed difference fits, BPL and BMI for the sign of the result (R197, last column). -/
def Obligations.BranchesAfterCompareOrderOperands : Prop :=
  OrdersBranches8 .cmpa (fun s => s.a) ∧ OrdersBranches8 .cmpb (fun s => s.b) ∧
  OrdersBranches8 .suba (fun s => s.a) ∧ OrdersBranches8 .subb (fun s => s.b) ∧
  OrdersBranches16 .cmpd (fun s => s.d) ∧ OrdersBranches16 .cmpx (fun s => s.x) ∧
  OrdersBranches16 .cmpy (fun s => s.y) ∧ OrdersBranches16 .cmpu (fun s => s.u) ∧
  OrdersBranches16 .cmps (fun s => s.s) ∧ OrdersBranches16 .subd (fun s => s.d)

/-- BSR, LBSR and JSR push the address of the next instruction on S and jump, JSR to the address it computed first; JMP
jumps; RTS pulls PC from S; NOP only advances (R230 to R235). -/
def Obligations.CallsJumpsReturnsNop : Prop :=
  (∀ (disp : Byte) (st : State), ∃ mem,
    exec (.bsr disp) st = .next { st with
      s := st.s - 2, pc := BitVec.ofInt 16 (st.pc.toNat + 2 + disp.toInt), mem := mem } ∧
    StoredFrom mem st.mem (st.s - 2) [hiByte (st.pc + 2), loByte (st.pc + 2)]) ∧
  (∀ (disp : Word) (st : State), ∃ mem,
    exec (.lbsr disp) st = .next { st with
      s := st.s - 2, pc := BitVec.ofInt 16 (st.pc.toNat + 3 + disp.toInt), mem := mem } ∧
    StoredFrom mem st.mem (st.s - 2) [hiByte (st.pc + 3), loByte (st.pc + 3)]) ∧
  (∀ (l : Loc) (st : State),
    (∀ ea s, locate (.jsr l) l st = .ok (ea, s) → ∃ mem,
      exec (.jsr l) st = .next { s with s := s.s - 2, pc := ea, mem := mem } ∧
      StoredFrom mem st.mem (s.s - 2) [hiByte s.pc, loByte s.pc]) ∧
    (∀ f, locate (.jsr l) l st = .error f → exec (.jsr l) st = .fault f)) ∧
  CompletesAt .jmp (fun ea s => { s with pc := ea }) ∧
  Completes .rts (fun s => { s with pc := stackWord s s.s, s := s.s + 2 }) ∧
  Completes .nop (fun s => s)

/-- RTS after BSR, LBSR or JSR, with S and the two pushed bytes as the call left them and everything else whatever the
subroutine made of it, goes to the instruction after the call with S as before the push. -/
def Obligations.ReturnGoesBackToCaller : Prop :=
  ∀ (st t t' : State), t'.s = t.s → t'.readByte t.s = t.readByte t.s → t'.readByte (t.s + 1) = t.readByte (t.s + 1) →
    (∀ disp, exec (.bsr disp) st = .next t → exec .rts t' = .next { t' with s := st.s, pc := st.pc + 2 }) ∧
    (∀ disp, exec (.lbsr disp) st = .next t → exec .rts t' = .next { t' with s := st.s, pc := st.pc + 3 }) ∧
    (∀ l ea s, locate (.jsr l) l st = .ok (ea, s) → exec (.jsr l) st = .next t →
      exec .rts t' = .next { t' with s := s.s, pc := st.pc + BitVec.ofNat 16 (Instr.jsr l).length })

/-! ## Software interrupts (46_system.md, 60_exceptions.md) -/

/-- SWI, SWI2 and SWI3: the frame of twelve bytes below S, CC in it with E = 1 and I and F as they were; E = 1 after,
and of SWI also I = F = 1; PC is the vector word as it reads after the pushes (R236 to R238, R251). -/
def Obligations.SoftwareInterruptEntry : Prop :=
  ∀ st : State,
    (∃ mem, exec .swi st = .next { st with
        cc := packCc true true (st.flag .h) true (st.flag .n) (st.flag .z) (st.flag .v) (st.flag .c)
        s := st.s - 12, pc := mkWord (Memory.read mem 0xFFFA) (Memory.read mem 0xFFFB), mem := mem } ∧
      StoredFrom mem st.mem (st.s - 12) (interruptFrame st (st.pc + 1))) ∧
    (∃ mem, exec .swi2 st = .next { st with
        cc := packCc true (st.flag .f) (st.flag .h) (st.flag .i) (st.flag .n) (st.flag .z) (st.flag .v) (st.flag .c)
        s := st.s - 12, pc := mkWord (Memory.read mem 0xFFF4) (Memory.read mem 0xFFF5), mem := mem } ∧
      StoredFrom mem st.mem (st.s - 12) (interruptFrame st (st.pc + 2))) ∧
    (∃ mem, exec .swi3 st = .next { st with
        cc := packCc true (st.flag .f) (st.flag .h) (st.flag .i) (st.flag .n) (st.flag .z) (st.flag .v) (st.flag .c)
        s := st.s - 12, pc := mkWord (Memory.read mem 0xFFF2) (Memory.read mem 0xFFF3), mem := mem } ∧
      StoredFrom mem st.mem (st.s - 12) (interruptFrame st (st.pc + 2)))

/-- RTI: CC is pulled; with E = 1 in the byte pulled, A, B, DP, X, Y, U and PC follow, twelve bytes in all; with E = 0
PC only, three bytes; memory is not changed (R239, R252). -/
def Obligations.ReturnFromInterrupt : Prop :=
  ∀ st : State,
    (getFlag .e (st.readByte st.s) = true →
      exec .rti st = .next { st with
        cc := st.readByte st.s, a := st.readByte (st.s + 1), b := st.readByte (st.s + 2), dp := st.readByte (st.s + 3)
        x := stackWord st (st.s + 4), y := stackWord st (st.s + 6), u := stackWord st (st.s + 8)
        pc := stackWord st (st.s + 10), s := st.s + 12 }) ∧
    (getFlag .e (st.readByte st.s) = false →
      exec .rti st = .next { st with
        cc := st.readByte st.s, pc := stackWord st (st.s + 1), s := st.s + 3 })

/-- RTI after a software interrupt, with S and the frame as the entry left them and every other register and byte
whatever the handler made of it, restores every register and flag but E, which reads 1, and goes to the instruction
after the software interrupt. -/
def Obligations.ReturnRestoresInterruptedState : Prop :=
  ∀ (st t t' : State), t'.s = t.s → (∀ k < 12, t'.readByte (t.s + BitVec.ofNat 16 k) = t.readByte (t.s + BitVec.ofNat 16 k)) →
    (exec .swi st = .next t ∨ exec .swi2 st = .next t ∨ exec .swi3 st = .next t) →
    ∃ u, exec .rti t' = .next u ∧
      u = { st with
        cc := packCc true (st.flag .f) (st.flag .h) (st.flag .i) (st.flag .n) (st.flag .z) (st.flag .v) (st.flag .c)
        pc := u.pc, mem := t'.mem, freeDraws := t'.freeDraws } ∧
      (exec .swi st = .next t → u.pc = st.pc + 1) ∧
      (exec .swi2 st = .next t → u.pc = st.pc + 2) ∧ (exec .swi3 st = .next t → u.pc = st.pc + 2)

/-! ## Rules of the whole machine -/

/-- No instruction changes a byte of memory but those it stores to, which are: the byte or the word at the effective
address of the stores, of CLR and of the read-modify-write instructions, and what calls, pushes and software interrupts
push. -/
def Obligations.OnlyStoredBytesChange : Prop :=
  ∀ (i : Instr) (st t : State) (a : Word), exec i st = .next t → a ∉ writeAddresses i st → t.readByte a = st.readByte a

/-- DP is changed only by TFR and EXG, PULS and PULU with bit 3 of the list, and RTI when the E it pulls is 1 (R18). -/
def Obligations.DirectPageChangesOnlyBy : Prop :=
  ∀ (i : Instr) (st t : State), exec i st = .next t → t.dp ≠ st.dp →
    (∃ src dst, (i = .tfr src dst ∧ dst = 0xB) ∨ (i = .exg src dst ∧ (src = 0xB ∨ dst = 0xB))) ∨
    (∃ list : Byte, (i = .puls list ∨ i = .pulu list) ∧ list.getLsbD 3 = true) ∨
    (i = .rti ∧ getFlag .e (st.readByte st.s) = true)

/-- I, F and E are changed only by ANDCC, ORCC, TFR and EXG with CC, PULS and PULU with bit 0 of the list, RTI and SWI,
and E also by SWI2 and SWI3: no arithmetic, load, store, branch or call touches them (R25, R26, R250). -/
def Obligations.InterruptFlagsChangeOnlyBy : Prop :=
  ∀ (i : Instr) (st t : State), exec i st = .next t →
    (t.flag .i ≠ st.flag .i ∨ t.flag .f ≠ st.flag .f ∨ t.flag .e ≠ st.flag .e) →
    (∃ mask, i = .andcc mask ∨ i = .orcc mask) ∨
    (∃ src dst, (i = .tfr src dst ∧ dst = 0xA) ∨ (i = .exg src dst ∧ (src = 0xA ∨ dst = 0xA))) ∨
    (∃ list : Byte, (i = .puls list ∨ i = .pulu list) ∧ list.getLsbD 0 = true) ∨
    i = .rti ∨ i = .swi ∨ ((i = .swi2 ∨ i = .swi3) ∧ t.flag .i = st.flag .i ∧ t.flag .f = st.flag .f)

/-- H is changed only by ADDA, ADDB, ADCA, ADCB, by the instructions that leave it undefined, and by those that write CC
as a byte (R24). -/
def Obligations.HalfCarryChangesOnlyBy : Prop :=
  ∀ (i : Instr) (st t : State), exec i st = .next t → t.flag .h ≠ st.flag .h →
    (∃ o, i = .adda o ∨ i = .addb o ∨ i = .adca o ∨ i = .adcb o) ∨
    (∃ o, i = .suba o ∨ i = .subb o ∨ i = .sbca o ∨ i = .sbcb o ∨ i = .cmpa o ∨ i = .cmpb o) ∨
    (∃ l, i = .neg l ∨ i = .asl l ∨ i = .asr l) ∨
    (i = .nega ∨ i = .negb ∨ i = .asla ∨ i = .aslb ∨ i = .asra ∨ i = .asrb) ∨
    (∃ mask, i = .andcc mask ∨ i = .orcc mask) ∨
    (∃ src dst, (i = .tfr src dst ∧ dst = 0xA) ∨ (i = .exg src dst ∧ (src = 0xA ∨ dst = 0xA))) ∨
    (∃ list : Byte, (i = .puls list ∨ i = .pulu list) ∧ list.getLsbD 0 = true) ∨ i = .rti
end

