-- ==== Sys2Proof/Laws/State.lean ====
section
/-! SUPPORT. One lemma per field per update of the state, so that no proof unfolds a record update, and the laws of the
register accessors (10_state.md R13 to R19, R14 for D). -/

namespace Sys2Proof.Machine

/-! ## CC, PC and the memory replaced -/

@[simp] theorem State.withCc_a (st : State) (v : Byte) : (st.withCc v).a = st.a := rfl
@[simp] theorem State.withCc_b (st : State) (v : Byte) : (st.withCc v).b = st.b := rfl
@[simp] theorem State.withCc_dp (st : State) (v : Byte) : (st.withCc v).dp = st.dp := rfl
@[simp] theorem State.withCc_cc (st : State) (v : Byte) : (st.withCc v).cc = v := rfl
@[simp] theorem State.withCc_x (st : State) (v : Byte) : (st.withCc v).x = st.x := rfl
@[simp] theorem State.withCc_y (st : State) (v : Byte) : (st.withCc v).y = st.y := rfl
@[simp] theorem State.withCc_u (st : State) (v : Byte) : (st.withCc v).u = st.u := rfl
@[simp] theorem State.withCc_s (st : State) (v : Byte) : (st.withCc v).s = st.s := rfl
@[simp] theorem State.withCc_pc (st : State) (v : Byte) : (st.withCc v).pc = st.pc := rfl
@[simp] theorem State.withCc_mem (st : State) (v : Byte) : (st.withCc v).mem = st.mem := rfl
@[simp] theorem State.withCc_freeDraws (st : State) (v : Byte) : (st.withCc v).freeDraws = st.freeDraws := rfl

@[simp] theorem State.withPc_a (st : State) (v : Word) : (st.withPc v).a = st.a := rfl
@[simp] theorem State.withPc_b (st : State) (v : Word) : (st.withPc v).b = st.b := rfl
@[simp] theorem State.withPc_dp (st : State) (v : Word) : (st.withPc v).dp = st.dp := rfl
@[simp] theorem State.withPc_cc (st : State) (v : Word) : (st.withPc v).cc = st.cc := rfl
@[simp] theorem State.withPc_x (st : State) (v : Word) : (st.withPc v).x = st.x := rfl
@[simp] theorem State.withPc_y (st : State) (v : Word) : (st.withPc v).y = st.y := rfl
@[simp] theorem State.withPc_u (st : State) (v : Word) : (st.withPc v).u = st.u := rfl
@[simp] theorem State.withPc_s (st : State) (v : Word) : (st.withPc v).s = st.s := rfl
@[simp] theorem State.withPc_pc (st : State) (v : Word) : (st.withPc v).pc = v := rfl
@[simp] theorem State.withPc_mem (st : State) (v : Word) : (st.withPc v).mem = st.mem := rfl
@[simp] theorem State.withPc_freeDraws (st : State) (v : Word) : (st.withPc v).freeDraws = st.freeDraws := rfl

@[simp] theorem State.withMem_a (st : State) (m : List Host.Cell) : (st.withMem m).a = st.a := rfl
@[simp] theorem State.withMem_b (st : State) (m : List Host.Cell) : (st.withMem m).b = st.b := rfl
@[simp] theorem State.withMem_dp (st : State) (m : List Host.Cell) : (st.withMem m).dp = st.dp := rfl
@[simp] theorem State.withMem_cc (st : State) (m : List Host.Cell) : (st.withMem m).cc = st.cc := rfl
@[simp] theorem State.withMem_x (st : State) (m : List Host.Cell) : (st.withMem m).x = st.x := rfl
@[simp] theorem State.withMem_y (st : State) (m : List Host.Cell) : (st.withMem m).y = st.y := rfl
@[simp] theorem State.withMem_u (st : State) (m : List Host.Cell) : (st.withMem m).u = st.u := rfl
@[simp] theorem State.withMem_s (st : State) (m : List Host.Cell) : (st.withMem m).s = st.s := rfl
@[simp] theorem State.withMem_pc (st : State) (m : List Host.Cell) : (st.withMem m).pc = st.pc := rfl
@[simp] theorem State.withMem_mem (st : State) (m : List Host.Cell) : (st.withMem m).mem = m := rfl
@[simp] theorem State.withMem_freeDraws (st : State) (m : List Host.Cell) : (st.withMem m).freeDraws = st.freeDraws := rfl

/-! ## An undefined flag -/

@[simp] theorem State.undefine_a (st : State) (fl : Flag) : (st.undefine fl).a = st.a := rfl
@[simp] theorem State.undefine_b (st : State) (fl : Flag) : (st.undefine fl).b = st.b := rfl
@[simp] theorem State.undefine_dp (st : State) (fl : Flag) : (st.undefine fl).dp = st.dp := rfl
@[simp] theorem State.undefine_cc (st : State) (fl : Flag) : (st.undefine fl).cc = putFlag fl (Config.freeFlag st.freeDraws) st.cc := rfl
@[simp] theorem State.undefine_x (st : State) (fl : Flag) : (st.undefine fl).x = st.x := rfl
@[simp] theorem State.undefine_y (st : State) (fl : Flag) : (st.undefine fl).y = st.y := rfl
@[simp] theorem State.undefine_u (st : State) (fl : Flag) : (st.undefine fl).u = st.u := rfl
@[simp] theorem State.undefine_s (st : State) (fl : Flag) : (st.undefine fl).s = st.s := rfl
@[simp] theorem State.undefine_pc (st : State) (fl : Flag) : (st.undefine fl).pc = st.pc := rfl
@[simp] theorem State.undefine_mem (st : State) (fl : Flag) : (st.undefine fl).mem = st.mem := rfl
@[simp] theorem State.undefine_freeDraws (st : State) (fl : Flag) : (st.undefine fl).freeDraws = st.freeDraws + 1 := rfl

/-! ## An 8-bit register replaced -/

@[simp] theorem State.set8_a_a (st : State) (v : Byte) : (st.set8 .a v).a = v := rfl
@[simp] theorem State.set8_b_a (st : State) (v : Byte) : (st.set8 .b v).a = st.a := rfl
@[simp] theorem State.set8_cc_a (st : State) (v : Byte) : (st.set8 .cc v).a = st.a := rfl
@[simp] theorem State.set8_dp_a (st : State) (v : Byte) : (st.set8 .dp v).a = st.a := rfl
@[simp] theorem State.set8_a_b (st : State) (v : Byte) : (st.set8 .a v).b = st.b := rfl
@[simp] theorem State.set8_b_b (st : State) (v : Byte) : (st.set8 .b v).b = v := rfl
@[simp] theorem State.set8_cc_b (st : State) (v : Byte) : (st.set8 .cc v).b = st.b := rfl
@[simp] theorem State.set8_dp_b (st : State) (v : Byte) : (st.set8 .dp v).b = st.b := rfl
@[simp] theorem State.set8_a_dp (st : State) (v : Byte) : (st.set8 .a v).dp = st.dp := rfl
@[simp] theorem State.set8_b_dp (st : State) (v : Byte) : (st.set8 .b v).dp = st.dp := rfl
@[simp] theorem State.set8_cc_dp (st : State) (v : Byte) : (st.set8 .cc v).dp = st.dp := rfl
@[simp] theorem State.set8_dp_dp (st : State) (v : Byte) : (st.set8 .dp v).dp = v := rfl
@[simp] theorem State.set8_a_cc (st : State) (v : Byte) : (st.set8 .a v).cc = st.cc := rfl
@[simp] theorem State.set8_b_cc (st : State) (v : Byte) : (st.set8 .b v).cc = st.cc := rfl
@[simp] theorem State.set8_cc_cc (st : State) (v : Byte) : (st.set8 .cc v).cc = v := rfl
@[simp] theorem State.set8_dp_cc (st : State) (v : Byte) : (st.set8 .dp v).cc = st.cc := rfl
@[simp] theorem State.set8_x (st : State) (r : Reg8) (v : Byte) : (st.set8 r v).x = st.x := by cases r <;> rfl
@[simp] theorem State.set8_y (st : State) (r : Reg8) (v : Byte) : (st.set8 r v).y = st.y := by cases r <;> rfl
@[simp] theorem State.set8_u (st : State) (r : Reg8) (v : Byte) : (st.set8 r v).u = st.u := by cases r <;> rfl
@[simp] theorem State.set8_s (st : State) (r : Reg8) (v : Byte) : (st.set8 r v).s = st.s := by cases r <;> rfl
@[simp] theorem State.set8_pc (st : State) (r : Reg8) (v : Byte) : (st.set8 r v).pc = st.pc := by cases r <;> rfl
@[simp] theorem State.set8_mem (st : State) (r : Reg8) (v : Byte) : (st.set8 r v).mem = st.mem := by cases r <;> rfl
@[simp] theorem State.set8_freeDraws (st : State) (r : Reg8) (v : Byte) : (st.set8 r v).freeDraws = st.freeDraws := by cases r <;> rfl

/-! ## A 16-bit register replaced -/

@[simp] theorem State.set16_d_a (st : State) (v : Word) : (st.set16 .d v).a = hiByte v := rfl
@[simp] theorem State.set16_x_a (st : State) (v : Word) : (st.set16 .x v).a = st.a := rfl
@[simp] theorem State.set16_y_a (st : State) (v : Word) : (st.set16 .y v).a = st.a := rfl
@[simp] theorem State.set16_u_a (st : State) (v : Word) : (st.set16 .u v).a = st.a := rfl
@[simp] theorem State.set16_s_a (st : State) (v : Word) : (st.set16 .s v).a = st.a := rfl
@[simp] theorem State.set16_pc_a (st : State) (v : Word) : (st.set16 .pc v).a = st.a := rfl
@[simp] theorem State.set16_d_b (st : State) (v : Word) : (st.set16 .d v).b = loByte v := rfl
@[simp] theorem State.set16_x_b (st : State) (v : Word) : (st.set16 .x v).b = st.b := rfl
@[simp] theorem State.set16_y_b (st : State) (v : Word) : (st.set16 .y v).b = st.b := rfl
@[simp] theorem State.set16_u_b (st : State) (v : Word) : (st.set16 .u v).b = st.b := rfl
@[simp] theorem State.set16_s_b (st : State) (v : Word) : (st.set16 .s v).b = st.b := rfl
@[simp] theorem State.set16_pc_b (st : State) (v : Word) : (st.set16 .pc v).b = st.b := rfl
@[simp] theorem State.set16_dp (st : State) (r : Reg16) (v : Word) : (st.set16 r v).dp = st.dp := by cases r <;> rfl
@[simp] theorem State.set16_cc (st : State) (r : Reg16) (v : Word) : (st.set16 r v).cc = st.cc := by cases r <;> rfl
@[simp] theorem State.set16_d_x (st : State) (v : Word) : (st.set16 .d v).x = st.x := rfl
@[simp] theorem State.set16_x_x (st : State) (v : Word) : (st.set16 .x v).x = v := rfl
@[simp] theorem State.set16_y_x (st : State) (v : Word) : (st.set16 .y v).x = st.x := rfl
@[simp] theorem State.set16_u_x (st : State) (v : Word) : (st.set16 .u v).x = st.x := rfl
@[simp] theorem State.set16_s_x (st : State) (v : Word) : (st.set16 .s v).x = st.x := rfl
@[simp] theorem State.set16_pc_x (st : State) (v : Word) : (st.set16 .pc v).x = st.x := rfl
@[simp] theorem State.set16_d_y (st : State) (v : Word) : (st.set16 .d v).y = st.y := rfl
@[simp] theorem State.set16_x_y (st : State) (v : Word) : (st.set16 .x v).y = st.y := rfl
@[simp] theorem State.set16_y_y (st : State) (v : Word) : (st.set16 .y v).y = v := rfl
@[simp] theorem State.set16_u_y (st : State) (v : Word) : (st.set16 .u v).y = st.y := rfl
@[simp] theorem State.set16_s_y (st : State) (v : Word) : (st.set16 .s v).y = st.y := rfl
@[simp] theorem State.set16_pc_y (st : State) (v : Word) : (st.set16 .pc v).y = st.y := rfl
@[simp] theorem State.set16_d_u (st : State) (v : Word) : (st.set16 .d v).u = st.u := rfl
@[simp] theorem State.set16_x_u (st : State) (v : Word) : (st.set16 .x v).u = st.u := rfl
@[simp] theorem State.set16_y_u (st : State) (v : Word) : (st.set16 .y v).u = st.u := rfl
@[simp] theorem State.set16_u_u (st : State) (v : Word) : (st.set16 .u v).u = v := rfl
@[simp] theorem State.set16_s_u (st : State) (v : Word) : (st.set16 .s v).u = st.u := rfl
@[simp] theorem State.set16_pc_u (st : State) (v : Word) : (st.set16 .pc v).u = st.u := rfl
@[simp] theorem State.set16_d_s (st : State) (v : Word) : (st.set16 .d v).s = st.s := rfl
@[simp] theorem State.set16_x_s (st : State) (v : Word) : (st.set16 .x v).s = st.s := rfl
@[simp] theorem State.set16_y_s (st : State) (v : Word) : (st.set16 .y v).s = st.s := rfl
@[simp] theorem State.set16_u_s (st : State) (v : Word) : (st.set16 .u v).s = st.s := rfl
@[simp] theorem State.set16_s_s (st : State) (v : Word) : (st.set16 .s v).s = v := rfl
@[simp] theorem State.set16_pc_s (st : State) (v : Word) : (st.set16 .pc v).s = st.s := rfl
@[simp] theorem State.set16_d_pc (st : State) (v : Word) : (st.set16 .d v).pc = st.pc := rfl
@[simp] theorem State.set16_x_pc (st : State) (v : Word) : (st.set16 .x v).pc = st.pc := rfl
@[simp] theorem State.set16_y_pc (st : State) (v : Word) : (st.set16 .y v).pc = st.pc := rfl
@[simp] theorem State.set16_u_pc (st : State) (v : Word) : (st.set16 .u v).pc = st.pc := rfl
@[simp] theorem State.set16_s_pc (st : State) (v : Word) : (st.set16 .s v).pc = st.pc := rfl
@[simp] theorem State.set16_pc_pc (st : State) (v : Word) : (st.set16 .pc v).pc = v := rfl
@[simp] theorem State.set16_mem (st : State) (r : Reg16) (v : Word) : (st.set16 r v).mem = st.mem := by cases r <;> rfl
@[simp] theorem State.set16_freeDraws (st : State) (r : Reg16) (v : Word) : (st.set16 r v).freeDraws = st.freeDraws := by cases r <;> rfl

/-! ## Reading a register by its name -/

@[simp] theorem State.get8_a (st : State) : st.get8 .a = st.a := rfl
@[simp] theorem State.get8_b (st : State) : st.get8 .b = st.b := rfl
@[simp] theorem State.get8_cc (st : State) : st.get8 .cc = st.cc := rfl
@[simp] theorem State.get8_dp (st : State) : st.get8 .dp = st.dp := rfl
@[simp] theorem State.get16_d (st : State) : st.get16 .d = st.d := rfl
@[simp] theorem State.get16_x (st : State) : st.get16 .x = st.x := rfl
@[simp] theorem State.get16_y (st : State) : st.get16 .y = st.y := rfl
@[simp] theorem State.get16_u (st : State) : st.get16 .u = st.u := rfl
@[simp] theorem State.get16_s (st : State) : st.get16 .s = st.s := rfl
@[simp] theorem State.get16_pc (st : State) : st.get16 .pc = st.pc := rfl

/-! ## Words and their bytes -/

theorem toNat_mkWord (h l : Byte) : (mkWord h l).toNat = h.toNat * 256 + l.toNat := by
  have hl := l.isLt
  have e := Nat.two_pow_add_eq_or_of_lt hl h.toNat
  simp only [mkWord, BitVec.toNat_append, Nat.shiftLeft_eq]
  rw [Nat.mul_comm, ← e]

theorem toNat_hiByte (w : Word) : (hiByte w).toNat = w.toNat / 256 := by
  have := w.isLt
  simp only [hiByte, BitVec.extractLsb'_toNat, Nat.shiftRight_eq_div_pow]
  omega

theorem toNat_loByte (w : Word) : (loByte w).toNat = w.toNat % 256 := by
  simp [loByte, BitVec.extractLsb'_toNat]

@[simp] theorem hiByte_mkWord (h l : Byte) : hiByte (mkWord h l) = h := by
  have := h.isLt
  have := l.isLt
  apply BitVec.eq_of_toNat_eq
  rw [toNat_hiByte, toNat_mkWord]
  omega

@[simp] theorem loByte_mkWord (h l : Byte) : loByte (mkWord h l) = l := by
  have := l.isLt
  apply BitVec.eq_of_toNat_eq
  rw [toNat_loByte, toNat_mkWord]
  omega

@[simp] theorem mkWord_hiByte_loByte (w : Word) : mkWord (hiByte w) (loByte w) = w := by
  apply BitVec.eq_of_toNat_eq
  rw [toNat_mkWord, toNat_hiByte, toNat_loByte]
  omega

/-! ## The composite register D (R14) -/

@[simp] theorem State.d_set16_d (st : State) (v : Word) : (st.set16 .d v).d = v := by
  simp [State.d]

theorem State.d_eq (st : State) : st.d = mkWord st.a st.b := rfl

/-! ## What was written is what is read -/

@[simp] theorem State.get8_set8_same (st : State) (r : Reg8) (v : Byte) : (st.set8 r v).get8 r = v := by
  cases r <;> rfl

theorem State.get8_set8_other (st : State) (q r : Reg8) (v : Byte) (h : q ≠ r) :
    (st.set8 r v).get8 q = st.get8 q := by
  cases q <;> cases r <;> first | rfl | exact absurd rfl h

@[simp] theorem State.get16_set16_same (st : State) (r : Reg16) (v : Word) : (st.set16 r v).get16 r = v := by
  cases r <;> simp [State.get16]

theorem State.get16_set16_other (st : State) (q r : Reg16) (v : Word) (h : q ≠ r) :
    (st.set16 r v).get16 q = st.get16 q := by
  cases q <;> cases r <;> first | rfl | exact absurd rfl h

@[simp] theorem State.get16_withCc (st : State) (r : Reg16) (v : Byte) : (st.withCc v).get16 r = st.get16 r := by
  cases r <;> rfl

@[simp] theorem State.get16_withMem (st : State) (r : Reg16) (m : List Host.Cell) :
    (st.withMem m).get16 r = st.get16 r := by
  cases r <;> rfl

@[simp] theorem State.get8_withMem (st : State) (r : Reg8) (m : List Host.Cell) :
    (st.withMem m).get8 r = st.get8 r := by
  cases r <;> rfl

@[simp] theorem State.get8_withPc (st : State) (r : Reg8) (v : Word) : (st.withPc v).get8 r = st.get8 r := by
  cases r <;> rfl

@[simp] theorem State.get8_undefine_a (st : State) (fl : Flag) : (st.undefine fl).get8 .a = st.a := rfl

@[simp] theorem State.get8_undefine_b (st : State) (fl : Flag) : (st.undefine fl).get8 .b = st.b := rfl

/-! ## A byte of memory seen through the state -/

@[simp] theorem State.readByte_withCc (st : State) (v : Byte) (a : Word) : (st.withCc v).readByte a = st.readByte a := rfl

@[simp] theorem State.readByte_withPc (st : State) (v a : Word) : (st.withPc v).readByte a = st.readByte a := rfl

@[simp] theorem State.readByte_set8 (st : State) (r : Reg8) (v : Byte) (a : Word) :
    (st.set8 r v).readByte a = st.readByte a := by
  cases r <;> rfl

@[simp] theorem State.readByte_set16 (st : State) (r : Reg16) (v a : Word) :
    (st.set16 r v).readByte a = st.readByte a := by
  cases r <;> rfl

@[simp] theorem State.readByte_undefine (st : State) (fl : Flag) (a : Word) :
    (st.undefine fl).readByte a = st.readByte a := rfl

theorem State.memRead2_of_mem_eq (s t : State) (h : s.mem = t.mem) (n : Nat) : s.memRead2 n = t.memRead2 n := by
  simp [State.memRead2, h]

end Sys2Proof.Machine
end

