-- ==== Sys2Proof/Laws/Flags.lean ====
section
/-! SUPPORT. The laws of the flags of CC (10_state.md R19 to R27): reading after writing, and every flag writer of
Flags.lean as CC written out flag by flag. -/

namespace Sys2Proof.Machine

/-! ## One flag -/

@[simp] theorem getFlag_putFlag_same (fl : Flag) (b : Bool) (cc : Byte) : getFlag fl (putFlag fl b cc) = b := by
  cases fl <;> cases b <;> simp [getFlag, putFlag, Flag.bit]

theorem getFlag_putFlag_other (fl fl' : Flag) (b : Bool) (cc : Byte) (h : fl ≠ fl') :
    getFlag fl (putFlag fl' b cc) = getFlag fl cc := by
  cases fl <;> cases fl' <;> first | exact absurd rfl h | (cases b <;> simp [getFlag, putFlag, Flag.bit])

@[simp] theorem getFlag_and (fl : Flag) (a b : Byte) : getFlag fl (a &&& b) = (getFlag fl a && getFlag fl b) := by
  simp [getFlag]

@[simp] theorem getFlag_or (fl : Flag) (a b : Byte) : getFlag fl (a ||| b) = (getFlag fl a || getFlag fl b) := by
  simp [getFlag]

/-! ## CC as its eight flags -/

theorem packCc_flags : ∀ cc : Byte,
    packCc (getFlag .e cc) (getFlag .f cc) (getFlag .h cc) (getFlag .i cc) (getFlag .n cc) (getFlag .z cc)
      (getFlag .v cc) (getFlag .c cc) = cc := by
  decide

theorem flags_packCc : ∀ e f h i n z v c : Bool,
    (getFlag .e (packCc e f h i n z v c) = e ∧ getFlag .f (packCc e f h i n z v c) = f ∧
      getFlag .h (packCc e f h i n z v c) = h ∧ getFlag .i (packCc e f h i n z v c) = i) ∧
    (getFlag .n (packCc e f h i n z v c) = n ∧ getFlag .z (packCc e f h i n z v c) = z ∧
      getFlag .v (packCc e f h i n z v c) = v ∧ getFlag .c (packCc e f h i n z v c) = c) := by
  decide

@[simp] theorem getFlag_e_packCc (e f h i n z v c : Bool) : getFlag .e (packCc e f h i n z v c) = e :=
  (flags_packCc e f h i n z v c).1.1

@[simp] theorem getFlag_f_packCc (e f h i n z v c : Bool) : getFlag .f (packCc e f h i n z v c) = f :=
  (flags_packCc e f h i n z v c).1.2.1

@[simp] theorem getFlag_h_packCc (e f h i n z v c : Bool) : getFlag .h (packCc e f h i n z v c) = h :=
  (flags_packCc e f h i n z v c).1.2.2.1

@[simp] theorem getFlag_i_packCc (e f h i n z v c : Bool) : getFlag .i (packCc e f h i n z v c) = i :=
  (flags_packCc e f h i n z v c).1.2.2.2

@[simp] theorem getFlag_n_packCc (e f h i n z v c : Bool) : getFlag .n (packCc e f h i n z v c) = n :=
  (flags_packCc e f h i n z v c).2.1

@[simp] theorem getFlag_z_packCc (e f h i n z v c : Bool) : getFlag .z (packCc e f h i n z v c) = z :=
  (flags_packCc e f h i n z v c).2.2.1

@[simp] theorem getFlag_v_packCc (e f h i n z v c : Bool) : getFlag .v (packCc e f h i n z v c) = v :=
  (flags_packCc e f h i n z v c).2.2.2.1

@[simp] theorem getFlag_c_packCc (e f h i n z v c : Bool) : getFlag .c (packCc e f h i n z v c) = c :=
  (flags_packCc e f h i n z v c).2.2.2.2

/-- Two CC bytes with the same eight flags are equal. -/
theorem cc_ext (cc cc' : Byte) (h : ∀ fl, getFlag fl cc = getFlag fl cc') : cc = cc' := by
  rw [← packCc_flags cc, ← packCc_flags cc', h .e, h .f, h .h, h .i, h .n, h .z, h .v, h .c]

/-! ## The flag writers, flag by flag -/

theorem putFlag_packCc (fl : Flag) (b e f h i n z v c : Bool) :
    putFlag fl b (packCc e f h i n z v c) =
      packCc (if fl = .e then b else e) (if fl = .f then b else f) (if fl = .h then b else h) (if fl = .i then b else i)
        (if fl = .n then b else n) (if fl = .z then b else z) (if fl = .v then b else v) (if fl = .c then b else c) := by
  apply cc_ext
  intro fl'
  by_cases hf : fl' = fl
  · subst hf
    cases fl' <;> simp
  · rw [getFlag_putFlag_other _ _ _ _ hf]
    cases fl' <;> simp [Ne.symm hf]

theorem putNZV_packCc (n' z' v' e f h i n z v c : Bool) :
    putNZV n' z' v' (packCc e f h i n z v c) = packCc e f h i n' z' v' c := by
  simp [putNZV, putNZ, putFlag_packCc]

theorem putNZVC_packCc (n' z' v' c' e f h i n z v c : Bool) :
    putNZVC n' z' v' c' (packCc e f h i n z v c) = packCc e f h i n' z' v' c' := by
  simp [putNZVC, putFlag_packCc, putNZV_packCc]

theorem putNZC_packCc (n' z' c' e f h i n z v c : Bool) :
    putNZC n' z' c' (packCc e f h i n z v c) = packCc e f h i n' z' v c' := by
  simp [putNZC, putNZ, putFlag_packCc]

theorem State.cc_eq_packCc (s : State) :
    s.cc = packCc (s.flag .e) (s.flag .f) (s.flag .h) (s.flag .i) (s.flag .n) (s.flag .z) (s.flag .v) (s.flag .c) :=
  (packCc_flags s.cc).symm

theorem putNZV_eq_ccNZV (s : State) (n z v : Bool) : putNZV n z v s.cc = ccNZV s n z v := by
  rw [State.cc_eq_packCc, putNZV_packCc, ccNZV]

theorem putNZVC_eq_ccNZVC (s : State) (n z v c : Bool) : putNZVC n z v c s.cc = ccNZVC s n z v c := by
  rw [State.cc_eq_packCc, putNZVC_packCc, ccNZVC]

theorem putNZVC_putFlag_h_eq (s : State) (h n z v c : Bool) :
    putNZVC n z v c (putFlag .h h s.cc) = ccHNZVC s h n z v c := by
  rw [State.cc_eq_packCc s, putFlag_packCc]
  simp [putNZVC_packCc, ccHNZVC]

theorem putNZC_eq_ccNZC (s : State) (n z c : Bool) : putNZC n z c s.cc = ccNZC s n z c := by
  rw [State.cc_eq_packCc, putNZC_packCc, ccNZC]

theorem putLogic8_eq_ccNZV (s : State) (r : Byte) : putLogic8 r s.cc = ccNZV s r.msb (r == 0) false :=
  putNZV_eq_ccNZV s r.msb (r == 0) false

theorem putLogic16_eq_ccNZV (s : State) (r : Word) : putLogic16 r s.cc = ccNZV s r.msb (r == 0) false :=
  putNZV_eq_ccNZV s r.msb (r == 0) false

/-! ## The flags of a state after an update -/

@[simp] theorem State.flag_withCc (s : State) (fl : Flag) (cc : Byte) : (s.withCc cc).flag fl = getFlag fl cc := rfl

@[simp] theorem State.flag_withPc (s : State) (fl : Flag) (v : Word) : (s.withPc v).flag fl = s.flag fl := rfl

@[simp] theorem State.flag_withMem (s : State) (fl : Flag) (m : List Host.Cell) : (s.withMem m).flag fl = s.flag fl := rfl

@[simp] theorem State.flag_set16 (s : State) (fl : Flag) (r : Reg16) (v : Word) : (s.set16 r v).flag fl = s.flag fl := by
  cases r <;> rfl

end Sys2Proof.Machine
end

