-- ==== Sys2Proof/Laws/Alu.lean ====
section
/-! SUPPORT. The ALU over the integers: each result and flag of Flags.lean in the terms of Safety.lean (42_arithmetic.md
R120 to R123). -/

namespace Sys2Proof.Machine

/-! ## Sign bits and integers -/

theorem msb8 (b : Byte) : b.msb = decide (128 ≤ b.toNat) := by
  simp [BitVec.msb_eq_decide]

theorem msb16 (w : Word) : w.msb = decide (32768 ≤ w.toNat) := by
  simp [BitVec.msb_eq_decide]

theorem toInt8 (b : Byte) : b.toInt = if 128 ≤ b.toNat then (b.toNat : Int) - 256 else b.toNat := by
  rw [BitVec.toInt_eq_toNat_cond]
  split <;> split <;> omega

theorem toInt16 (w : Word) : w.toInt = if 32768 ≤ w.toNat then (w.toNat : Int) - 65536 else w.toNat := by
  rw [BitVec.toInt_eq_toNat_cond]
  split <;> split <;> omega

theorem toNat_ofInt8 (k : Int) : ((BitVec.ofInt 8 k).toNat : Int) = k % 256 := by
  rw [BitVec.toNat_ofInt]
  have := Int.emod_nonneg k (b := 256) (by decide)
  omega

theorem toNat_ofInt16 (k : Int) : ((BitVec.ofInt 16 k).toNat : Int) = k % 65536 := by
  rw [BitVec.toNat_ofInt]
  have := Int.emod_nonneg k (b := 65536) (by decide)
  omega

theorem ofInt8_eq_of_emod (j k : Int) (h : j % 256 = k % 256) : BitVec.ofInt 8 j = BitVec.ofInt 8 k := by
  apply BitVec.eq_of_toNat_eq
  have h1 := toNat_ofInt8 j
  have h2 := toNat_ofInt8 k
  omega

/-! ## 8-bit addition -/

@[simp] theorem add8_r (a b : Byte) (c : Bool) : (add8 a b c).r = sumByte a b c := rfl

@[simp] theorem add8_h (a b : Byte) (c : Bool) :
    (add8 a b c).h = decide (15 < a.toNat % 16 + b.toNat % 16 + c.toNat) := rfl

@[simp] theorem add8_n (a b : Byte) (c : Bool) : (add8 a b c).n = (sumByte a b c).msb := rfl

@[simp] theorem add8_z (a b : Byte) (c : Bool) : (add8 a b c).z = (sumByte a b c == 0) := rfl

@[simp] theorem add8_c (a b : Byte) (c : Bool) : (add8 a b c).c = decide (255 < a.toNat + b.toNat + c.toNat) := rfl

@[simp] theorem add8_v (a b : Byte) (c : Bool) :
    (add8 a b c).v = overflows8 (a.toInt + b.toInt + c.toNat) := by
  have ha := a.isLt
  have hb := b.isLt
  have hc : c.toNat ≤ 1 := by cases c <;> decide
  show (a.msb == b.msb && (sumByte a b c).msb != a.msb) = _
  rw [Bool.eq_iff_iff]
  simp only [msb8, overflows8, toInt8, sumByte, BitVec.toNat_ofNat, Bool.and_eq_true, beq_iff_eq, bne_iff_ne, ne_eq,
    decide_eq_decide, decide_eq_true_eq]
  split <;> split <;> omega

/-! ## 8-bit subtraction -/

@[simp] theorem sub8_r (a b : Byte) (c : Bool) : (sub8 a b c).r = diffByte a b c := by
  show BitVec.ofInt 8 ((a.toNat : Int) - b.toNat - c.toNat) = _
  apply ofInt8_eq_of_emod
  rw [toInt8, toInt8]
  split <;> split <;> omega

@[simp] theorem sub8_n (a b : Byte) (c : Bool) : (sub8 a b c).n = (diffByte a b c).msb := by
  rw [← sub8_r]
  rfl

@[simp] theorem sub8_z (a b : Byte) (c : Bool) : (sub8 a b c).z = (diffByte a b c == 0) := by
  rw [← sub8_r]
  rfl

@[simp] theorem sub8_c (a b : Byte) (c : Bool) : (sub8 a b c).c = decide (a.toNat < b.toNat + c.toNat) := by
  show decide ((a.toNat : Int) - b.toNat - c.toNat < 0) = _
  rw [decide_eq_decide]
  omega

@[simp] theorem sub8_v (a b : Byte) (c : Bool) :
    (sub8 a b c).v = overflows8 (a.toInt - b.toInt - c.toNat) := by
  have ha := a.isLt
  have hb := b.isLt
  have hc : c.toNat ≤ 1 := by cases c <;> decide
  have hr : (sub8 a b c).v = (a.msb != b.msb && (diffByte a b c).msb != a.msb) := by
    rw [← sub8_r]
    rfl
  have hd := toNat_ofInt8 (a.toInt - b.toInt - c.toNat)
  have hai := toInt8 a
  have hbi := toInt8 b
  rw [hr, Bool.eq_iff_iff]
  simp only [msb8, overflows8, diffByte, Bool.and_eq_true, bne_iff_ne, ne_eq, decide_eq_decide, decide_eq_true_eq]
  generalize (BitVec.ofInt 8 _).toNat = r at hd ⊢
  split at hai <;> split at hbi <;> omega

/-! ## 16 bits -/

@[simp] theorem add16_r (a b : Word) : (add16 a b).r = a + b := by
  apply BitVec.eq_of_toNat_eq
  simp [add16, BitVec.toNat_add]

@[simp] theorem add16_n (a b : Word) : (add16 a b).n = (a + b).msb := by
  rw [← add16_r]
  rfl

@[simp] theorem add16_z (a b : Word) : (add16 a b).z = (a + b == 0) := by
  rw [← add16_r]
  rfl

@[simp] theorem add16_c (a b : Word) : (add16 a b).c = decide (65535 < a.toNat + b.toNat) := rfl

@[simp] theorem add16_v (a b : Word) : (add16 a b).v = overflows16 (a.toInt + b.toInt) := by
  have ha := a.isLt
  have hb := b.isLt
  have hr : (add16 a b).v = (a.msb == b.msb && (a + b).msb != a.msb) := by
    rw [← add16_r]
    rfl
  rw [hr, Bool.eq_iff_iff]
  simp only [msb16, overflows16, toInt16, BitVec.toNat_add, Bool.and_eq_true, beq_iff_eq, bne_iff_ne, ne_eq,
    decide_eq_decide, decide_eq_true_eq]
  split <;> split <;> omega

@[simp] theorem sub16_r (a b : Word) : (sub16 a b).r = a - b := by
  have ha := a.isLt
  have hb := b.isLt
  apply BitVec.eq_of_toNat_eq
  have := toNat_ofInt16 ((a.toNat : Int) - b.toNat)
  simp only [sub16, BitVec.toNat_sub]
  omega

@[simp] theorem sub16_n (a b : Word) : (sub16 a b).n = (a - b).msb := by
  rw [← sub16_r]
  rfl

@[simp] theorem sub16_z (a b : Word) : (sub16 a b).z = (a - b == 0) := by
  rw [← sub16_r]
  rfl

@[simp] theorem sub16_c (a b : Word) : (sub16 a b).c = decide (a.toNat < b.toNat) := by
  show decide ((a.toNat : Int) - b.toNat < 0) = _
  rw [decide_eq_decide]
  omega

@[simp] theorem sub16_v (a b : Word) : (sub16 a b).v = overflows16 (a.toInt - b.toInt) := by
  have ha := a.isLt
  have hb := b.isLt
  have hr : (sub16 a b).v = (a.msb != b.msb && (a - b).msb != a.msb) := by
    rw [← sub16_r]
    rfl
  rw [hr, Bool.eq_iff_iff]
  simp only [msb16, overflows16, toInt16, BitVec.toNat_sub, Bool.and_eq_true, bne_iff_ne, ne_eq,
    decide_eq_decide, decide_eq_true_eq]
  split <;> split <;> omega

end Sys2Proof.Machine
end

