-- ==== Sys2Proof/Laws/Memory.lean ====
section
/-! SUPPORT. The laws of the memory: read after write, the canonical form and that every operation keeps it, and that
equal reads make equal memories (10_state.md R29, 20_memory.md R35 to R37). -/

namespace Sys2Proof.Machine

/-! ## Read after write -/

@[simp] theorem Memory.read_nil (b : Nat) : Memory.read [] b = Config.memDefault := rfl

theorem Memory.read_filter (m : List Host.Cell) (addr b : Nat) :
    Memory.read (m.filter fun c => c.1 != addr) b = if b = addr then Config.memDefault else Memory.read m b := by
  induction m with
  | nil => simp
  | cons c rest ih =>
    obtain ⟨k, w⟩ := c
    by_cases hk : k = addr
    · subst hk
      by_cases hb : b = k
      · subst hb
        simpa using ih
      · simp [ih, hb, Memory.read, Ne.symm hb]
    · simp only [List.filter_cons, bne_iff_ne, ne_eq, hk, not_false_eq_true, ↓reduceIte, Memory.read, ih]
      by_cases hb : b = addr
      · subst hb
        simp [hk]
      · simp [hb]

theorem Memory.read_cons (addr : Nat) (v : Byte) (rest : List Host.Cell) (b : Nat) :
    Memory.read (Memory.cons addr v rest) b = if b = addr then v else Memory.read rest b := by
  by_cases hv : v = Config.memDefault
  · simp [Memory.cons, hv, Memory.read_filter]
  · by_cases hb : b = addr
    · simp [Memory.cons, hv, hb, Memory.read]
    · simp [Memory.cons, hv, hb, Memory.read, Ne.symm hb]

/-- Read after write: the byte written, and every other byte as it was. -/
theorem Memory.read_write (m : List Host.Cell) (addr : Nat) (v : Byte) (b : Nat) :
    Memory.read (Memory.write m addr v) b = if b = addr then v else Memory.read m b := by
  induction m with
  | nil => simp [Memory.write, Memory.read_cons]
  | cons c rest ih =>
    obtain ⟨k, w⟩ := c
    simp only [Memory.write]
    by_cases h1 : addr < k
    · simp [h1, Memory.read_cons]
    · by_cases h2 : addr = k
      · subst h2
        by_cases hb : b = addr
        · simp [Memory.read_cons, hb]
        · simp [Memory.read_cons, hb, Memory.read, Ne.symm hb]
      · simp only [h1, h2, ↓reduceIte, Memory.read, ih]
        by_cases hb : b = addr
        · subst hb
          simp [Ne.symm h2]
        · simp [hb]

theorem Memory.read_write_same (m : List Host.Cell) (addr : Nat) (v : Byte) :
    Memory.read (Memory.write m addr v) addr = v := by
  simp [Memory.read_write]

theorem Memory.read_write_other (m : List Host.Cell) (addr b : Nat) (v : Byte) (h : b ≠ addr) :
    Memory.read (Memory.write m addr v) b = Memory.read m b := by
  simp [Memory.read_write, h]

/-! ## The canonical form -/

/-- What the canonical form says of a non-empty memory. -/
theorem Memory.wf_cons (k : Nat) (v : Byte) (rest : List Host.Cell) :
    Memory.wf ((k, v) :: rest) = true ↔
      k < Config.memSize ∧ v ≠ Config.memDefault ∧ (∀ c ∈ rest, k < c.1) ∧ Memory.wf rest = true := by
  simp only [Memory.wf, Bool.and_eq_true, decide_eq_true_eq, List.all_eq_true]
  tauto

theorem Memory.filter_eq_self_of_lt (m : List Host.Cell) (addr : Nat) (h : ∀ c ∈ m, addr < c.1) :
    (m.filter fun c => c.1 != addr) = m := by
  apply List.filter_eq_self.mpr
  intro c hc
  have := h c hc
  simp only [bne_iff_ne, ne_eq]
  omega

theorem Memory.wf_put (addr : Nat) (v : Byte) (rest : List Host.Cell) (ha : addr < Config.memSize)
    (h : Memory.wf rest = true) (hl : ∀ c ∈ rest, addr < c.1) : Memory.wf (Memory.cons addr v rest) = true := by
  by_cases hv : v = Config.memDefault
  · simp [Memory.cons, hv, Memory.filter_eq_self_of_lt rest addr hl, h]
  · simp only [Memory.cons, hv, ↓reduceIte]
    exact (Memory.wf_cons addr v rest).mpr ⟨ha, hv, hl, h⟩

theorem Memory.mem_put (addr : Nat) (v : Byte) (rest : List Host.Cell) (c : Host.Cell)
    (h : c ∈ Memory.cons addr v rest) : c.1 = addr ∨ c ∈ rest := by
  by_cases hv : v = Config.memDefault
  · simp only [Memory.cons, hv, ↓reduceIte, List.mem_filter] at h
    exact .inr h.1
  · simp only [Memory.cons, hv, ↓reduceIte, List.mem_cons] at h
    rcases h with rfl | h
    · exact .inl rfl
    · exact .inr h

theorem Memory.mem_write (m : List Host.Cell) (addr : Nat) (v : Byte) (c : Host.Cell)
    (h : c ∈ Memory.write m addr v) : c.1 = addr ∨ c ∈ m := by
  induction m with
  | nil => exact Memory.mem_put _ _ _ _ h
  | cons d rest ih =>
    obtain ⟨k, w⟩ := d
    simp only [Memory.write] at h
    split at h
    · exact Memory.mem_put _ _ _ _ h
    · split at h
      · rcases Memory.mem_put _ _ _ _ h with h | h
        · exact .inl h
        · exact .inr (List.mem_cons_of_mem _ h)
      · rcases List.mem_cons.mp h with rfl | h
        · exact .inr (List.mem_cons_self ..)
        · rcases ih h with h | h
          · exact .inl h
          · exact .inr (List.mem_cons_of_mem _ h)

/-- A write keeps the canonical form. -/
theorem Memory.wf_write (m : List Host.Cell) (addr : Nat) (v : Byte) (ha : addr < Config.memSize)
    (h : Memory.wf m = true) : Memory.wf (Memory.write m addr v) = true := by
  induction m with
  | nil => exact Memory.wf_put addr v [] ha rfl (by simp)
  | cons c rest ih =>
    obtain ⟨k, w⟩ := c
    obtain ⟨hk, hw, hl, hr⟩ := (Memory.wf_cons k w rest).mp h
    simp only [Memory.write]
    by_cases h1 : addr < k
    · simp only [h1, ↓reduceIte]
      apply Memory.wf_put addr v _ ha h
      intro c hc
      rcases List.mem_cons.mp hc with rfl | hc
      · exact h1
      · exact Nat.lt_trans h1 (hl c hc)
    · by_cases h2 : addr = k
      · subst h2
        simp only [Nat.lt_irrefl, ↓reduceIte]
        exact Memory.wf_put addr v rest ha hr hl
      · simp only [h1, h2, ↓reduceIte]
        refine (Memory.wf_cons k w _).mpr ⟨hk, hw, ?_, ih hr⟩
        intro c hc
        rcases Memory.mem_write rest addr v c hc with h3 | h3
        · omega
        · exact hl c h3

/-- An address below all that is listed reads as the default. -/
theorem Memory.read_of_lt (m : List Host.Cell) (b : Nat) (h : ∀ c ∈ m, b < c.1) :
    Memory.read m b = Config.memDefault := by
  induction m with
  | nil => rfl
  | cons c rest ih =>
    obtain ⟨k, w⟩ := c
    have hk : b < k := h (k, w) (List.mem_cons_self ..)
    have hne : ¬ k = b := by omega
    simp only [Memory.read, hne, ↓reduceIte]
    exact ih fun c hc => h c (List.mem_cons_of_mem _ hc)

/-- Two memories in the canonical form that read the same everywhere are equal. -/
theorem Memory.eq_of_read_eq (m m' : List Host.Cell) (h : Memory.wf m = true) (h' : Memory.wf m' = true)
    (e : ∀ b, Memory.read m b = Memory.read m' b) : m = m' := by
  induction m generalizing m' with
  | nil =>
    cases m' with
    | nil => rfl
    | cons c rest =>
      obtain ⟨k, w⟩ := c
      have hw := ((Memory.wf_cons k w rest).mp h').2.1
      exact absurd (by simpa [Memory.read] using (e k).symm) hw
  | cons c rest ih =>
    obtain ⟨k, w⟩ := c
    obtain ⟨-, hw, hl, hr⟩ := (Memory.wf_cons k w rest).mp h
    cases m' with
    | nil => exact absurd (by simpa [Memory.read] using e k) hw
    | cons c' rest' =>
      obtain ⟨k', w'⟩ := c'
      obtain ⟨-, hw', hl', hr'⟩ := (Memory.wf_cons k' w' rest').mp h'
      have hkk : k = k' := by
        rcases Nat.lt_trichotomy k k' with hlt | heq | hgt
        · have : Memory.read ((k', w') :: rest') k = Config.memDefault := by
            apply Memory.read_of_lt
            intro c hc
            rcases List.mem_cons.mp hc with rfl | hc
            · exact hlt
            · exact Nat.lt_trans hlt (hl' c hc)
          rw [← e k] at this
          exact absurd (by simpa [Memory.read] using this) hw
        · exact heq
        · have : Memory.read ((k, w) :: rest) k' = Config.memDefault := by
            apply Memory.read_of_lt
            intro c hc
            rcases List.mem_cons.mp hc with rfl | hc
            · exact hgt
            · exact Nat.lt_trans hgt (hl c hc)
          rw [e k'] at this
          exact absurd (by simpa [Memory.read] using this) hw'
      subst hkk
      have hww : w = w' := by simpa [Memory.read] using e k
      subst hww
      have htail : rest = rest' := by
        apply ih rest' hr hr'
        intro b
        by_cases hb : k = b
        · subst hb
          rw [Memory.read_of_lt rest k hl, Memory.read_of_lt rest' k hl']
        · simpa [Memory.read, hb] using e b
      rw [htail]

/-! ## The bus -/

theorem State.memRead1_lt (st : State) (addr : Nat) (h : addr < Config.memSize) :
    st.memRead1 addr = some (Memory.read st.mem addr) := by
  simp [State.memRead1, h]

/-- A word read at a 16-bit address fails at 0xFFFF only (R39). -/
theorem State.memRead2_none_word (st : State) (a : Word) (h : st.memRead2 a.toNat = none) : a = 0xFFFF := by
  by_contra hne
  have h1 := a.isLt
  have h2 : a.toNat ≠ 65535 := fun e => hne (BitVec.eq_of_toNat_eq e)
  have h3 : a.toNat + 1 < Config.memSize := by
    simp only [Config.memSize]
    omega
  simp [State.memRead2, h3] at h

theorem State.memRead2_top (st : State) : st.memRead2 (0xFFFF : Word).toNat = none := by
  simp [State.memRead2, Config.memSize]

theorem State.memRead2_word (st : State) (a : Word) (h : a ≠ 0xFFFF) :
    st.memRead2 a.toNat = some (mkWord (Memory.read st.mem a.toNat) (Memory.read st.mem (a.toNat + 1))) := by
  have h1 := a.isLt
  have h2 : a.toNat ≠ 65535 := fun e => h (BitVec.eq_of_toNat_eq e)
  have h3 : a.toNat + 1 < Config.memSize := by
    simp only [Config.memSize]
    omega
  simp [State.memRead2, h3]

/-- Below 0xFFFF a word is the two bytes at the address, high byte first (R35, R37). -/
theorem State.memRead2_bytes (st : State) (a : Word) (h : a ≠ 0xFFFF) :
    st.memRead2 a.toNat = some (mkWord (st.readByte a) (st.readByte (a + 1))) := by
  have h1 := a.isLt
  have h2 : a.toNat ≠ 65535 := fun e => h (BitVec.eq_of_toNat_eq e)
  have h3 : (a + 1).toNat = a.toNat + 1 := by
    rw [BitVec.toNat_add, show (1 : Word).toNat = 1 from rfl]
    omega
  rw [State.memRead2_word st a h, State.readByte, State.readByte, h3]

theorem State.readByte_writeByte (st : State) (a b : Word) (v : Byte) :
    (st.writeByte a v).readByte b = if b = a then v else st.readByte b := by
  simp only [State.writeByte, State.readByte, State.withMem_mem, Memory.read_write, BitVec.toNat_inj]

theorem State.wf_writeByte (st : State) (a : Word) (v : Byte) (h : Memory.wf st.mem = true) :
    Memory.wf (st.writeByte a v).mem = true :=
  Memory.wf_write _ _ _ a.isLt h

theorem State.wf_memWrite1 (st st' : State) (addr : Nat) (v : Byte) (e : st.memWrite1 addr v = some st')
    (h : Memory.wf st.mem = true) : Memory.wf st'.mem = true := by
  simp only [State.memWrite1] at e
  split at e
  · next ha =>
    obtain rfl := Option.some.inj e
    exact Memory.wf_write _ _ _ ha h
  · exact absurd e (by simp)

theorem State.wf_memWrite2 (st st' : State) (addr : Nat) (v : Word) (e : st.memWrite2 addr v = some st')
    (h : Memory.wf st.mem = true) : Memory.wf st'.mem = true := by
  simp only [State.memWrite2] at e
  split at e
  · next ha =>
    obtain rfl := Option.some.inj e
    exact Memory.wf_write _ _ _ ha (Memory.wf_write _ _ _ (by omega) h)
  · exact absurd e (by simp)

theorem State.wf_placeBytes (st : State) (addr : Nat) (bytes : List Byte) (h : Memory.wf st.mem = true) :
    Memory.wf (st.placeBytes addr bytes).mem = true := by
  induction bytes generalizing st addr with
  | nil => exact h
  | cons b rest ih =>
    simp only [State.placeBytes]
    split
    · next st' e => exact ih st' (addr + 1) (State.wf_memWrite1 st st' addr b e h)
    · exact h

theorem State.wf_load (st st' : State) (addr : Nat) (bytes : List Byte) (e : st.load addr bytes = some st')
    (h : Memory.wf st.mem = true) : Memory.wf st'.mem = true := by
  simp only [State.load] at e
  split at e
  · obtain rfl := Option.some.inj e
    exact State.wf_placeBytes st addr bytes h
  · exact absurd e (by simp)

/-! ## What writes to memory through the bus changes nothing else -/

theorem State.memWrite1_frame (st t : State) (addr : Nat) (v : Byte) (h : st.memWrite1 addr v = some t) :
    t = { st with mem := t.mem } := by
  simp only [State.memWrite1] at h
  split at h
  · cases h
    rfl
  · cases h

theorem State.memWrite2_frame (st t : State) (addr : Nat) (v : Word) (h : st.memWrite2 addr v = some t) :
    t = { st with mem := t.mem } := by
  simp only [State.memWrite2] at h
  split at h
  · cases h
    rfl
  · cases h

theorem State.placeBytes_frame (st : State) (addr : Nat) (bytes : List Byte) :
    st.placeBytes addr bytes = { st with mem := (st.placeBytes addr bytes).mem } := by
  induction bytes generalizing st addr with
  | nil => rfl
  | cons b rest ih =>
    simp only [State.placeBytes]
    split
    · next s' h =>
      have frame := State.memWrite1_frame st s' addr b h
      rw [ih s' (addr + 1), frame]
    · rfl

theorem State.load_frame (st t : State) (addr : Nat) (bytes : List Byte) (h : st.load addr bytes = some t) :
    t = { st with mem := t.mem } := by
  simp only [State.load] at h
  split at h
  · cases h
    exact State.placeBytes_frame st addr bytes
  · cases h

end Sys2Proof.Machine
end

