-- ==== Sys2Proof/Laws/Stack.lean ====
section
/-! SUPPORT. The stack primitives and the register lists, said once: a push of a list is a push of its bytes, a pull of a
list is one update of the state (20_memory.md R45 to R48, 44_transfer_stack.md R192). -/

namespace Sys2Proof.Machine

/-! ## One byte pushed -/

@[simp] theorem State.push8_mem (st : State) (p : Reg16) (v : Byte) :
    (st.push8 p v).mem = Memory.write st.mem (st.get16 p - 1).toNat v := by
  simp [State.push8, State.writeByte]

@[simp] theorem State.push8_freeDraws (st : State) (p : Reg16) (v : Byte) : (st.push8 p v).freeDraws = st.freeDraws := by
  simp [State.push8, State.writeByte]

theorem State.push8_get8 (st : State) (p : Reg16) (v : Byte) (q : Reg8) (h : p ≠ .d) :
    (st.push8 p v).get8 q = st.get8 q := by
  cases p <;> cases q <;> first | exact absurd rfl h | rfl

theorem State.push8_get16_same (st : State) (p : Reg16) (v : Byte) : (st.push8 p v).get16 p = st.get16 p - 1 := by
  simp [State.push8, State.writeByte]

theorem State.push8_get16_other (st : State) (p q : Reg16) (v : Byte) (h : q ≠ p) :
    (st.push8 p v).get16 q = st.get16 q := by
  simp [State.push8, State.writeByte, State.get16_set16_other _ _ _ _ h]

theorem State.push8_readByte (st : State) (p : Reg16) (v : Byte) (a : Word) :
    (st.push8 p v).readByte a = if a = st.get16 p - 1 then v else st.readByte a := by
  simp only [State.push8, State.readByte_writeByte, State.readByte_set16]

/-! ## A list of bytes pushed, the last one first -/

/-- Bytes pushed so that they lie in their order from the new stack pointer upward. -/
def State.pushBytes (st : State) (p : Reg16) : List Byte → State
  | [] => st
  | b :: rest => (State.pushBytes st p rest).push8 p b

theorem State.pushBytes_append (st : State) (p : Reg16) (xs ys : List Byte) :
    st.pushBytes p (xs ++ ys) = (st.pushBytes p ys).pushBytes p xs := by
  induction xs with
  | nil => rfl
  | cons b rest ih => simp [State.pushBytes, ih]

@[simp] theorem State.pushBytes_freeDraws (st : State) (p : Reg16) (bs : List Byte) :
    (st.pushBytes p bs).freeDraws = st.freeDraws := by
  induction bs with
  | nil => rfl
  | cons b rest ih => simp [State.pushBytes, ih]

theorem State.pushBytes_get8 (st : State) (p : Reg16) (bs : List Byte) (q : Reg8) (h : p ≠ .d) :
    (st.pushBytes p bs).get8 q = st.get8 q := by
  induction bs with
  | nil => rfl
  | cons b rest ih => rw [State.pushBytes, State.push8_get8 _ _ _ _ h, ih]

theorem State.pushBytes_get16_other (st : State) (p q : Reg16) (bs : List Byte) (h : q ≠ p) :
    (st.pushBytes p bs).get16 q = st.get16 q := by
  induction bs with
  | nil => rfl
  | cons b rest ih => rw [State.pushBytes, State.push8_get16_other _ _ _ _ h, ih]

theorem State.pushBytes_get16_same (st : State) (p : Reg16) (bs : List Byte) :
    (st.pushBytes p bs).get16 p = st.get16 p - BitVec.ofNat 16 bs.length := by
  induction bs with
  | nil => simp [State.pushBytes]
  | cons b rest ih =>
    rw [State.pushBytes, State.push8_get16_same, ih, List.length_cons]
    have h1 : (1 : Word).toNat = 1 := rfl
    apply BitVec.eq_of_toNat_eq
    simp only [BitVec.toNat_sub, BitVec.toNat_ofNat, h1]
    omega

/-- Pushed bytes lie from the new stack pointer upward and every other byte is as it was. -/
theorem State.pushBytes_stored (st : State) (p : Reg16) (bs : List Byte) (hn : bs.length ≤ 65536) :
    StoredFrom (st.pushBytes p bs).mem st.mem (st.get16 p - BitVec.ofNat 16 bs.length) bs := by
  induction bs with
  | nil => exact ⟨fun k h => absurd h (by simp), fun a _ => rfl⟩
  | cons b rest ih =>
    have hn' : rest.length + 1 ≤ 65536 := by simpa using hn
    obtain ⟨h1, h2⟩ := ih (by omega)
    have hsp : (st.pushBytes p rest).get16 p - 1 = st.get16 p - BitVec.ofNat 16 (rest.length + 1) := by
      rw [State.pushBytes_get16_same]
      have h1 : (1 : Word).toNat = 1 := rfl
      apply BitVec.eq_of_toNat_eq
      simp only [BitVec.toNat_sub, BitVec.toNat_ofNat, h1]
      omega
    have hmem : (st.pushBytes p (b :: rest)).mem =
        Memory.write (st.pushBytes p rest).mem (st.get16 p - BitVec.ofNat 16 (rest.length + 1)).toNat b := by
      rw [State.pushBytes, State.push8_mem, hsp]
    have hshift : ∀ k, st.get16 p - BitVec.ofNat 16 (rest.length + 1) + BitVec.ofNat 16 (k + 1) =
        st.get16 p - BitVec.ofNat 16 rest.length + BitVec.ofNat 16 k := by
      intro k
      apply BitVec.eq_of_toNat_eq
      simp only [BitVec.toNat_add, BitVec.toNat_sub, BitVec.toNat_ofNat]
      omega
    simp only [List.length_cons]
    constructor
    · intro k hk
      rw [hmem, Memory.read_write]
      cases k with
      | zero => simp
      | succ k =>
        have hk' : k < rest.length := by simpa using hk
        rw [hshift, h1 k hk']
        have hne : (st.get16 p - BitVec.ofNat 16 rest.length + BitVec.ofNat 16 k).toNat ≠
            (st.get16 p - BitVec.ofNat 16 (rest.length + 1)).toNat := by
          have hsp := (st.get16 p).isLt
          simp only [BitVec.toNat_add, BitVec.toNat_sub, BitVec.toNat_ofNat]
          omega
        rw [if_neg hne]
        rfl
    · intro a ha
      have h0 := ha 0 (by simp)
      have hne : a.toNat ≠ (st.get16 p - BitVec.ofNat 16 (rest.length + 1)).toNat := by
        intro e
        exact h0 (by simpa using BitVec.eq_of_toNat_eq e)
      rw [hmem, Memory.read_write_other _ _ _ _ hne]
      apply h2
      intro k hk
      rw [← hshift]
      exact ha (k + 1) (by simpa using hk)

/-- A word pushed is its two bytes pushed. -/
theorem State.push16_eq (st : State) (p : Reg16) (v : Word) : st.push16 p v = st.pushBytes p [hiByte v, loByte v] := rfl

theorem State.pushReg16_pushBytes (st : State) (sel : Bool) (p r : Reg16) (bs : List Byte) (h : r ≠ p) :
    (st.pushBytes p bs).pushReg16 sel p r =
      st.pushBytes p ((if sel then [hiByte (st.get16 r), loByte (st.get16 r)] else []) ++ bs) := by
  cases sel
  · simp [State.pushReg16]
  · simp only [State.pushReg16, ↓reduceIte, State.push16_eq, State.pushBytes_get16_other _ _ _ _ h,
      State.pushBytes_append]

theorem State.pushReg8_pushBytes (st : State) (sel : Bool) (p : Reg16) (r : Reg8) (bs : List Byte) (h : p ≠ .d) :
    (st.pushBytes p bs).pushReg8 sel p r = st.pushBytes p ((if sel then [st.get8 r] else []) ++ bs) := by
  cases sel
  · simp [State.pushReg8]
  · simp [State.pushReg8, State.pushBytes_get8 _ _ _ _ h, State.pushBytes]

/-- A push of a register list is a push of its bytes (R192, R193, R195). -/
theorem State.pushList_eq (st : State) (p other : Reg16) (list : Byte) (hd : p ≠ .d) (hx : p ≠ .x) (hy : p ≠ .y)
    (hpc : p ≠ .pc) (ho : other ≠ p) :
    st.pushList p other list = st.pushBytes p (stackImage st (st.get16 other) list) := by
  have h0 : st = st.pushBytes p [] := rfl
  unfold State.pushList
  conv => lhs; rw [h0]
  simp only [State.pushReg16_pushBytes _ _ _ _ _ (Ne.symm hpc), State.pushReg16_pushBytes _ _ _ _ _ ho,
    State.pushReg16_pushBytes _ _ _ _ _ (Ne.symm hy), State.pushReg16_pushBytes _ _ _ _ _ (Ne.symm hx),
    State.pushReg8_pushBytes _ _ _ _ _ hd]
  simp [stackImage]

theorem length_ite_one (b : Bool) (v : Byte) : (if b then [v] else []).length = b.toNat := by
  cases b <;> rfl

theorem length_ite_two (b : Bool) (v w : Byte) : (if b then [v, w] else []).length = 2 * b.toNat := by
  cases b <;> rfl

theorem stackImage_length (s : State) (other : Word) (list : Byte) :
    (stackImage s other list).length = listBytes list := by
  simp only [stackImage, listBytes, List.length_append, length_ite_one, length_ite_two]
  omega

theorem listBytes_le (list : Byte) : listBytes list ≤ 12 := by
  have h : ∀ b : Bool, b.toNat ≤ 1 := by decide
  have h0 := h (list.getLsbD 0)
  have h1 := h (list.getLsbD 1)
  have h2 := h (list.getLsbD 2)
  have h3 := h (list.getLsbD 3)
  have h4 := h (list.getLsbD 4)
  have h5 := h (list.getLsbD 5)
  have h6 := h (list.getLsbD 6)
  have h7 := h (list.getLsbD 7)
  simp only [listBytes]
  omega

/-! ## The whole state after a push of bytes -/

theorem State.ext_get (s t : State) (h8 : ∀ r, s.get8 r = t.get8 r) (hx : s.x = t.x) (hy : s.y = t.y) (hu : s.u = t.u)
    (hs : s.s = t.s) (hpc : s.pc = t.pc) (hm : s.mem = t.mem) (hf : s.freeDraws = t.freeDraws) : s = t := by
  have ha := h8 .a
  have hb := h8 .b
  have hc := h8 .cc
  have hd := h8 .dp
  cases s
  cases t
  simp_all [State.get8]

theorem State.pushBytes_s (st : State) (bs : List Byte) :
    st.pushBytes .s bs = { st with s := st.s - BitVec.ofNat 16 bs.length, mem := (st.pushBytes .s bs).mem } := by
  apply State.ext_get
  · intro r
    rw [State.pushBytes_get8 _ _ _ _ (by decide)]
    cases r <;> rfl
  · exact State.pushBytes_get16_other st .s .x bs (by decide)
  · exact State.pushBytes_get16_other st .s .y bs (by decide)
  · exact State.pushBytes_get16_other st .s .u bs (by decide)
  · exact State.pushBytes_get16_same st .s bs
  · exact State.pushBytes_get16_other st .s .pc bs (by decide)
  · rfl
  · exact State.pushBytes_freeDraws st .s bs

theorem State.pushBytes_u (st : State) (bs : List Byte) :
    st.pushBytes .u bs = { st with u := st.u - BitVec.ofNat 16 bs.length, mem := (st.pushBytes .u bs).mem } := by
  apply State.ext_get
  · intro r
    rw [State.pushBytes_get8 _ _ _ _ (by decide)]
    cases r <;> rfl
  · exact State.pushBytes_get16_other st .u .x bs (by decide)
  · exact State.pushBytes_get16_other st .u .y bs (by decide)
  · exact State.pushBytes_get16_same st .u bs
  · exact State.pushBytes_get16_other st .u .s bs (by decide)
  · exact State.pushBytes_get16_other st .u .pc bs (by decide)
  · rfl
  · exact State.pushBytes_freeDraws st .u bs

/-! ## The canonical form of the memory -/

theorem State.wf_push8 (st : State) (p : Reg16) (v : Byte) (h : Memory.wf st.mem = true) :
    Memory.wf (st.push8 p v).mem = true := by
  rw [State.push8_mem]
  exact Memory.wf_write _ _ _ (BitVec.isLt _) h

theorem State.wf_pushBytes (st : State) (p : Reg16) (bs : List Byte) (h : Memory.wf st.mem = true) :
    Memory.wf (st.pushBytes p bs).mem = true := by
  induction bs with
  | nil => exact h
  | cons b rest ih => exact State.wf_push8 _ _ _ ih

/-! ## Pulls -/

@[simp] theorem State.drop8_mem (st : State) (p : Reg16) : (st.drop8 p).mem = st.mem := by
  simp [State.drop8]

@[simp] theorem State.drop16_mem (st : State) (p : Reg16) : (st.drop16 p).mem = st.mem := by
  simp [State.drop16]

@[simp] theorem State.pullReg8_mem (st : State) (sel : Bool) (p : Reg16) (r : Reg8) :
    (st.pullReg8 sel p r).mem = st.mem := by
  cases sel <;> simp [State.pullReg8]

@[simp] theorem State.pullReg16_mem (st : State) (sel : Bool) (p r : Reg16) : (st.pullReg16 sel p r).mem = st.mem := by
  cases sel <;> simp [State.pullReg16]

@[simp] theorem State.pullList_mem (st : State) (p other : Reg16) (list : Byte) :
    (st.pullList p other list).mem = st.mem := by
  simp [State.pullList]

@[simp] theorem State.leaveInterrupt_mem (st : State) : st.leaveInterrupt.mem = st.mem := by
  unfold State.leaveInterrupt
  simp only [State.pullList_mem]
  split <;> simp

/-! ## A pull of a register list is one update of the state -/

theorem listBytes_eq (list : Byte) :
    listBytes list = (list.getLsbD 0).toNat + (list.getLsbD 1).toNat + (list.getLsbD 2).toNat + (list.getLsbD 3).toNat +
      2 * (list.getLsbD 4).toNat + 2 * (list.getLsbD 5).toNat + 2 * (list.getLsbD 6).toNat +
      2 * (list.getLsbD 7).toNat := by
  simp only [listBytes]
  omega

theorem stackOffset_one : ∀ list : Byte, stackOffset list 1 =
    BitVec.ofNat 16 ((list.getLsbD 0).toNat) := by
  decide

theorem stackOffset_two : ∀ list : Byte, stackOffset list 2 =
    BitVec.ofNat 16 ((list.getLsbD 0).toNat + (list.getLsbD 1).toNat) := by
  decide

theorem stackOffset_three : ∀ list : Byte, stackOffset list 3 =
    BitVec.ofNat 16 ((list.getLsbD 0).toNat + (list.getLsbD 1).toNat + (list.getLsbD 2).toNat) := by
  decide

theorem stackOffset_four : ∀ list : Byte, stackOffset list 4 =
    BitVec.ofNat 16 ((list.getLsbD 0).toNat + (list.getLsbD 1).toNat + (list.getLsbD 2).toNat +
      (list.getLsbD 3).toNat) := by
  decide

theorem stackOffset_five : ∀ list : Byte, stackOffset list 5 =
    BitVec.ofNat 16 ((list.getLsbD 0).toNat + (list.getLsbD 1).toNat + (list.getLsbD 2).toNat +
      (list.getLsbD 3).toNat + 2 * (list.getLsbD 4).toNat) := by
  decide

theorem stackOffset_six : ∀ list : Byte, stackOffset list 6 =
    BitVec.ofNat 16 ((list.getLsbD 0).toNat + (list.getLsbD 1).toNat + (list.getLsbD 2).toNat +
      (list.getLsbD 3).toNat + 2 * (list.getLsbD 4).toNat + 2 * (list.getLsbD 5).toNat) := by
  decide

theorem stackOffset_seven : ∀ list : Byte, stackOffset list 7 =
    BitVec.ofNat 16 ((list.getLsbD 0).toNat + (list.getLsbD 1).toNat + (list.getLsbD 2).toNat +
      (list.getLsbD 3).toNat + 2 * (list.getLsbD 4).toNat + 2 * (list.getLsbD 5).toNat + 2 * (list.getLsbD 6).toNat) := by
  decide

theorem State.pullReg8_s_cc (st : State) (sel : Bool) :
    st.pullReg8 sel .s .cc =
      { st with cc := if sel then st.readByte st.s else st.cc, s := st.s + BitVec.ofNat 16 sel.toNat } := by
  cases sel
  · simp [State.pullReg8]
  · rfl

theorem State.pullReg8_s_a (st : State) (sel : Bool) :
    st.pullReg8 sel .s .a =
      { st with a := if sel then st.readByte st.s else st.a, s := st.s + BitVec.ofNat 16 sel.toNat } := by
  cases sel
  · simp [State.pullReg8]
  · rfl

theorem State.pullReg8_s_b (st : State) (sel : Bool) :
    st.pullReg8 sel .s .b =
      { st with b := if sel then st.readByte st.s else st.b, s := st.s + BitVec.ofNat 16 sel.toNat } := by
  cases sel
  · simp [State.pullReg8]
  · rfl

theorem State.pullReg8_s_dp (st : State) (sel : Bool) :
    st.pullReg8 sel .s .dp =
      { st with dp := if sel then st.readByte st.s else st.dp, s := st.s + BitVec.ofNat 16 sel.toNat } := by
  cases sel
  · simp [State.pullReg8]
  · rfl

theorem State.pullReg16_s_x (st : State) (sel : Bool) :
    st.pullReg16 sel .s .x =
      { st with x := if sel then stackWord st st.s else st.x, s := st.s + BitVec.ofNat 16 (2 * sel.toNat) } := by
  cases sel
  · simp [State.pullReg16]
  · have h : st.s + 1 + 1 = st.s + 2 := by rw [BitVec.add_assoc]; rfl
    simp only [State.pullReg16, ↓reduceIte, State.drop16, State.drop8, State.set16, State.get16, h]
    rfl

theorem State.pullReg16_s_y (st : State) (sel : Bool) :
    st.pullReg16 sel .s .y =
      { st with y := if sel then stackWord st st.s else st.y, s := st.s + BitVec.ofNat 16 (2 * sel.toNat) } := by
  cases sel
  · simp [State.pullReg16]
  · have h : st.s + 1 + 1 = st.s + 2 := by rw [BitVec.add_assoc]; rfl
    simp only [State.pullReg16, ↓reduceIte, State.drop16, State.drop8, State.set16, State.get16, h]
    rfl

theorem State.pullReg16_s_u (st : State) (sel : Bool) :
    st.pullReg16 sel .s .u =
      { st with u := if sel then stackWord st st.s else st.u, s := st.s + BitVec.ofNat 16 (2 * sel.toNat) } := by
  cases sel
  · simp [State.pullReg16]
  · have h : st.s + 1 + 1 = st.s + 2 := by rw [BitVec.add_assoc]; rfl
    simp only [State.pullReg16, ↓reduceIte, State.drop16, State.drop8, State.set16, State.get16, h]
    rfl

theorem State.pullReg16_s_pc (st : State) (sel : Bool) :
    st.pullReg16 sel .s .pc =
      { st with pc := if sel then stackWord st st.s else st.pc, s := st.s + BitVec.ofNat 16 (2 * sel.toNat) } := by
  cases sel
  · simp [State.pullReg16]
  · have h : st.s + 1 + 1 = st.s + 2 := by rw [BitVec.add_assoc]; rfl
    simp only [State.pullReg16, ↓reduceIte, State.drop16, State.drop8, State.set16, State.get16, h]
    rfl

/-- A pull of a register list from S, bit 6 naming U (R192, R194). -/
theorem State.pullList_s (st : State) (list : Byte) :
    st.pullList .s .u list =
      { st with
        cc := if list.getLsbD 0 then st.readByte st.s else st.cc
        a := if list.getLsbD 1 then st.readByte (st.s + stackOffset list 1) else st.a
        b := if list.getLsbD 2 then st.readByte (st.s + stackOffset list 2) else st.b
        dp := if list.getLsbD 3 then st.readByte (st.s + stackOffset list 3) else st.dp
        x := if list.getLsbD 4 then stackWord st (st.s + stackOffset list 4) else st.x
        y := if list.getLsbD 5 then stackWord st (st.s + stackOffset list 5) else st.y
        u := if list.getLsbD 6 then stackWord st (st.s + stackOffset list 6) else st.u
        pc := if list.getLsbD 7 then stackWord st (st.s + stackOffset list 7) else st.pc
        s := st.s + BitVec.ofNat 16 (listBytes list) } := by
  simp only [State.pullList, State.pullReg8_s_cc, State.pullReg8_s_a, State.pullReg8_s_b, State.pullReg8_s_dp,
    State.pullReg16_s_x, State.pullReg16_s_y, State.pullReg16_s_u, State.pullReg16_s_pc, stackOffset_one,
    stackOffset_two, stackOffset_three, stackOffset_four, stackOffset_five, stackOffset_six, stackOffset_seven,
    listBytes_eq, BitVec.ofNat_add, ← BitVec.add_assoc]
  rfl

theorem State.pullReg8_u_cc (st : State) (sel : Bool) :
    st.pullReg8 sel .u .cc =
      { st with cc := if sel then st.readByte st.u else st.cc, u := st.u + BitVec.ofNat 16 sel.toNat } := by
  cases sel
  · simp [State.pullReg8]
  · rfl

theorem State.pullReg8_u_a (st : State) (sel : Bool) :
    st.pullReg8 sel .u .a =
      { st with a := if sel then st.readByte st.u else st.a, u := st.u + BitVec.ofNat 16 sel.toNat } := by
  cases sel
  · simp [State.pullReg8]
  · rfl

theorem State.pullReg8_u_b (st : State) (sel : Bool) :
    st.pullReg8 sel .u .b =
      { st with b := if sel then st.readByte st.u else st.b, u := st.u + BitVec.ofNat 16 sel.toNat } := by
  cases sel
  · simp [State.pullReg8]
  · rfl

theorem State.pullReg8_u_dp (st : State) (sel : Bool) :
    st.pullReg8 sel .u .dp =
      { st with dp := if sel then st.readByte st.u else st.dp, u := st.u + BitVec.ofNat 16 sel.toNat } := by
  cases sel
  · simp [State.pullReg8]
  · rfl

theorem State.pullReg16_u_x (st : State) (sel : Bool) :
    st.pullReg16 sel .u .x =
      { st with x := if sel then stackWord st st.u else st.x, u := st.u + BitVec.ofNat 16 (2 * sel.toNat) } := by
  cases sel
  · simp [State.pullReg16]
  · have h : st.u + 1 + 1 = st.u + 2 := by rw [BitVec.add_assoc]; rfl
    simp only [State.pullReg16, ↓reduceIte, State.drop16, State.drop8, State.set16, State.get16, h]
    rfl

theorem State.pullReg16_u_y (st : State) (sel : Bool) :
    st.pullReg16 sel .u .y =
      { st with y := if sel then stackWord st st.u else st.y, u := st.u + BitVec.ofNat 16 (2 * sel.toNat) } := by
  cases sel
  · simp [State.pullReg16]
  · have h : st.u + 1 + 1 = st.u + 2 := by rw [BitVec.add_assoc]; rfl
    simp only [State.pullReg16, ↓reduceIte, State.drop16, State.drop8, State.set16, State.get16, h]
    rfl

theorem State.pullReg16_u_s (st : State) (sel : Bool) :
    st.pullReg16 sel .u .s =
      { st with s := if sel then stackWord st st.u else st.s, u := st.u + BitVec.ofNat 16 (2 * sel.toNat) } := by
  cases sel
  · simp [State.pullReg16]
  · have h : st.u + 1 + 1 = st.u + 2 := by rw [BitVec.add_assoc]; rfl
    simp only [State.pullReg16, ↓reduceIte, State.drop16, State.drop8, State.set16, State.get16, h]
    rfl

theorem State.pullReg16_u_pc (st : State) (sel : Bool) :
    st.pullReg16 sel .u .pc =
      { st with pc := if sel then stackWord st st.u else st.pc, u := st.u + BitVec.ofNat 16 (2 * sel.toNat) } := by
  cases sel
  · simp [State.pullReg16]
  · have h : st.u + 1 + 1 = st.u + 2 := by rw [BitVec.add_assoc]; rfl
    simp only [State.pullReg16, ↓reduceIte, State.drop16, State.drop8, State.set16, State.get16, h]
    rfl

/-- A pull of a register list from U, bit 6 naming S (R192, R196). -/
theorem State.pullList_u (st : State) (list : Byte) :
    st.pullList .u .s list =
      { st with
        cc := if list.getLsbD 0 then st.readByte st.u else st.cc
        a := if list.getLsbD 1 then st.readByte (st.u + stackOffset list 1) else st.a
        b := if list.getLsbD 2 then st.readByte (st.u + stackOffset list 2) else st.b
        dp := if list.getLsbD 3 then st.readByte (st.u + stackOffset list 3) else st.dp
        x := if list.getLsbD 4 then stackWord st (st.u + stackOffset list 4) else st.x
        y := if list.getLsbD 5 then stackWord st (st.u + stackOffset list 5) else st.y
        s := if list.getLsbD 6 then stackWord st (st.u + stackOffset list 6) else st.s
        pc := if list.getLsbD 7 then stackWord st (st.u + stackOffset list 7) else st.pc
        u := st.u + BitVec.ofNat 16 (listBytes list) } := by
  simp only [State.pullList, State.pullReg8_u_cc, State.pullReg8_u_a, State.pullReg8_u_b, State.pullReg8_u_dp,
    State.pullReg16_u_x, State.pullReg16_u_y, State.pullReg16_u_s, State.pullReg16_u_pc, stackOffset_one,
    stackOffset_two, stackOffset_three, stackOffset_four, stackOffset_five, stackOffset_six, stackOffset_seven,
    listBytes_eq, BitVec.ofNat_add, ← BitVec.add_assoc]
  rfl

end Sys2Proof.Machine
end

