-- ==== Sys2Proof/Laws/Calls.lean ====
section
/-! SUPPORT. Calls, returns, taking a software interrupt and returning from one: one equation for each operation
(45_branch_jump.md R230, R234; 60_exceptions.md R251, R252). -/

namespace Sys2Proof.Machine

/-- A call pushes PC and jumps (R230). -/
theorem callTo_eq (target : Word) (s : State) :
    callTo target s = { s with
      s := s.s - 2, pc := target, mem := (s.pushBytes .s [hiByte s.pc, loByte s.pc]).mem } := by
  rw [callTo, State.push16_eq, State.pushBytes_s]
  rfl

/-- What a call leaves in memory (R46, R230). -/
theorem callTo_stored (target : Word) (s : State) :
    StoredFrom (callTo target s).mem s.mem (s.s - 2) [hiByte s.pc, loByte s.pc] := by
  rw [callTo_eq]
  exact s.pushBytes_stored .s [hiByte s.pc, loByte s.pc] (by simp)

/-- A return pulls PC (R234). -/
theorem returnOp_eq (s : State) : returnOp s = { s with pc := stackWord s s.s, s := s.s + 2 } := by
  have e : (s.s + 1 + 1 : Word) = s.s + 2 := by
    apply BitVec.eq_of_toNat_eq
    simp [BitVec.toNat_add]
  simp only [returnOp, State.drop16, State.drop8, State.pulled16, State.pulled8, State.set16, State.get16, State.withPc,
    stackWord, e]
  rfl

/-- Taking a software interrupt: the frame below S, E set, I and F set if `mask`, PC from the vector word as it reads
after the pushes (R251). -/
theorem State.enterInterrupt_eq (s : State) (vector : Word) (mask : Bool) :
    let entered := s.withCc (putFlag .e true s.cc)
    let pushed := entered.pushBytes .s (interruptFrame s s.pc)
    s.enterInterrupt vector mask = { s with
      cc := packCc true (s.flag .f || mask) (s.flag .h) (s.flag .i || mask) (s.flag .n) (s.flag .z) (s.flag .v)
        (s.flag .c)
      s := s.s - 12
      pc := mkWord (Memory.read pushed.mem vector.toNat) (Memory.read pushed.mem (vector + 1).toNat)
      mem := pushed.mem } := by
  intro entered pushed
  have hcc : putFlag .e true s.cc =
      packCc true (s.flag .f) (s.flag .h) (s.flag .i) (s.flag .n) (s.flag .z) (s.flag .v) (s.flag .c) := by
    rw [State.cc_eq_packCc s, putFlag_packCc]
    rfl
  have himage : stackImage entered s.u 0xFF = interruptFrame s s.pc := by
    simp only [entered]
    rw [hcc]
    rfl
  have hpush : entered.pushList .s .u 0xFF = pushed := by
    rw [State.pushList_eq entered .s .u 0xFF (by decide) (by decide) (by decide) (by decide) (by decide)]
    show entered.pushBytes .s (stackImage entered s.u 0xFF) = _
    rw [himage]
  have hpushed : pushed = { entered with s := s.s - 12, mem := pushed.mem } := entered.pushBytes_s _
  rw [State.enterInterrupt]
  show State.withPc (if mask then _ else entered.pushList .s .u 0xFF) _ = _
  rw [hpush]
  cases mask
  · simp only [Bool.false_eq_true, ↓reduceIte, Bool.or_false]
    rw [← hcc, hpushed]
    rfl
  · simp only [↓reduceIte, Bool.or_true]
    have h2 : putFlag .i true (putFlag .f true entered.cc) =
        packCc true true (s.flag .h) true (s.flag .n) (s.flag .z) (s.flag .v) (s.flag .c) := by
      simp only [entered, State.withCc_cc]
      rw [hcc, putFlag_packCc, putFlag_packCc]
      rfl
    rw [← h2, hpushed]
    rfl

/-- The frame a software interrupt leaves in memory (R236, R251). -/
theorem State.enterInterrupt_stored (s : State) :
    StoredFrom ((s.withCc (putFlag .e true s.cc)).pushBytes .s (interruptFrame s s.pc)).mem s.mem (s.s - 12)
      (interruptFrame s s.pc) :=
  (s.withCc (putFlag .e true s.cc)).pushBytes_stored .s (interruptFrame s s.pc) (by simp [interruptFrame])

/-! ## Return from interrupt -/

theorem State.pullList_cc (s : State) :
    s.pullList .s .u 0x01 = { s with cc := s.readByte s.s, s := s.s + 1 } := by
  rw [State.pullList_s, show listBytes 0x01 = 1 by decide]
  rfl

theorem State.pullList_pc (s : State) :
    s.pullList .s .u 0x80 = { s with pc := stackWord s s.s, s := s.s + 2 } := by
  rw [State.pullList_s, show listBytes 0x80 = 2 by decide, show stackOffset 0x80 7 = 0 by decide, show s.s + 0 = s.s by rw [BitVec.ofNat_eq_ofNat, BitVec.add_zero]]
  rfl

theorem State.pullList_registers (s : State) :
    s.pullList .s .u 0x7E = { s with
      a := s.readByte s.s, b := s.readByte (s.s + 1), dp := s.readByte (s.s + 2), x := stackWord s (s.s + 3)
      y := stackWord s (s.s + 5), u := stackWord s (s.s + 7), s := s.s + 9 } := by
  rw [State.pullList_s, show listBytes 0x7E = 9 by decide, show stackOffset 0x7E 1 = 0 by decide,
    show stackOffset 0x7E 2 = 1 by decide, show stackOffset 0x7E 3 = 2 by decide, show stackOffset 0x7E 4 = 3 by decide,
    show stackOffset 0x7E 5 = 5 by decide, show stackOffset 0x7E 6 = 7 by decide,
    show s.s + 0 = s.s by rw [BitVec.ofNat_eq_ofNat, BitVec.add_zero]]
  rfl

/-- Returning with E = 1 in the byte pulled (R239, R252). -/
theorem State.leaveInterrupt_entire (s : State) (h : getFlag .e (s.readByte s.s) = true) :
    s.leaveInterrupt = { s with
      cc := s.readByte s.s, a := s.readByte (s.s + 1), b := s.readByte (s.s + 2), dp := s.readByte (s.s + 3)
      x := stackWord s (s.s + 4), y := stackWord s (s.s + 6), u := stackWord s (s.s + 8)
      pc := stackWord s (s.s + 10), s := s.s + 12 } := by
  have e : ∀ a b : Word, s.s + a + b = s.s + (a + b) := fun a b => BitVec.add_assoc _ _ _
  have hf : (s.pullList .s .u 0x01).flag .e = true := by rw [State.pullList_cc]; exact h
  simp only [State.leaveInterrupt, hf, ↓reduceIte]
  rw [State.pullList_cc, State.pullList_registers, State.pullList_pc]
  simp only [stackWord, State.readByte, e]
  rfl

/-- Returning with E = 0 in the byte pulled (R239, R252). -/
theorem State.leaveInterrupt_partial (s : State) (h : getFlag .e (s.readByte s.s) = false) :
    s.leaveInterrupt = { s with cc := s.readByte s.s, pc := stackWord s (s.s + 1), s := s.s + 3 } := by
  have e : ∀ a b : Word, s.s + a + b = s.s + (a + b) := fun a b => BitVec.add_assoc _ _ _
  have hf : (s.pullList .s .u 0x01).flag .e = false := by rw [State.pullList_cc]; exact h
  simp only [State.leaveInterrupt, hf, Bool.false_eq_true, ↓reduceIte]
  rw [State.pullList_cc, State.pullList_pc]
  simp only [stackWord, State.readByte, e]
  rfl

end Sys2Proof.Machine
end

