-- ==== Sys2Proof/Laws/Operands.lean ====
section
/-! SUPPORT. What resolving an operand can do, said once (40_addressing_modes.md R75 to R97), and the shapes of
instruction over it. -/

namespace Sys2Proof.Machine

/-! ## The side effect of an indexed form touches one base register only -/

@[simp] theorem indexedUpdate_a (x : Indexed) (st : State) : (indexedUpdate x st).a = st.a := by
  cases x <;> first | rfl | (rename_i r _; cases r <;> rfl)

@[simp] theorem indexedUpdate_b (x : Indexed) (st : State) : (indexedUpdate x st).b = st.b := by
  cases x <;> first | rfl | (rename_i r _; cases r <;> rfl)

@[simp] theorem indexedUpdate_dp (x : Indexed) (st : State) : (indexedUpdate x st).dp = st.dp := by
  cases x <;> first | rfl | (rename_i r _; cases r <;> rfl)

@[simp] theorem indexedUpdate_cc (x : Indexed) (st : State) : (indexedUpdate x st).cc = st.cc := by
  cases x <;> first | rfl | (rename_i r _; cases r <;> rfl)

@[simp] theorem indexedUpdate_pc (x : Indexed) (st : State) : (indexedUpdate x st).pc = st.pc := by
  cases x <;> first | rfl | (rename_i r _; cases r <;> rfl)

@[simp] theorem indexedUpdate_mem (x : Indexed) (st : State) : (indexedUpdate x st).mem = st.mem := by
  cases x <;> first | rfl | (rename_i r _; cases r <;> rfl)

@[simp] theorem indexedUpdate_freeDraws (x : Indexed) (st : State) : (indexedUpdate x st).freeDraws = st.freeDraws := by
  cases x <;> first | rfl | (rename_i r _; cases r <;> rfl)

/-! ## The state in which the operation runs -/

@[simp] theorem State.advance_a (st : State) (i : Instr) : (st.advance i).a = st.a := rfl

@[simp] theorem State.advance_b (st : State) (i : Instr) : (st.advance i).b = st.b := rfl

@[simp] theorem State.advance_dp (st : State) (i : Instr) : (st.advance i).dp = st.dp := rfl

@[simp] theorem State.advance_cc (st : State) (i : Instr) : (st.advance i).cc = st.cc := rfl

@[simp] theorem State.advance_x (st : State) (i : Instr) : (st.advance i).x = st.x := rfl

@[simp] theorem State.advance_y (st : State) (i : Instr) : (st.advance i).y = st.y := rfl

@[simp] theorem State.advance_u (st : State) (i : Instr) : (st.advance i).u = st.u := rfl

@[simp] theorem State.advance_s (st : State) (i : Instr) : (st.advance i).s = st.s := rfl

@[simp] theorem State.advance_pc (st : State) (i : Instr) : (st.advance i).pc = st.pcNext i := rfl

@[simp] theorem State.advance_mem (st : State) (i : Instr) : (st.advance i).mem = st.mem := rfl

@[simp] theorem State.advance_freeDraws (st : State) (i : Instr) : (st.advance i).freeDraws = st.freeDraws := rfl

@[simp] theorem State.entered_a (st : State) (i : Instr) (l : Loc) : (st.entered i l).a = st.a := by
  cases l <;> simp [State.entered, locUpdate]

@[simp] theorem State.entered_b (st : State) (i : Instr) (l : Loc) : (st.entered i l).b = st.b := by
  cases l <;> simp [State.entered, locUpdate]

@[simp] theorem State.entered_dp (st : State) (i : Instr) (l : Loc) : (st.entered i l).dp = st.dp := by
  cases l <;> simp [State.entered, locUpdate]

@[simp] theorem State.entered_cc (st : State) (i : Instr) (l : Loc) : (st.entered i l).cc = st.cc := by
  cases l <;> simp [State.entered, locUpdate]

@[simp] theorem State.entered_pc (st : State) (i : Instr) (l : Loc) : (st.entered i l).pc = st.pcNext i := by
  simp [State.entered]

@[simp] theorem State.entered_mem (st : State) (i : Instr) (l : Loc) : (st.entered i l).mem = st.mem := by
  cases l <;> simp [State.entered, locUpdate]

@[simp] theorem State.entered_freeDraws (st : State) (i : Instr) (l : Loc) :
    (st.entered i l).freeDraws = st.freeDraws := by
  cases l <;> simp [State.entered, locUpdate]

/-! ## Resolving -/

/-- A memory operand resolves exactly when its effective address does, to that address and the entered state. -/
theorem locate_ok (i : Instr) (l : Loc) (st : State) (ea : Word) (s : State) :
    locate i l st = .ok (ea, s) ↔ effectiveAddress i l st = .ok ea ∧ s = st.entered i l := by
  unfold locate
  cases effectiveAddress i l st with
  | ok a => simp [eq_comm]
  | error f => simp

theorem locate_error (i : Instr) (l : Loc) (st : State) (f : Fault) :
    locate i l st = .error f ↔ effectiveAddress i l st = .error f := by
  unfold locate
  cases effectiveAddress i l st with
  | ok a => simp
  | error f => simp

/-- `operand8` of a memory operand is the byte at its effective address. -/
theorem operand8_mem_ok (i : Instr) (l : Loc) (st : State) (v : Byte) (s : State) :
    operand8 i (.mem l) st = .ok (v, s) ↔
      ∃ ea, effectiveAddress i l st = .ok ea ∧ v = st.readByte ea ∧ s = st.entered i l := by
  simp only [operand8]
  split
  · next ea s' h =>
    obtain ⟨h1, rfl⟩ := (locate_ok i l st ea s').mp h
    simp only [h1, Except.ok.injEq, Prod.mk.injEq, State.readByte, State.entered_mem]
    constructor
    · rintro ⟨rfl, rfl⟩
      exact ⟨ea, rfl, rfl, rfl⟩
    · rintro ⟨ea', rfl, rfl, rfl⟩
      exact ⟨rfl, rfl⟩
  · next f h =>
    have h1 := (locate_error i l st f).mp h
    simp [h1]

/-- `operand8` keeps A, B, DP, CC and the memory, and commits PC. -/
theorem operand8_keeps (i : Instr) (o : Src8) (st : State) (v : Byte) (s : State) (h : operand8 i o st = .ok (v, s)) :
    s.a = st.a ∧ s.b = st.b ∧ s.dp = st.dp ∧ s.cc = st.cc ∧ s.pc = st.pcNext i ∧ s.mem = st.mem ∧
      s.freeDraws = st.freeDraws := by
  cases o with
  | imm w =>
    simp only [operand8, Except.ok.injEq, Prod.mk.injEq] at h
    obtain ⟨-, rfl⟩ := h
    simp
  | mem l =>
    obtain ⟨ea, -, -, rfl⟩ := (operand8_mem_ok i l st v s).mp h
    simp

/-- `operand16` of a memory operand is the word at its effective address, which is not 0xFFFF. -/
theorem operand16_mem_ok (i : Instr) (l : Loc) (st : State) (v : Word) (s : State) :
    operand16 i (.mem l) st = .ok (v, s) ↔
      ∃ ea, effectiveAddress i l st = .ok ea ∧ st.memRead2 ea.toNat = some v ∧ s = st.entered i l := by
  simp only [operand16]
  split
  · next ea s' h =>
    obtain ⟨h1, rfl⟩ := (locate_ok i l st ea s').mp h
    rw [State.memRead2_of_mem_eq (st.entered i l) st (by simp) ea.toNat]
    simp only [h1, Except.ok.injEq]
    split
    · next w hw =>
      simp only [Except.ok.injEq, Prod.mk.injEq]
      constructor
      · rintro ⟨rfl, rfl⟩
        exact ⟨ea, rfl, hw, rfl⟩
      · rintro ⟨ea', rfl, hv, rfl⟩
        exact ⟨Option.some.inj (hw.symm.trans hv), rfl⟩
    · next hw =>
      constructor
      · intro h
        exact absurd h (by simp)
      · rintro ⟨ea', rfl, hv, -⟩
        rw [hw] at hv
        exact absurd hv (by simp)
  · next f h =>
    have h1 := (locate_error i l st f).mp h
    simp [h1]

/-- `operand16` keeps A, B, DP, CC and the memory, and commits PC. -/
theorem operand16_keeps (i : Instr) (o : Src16) (st : State) (v : Word) (s : State)
    (h : operand16 i o st = .ok (v, s)) :
    s.a = st.a ∧ s.b = st.b ∧ s.dp = st.dp ∧ s.cc = st.cc ∧ s.pc = st.pcNext i ∧ s.mem = st.mem ∧
      s.freeDraws = st.freeDraws := by
  cases o with
  | imm w =>
    simp only [operand16, Except.ok.injEq, Prod.mk.injEq] at h
    obtain ⟨-, rfl⟩ := h
    simp
  | mem l =>
    obtain ⟨ea, -, -, rfl⟩ := (operand16_mem_ok i l st v s).mp h
    simp

/-- A memory operand that resolves has its byte. -/
theorem operand8_of_locate {i : Instr} {l : Loc} {st s : State} {ea : Word} (h : locate i l st = .ok (ea, s)) :
    operand8 i (.mem l) st = .ok (st.readByte ea, s) := by
  obtain ⟨address, rfl⟩ := (locate_ok i l st ea s).mp h
  exact (operand8_mem_ok i l st _ _).mpr ⟨ea, address, rfl, rfl⟩

/-- A memory operand that resolves below 0xFFFF has its word. -/
theorem operand16_of_locate {i : Instr} {l : Loc} {st s : State} {ea : Word} (h : locate i l st = .ok (ea, s))
    (below : ea ≠ 0xFFFF) : operand16 i (.mem l) st = .ok (mkWord (st.readByte ea) (st.readByte (ea + 1)), s) := by
  obtain ⟨address, rfl⟩ := (locate_ok i l st ea s).mp h
  exact (operand16_mem_ok i l st _ _).mpr ⟨ea, address, State.memRead2_bytes st ea below, rfl⟩

/-- A well-formed indexed operand resolves, unless its pointer lies at 0xFFFF: to the address of its form, or to the
word there. -/
theorem locate_indexed (i : Instr) (x : Indexed) (st : State) (wf : x.wf = true)
    (below : isIndirect x = true → indexedAddress x (st.pcNext i) st ≠ 0xFFFF) :
    locate i (.idx x) st = .ok (
      if isIndirect x then
        mkWord (st.readByte (indexedAddress x (st.pcNext i) st)) (st.readByte (indexedAddress x (st.pcNext i) st + 1))
      else indexedAddress x (st.pcNext i) st, st.entered i (.idx x)) := by
  simp only [locate, effectiveAddress, indexedEA, wf, ↓reduceIte]
  cases indirect : isIndirect x with
  | false => simp
  | true =>
    simp only [↓reduceIte]
    rw [State.memRead2_bytes _ _ (below indirect)]

/-! ## The shapes: what each answers when its operand resolves and when it does not -/

theorem withOperand8_ok {i : Instr} {o : Src8} {st s : State} {v : Byte} (f : Byte → State → State)
    (h : operand8 i o st = .ok (v, s)) : withOperand8 i o f st = .next (f v s) := by
  simp [withOperand8, h]

theorem withOperand8_error {i : Instr} {o : Src8} {st : State} {e : Fault} (f : Byte → State → State)
    (h : operand8 i o st = .error e) : withOperand8 i o f st = .fault e := by
  simp [withOperand8, h]

theorem withOperand16_ok {i : Instr} {o : Src16} {st s : State} {v : Word} (f : Word → State → State)
    (h : operand16 i o st = .ok (v, s)) : withOperand16 i o f st = .next (f v s) := by
  simp [withOperand16, h]

theorem withOperand16_error {i : Instr} {o : Src16} {st : State} {e : Fault} (f : Word → State → State)
    (h : operand16 i o st = .error e) : withOperand16 i o f st = .fault e := by
  simp [withOperand16, h]

theorem readLoc8_ok {i : Instr} {l : Loc} {st s : State} {ea : Word} (f : Byte → State → State)
    (h : locate i l st = .ok (ea, s)) : readLoc8 i l f st = .next (f (s.readByte ea) s) := by
  simp [readLoc8, h]

theorem readLoc8_error {i : Instr} {l : Loc} {st : State} {e : Fault} (f : Byte → State → State)
    (h : locate i l st = .error e) : readLoc8 i l f st = .fault e := by
  simp [readLoc8, h]

theorem withEA_ok {i : Instr} {l : Loc} {st s : State} {ea : Word} (f : Word → State → State)
    (h : locate i l st = .ok (ea, s)) : withEA i l f st = .next (f ea s) := by
  simp [withEA, h]

theorem withEA_error {i : Instr} {l : Loc} {st : State} {e : Fault} (f : Word → State → State)
    (h : locate i l st = .error e) : withEA i l f st = .fault e := by
  simp [withEA, h]

theorem storeLoc8_ok {i : Instr} {l : Loc} {st s : State} {ea : Word} (value : State → Byte) (flags : State → State)
    (h : locate i l st = .ok (ea, s)) : storeLoc8 i l value flags st = .next ((flags s).writeByte ea (value s)) := by
  simp [storeLoc8, h]

theorem storeLoc8_error {i : Instr} {l : Loc} {st : State} {e : Fault} (value : State → Byte) (flags : State → State)
    (h : locate i l st = .error e) : storeLoc8 i l value flags st = .fault e := by
  simp [storeLoc8, h]

theorem storeLoc16_error {i : Instr} {l : Loc} {st : State} {e : Fault} (value : State → Word)
    (flags : State → State) (h : locate i l st = .error e) : storeLoc16 i l value flags st = .fault e := by
  simp [storeLoc16, h]

theorem storeLoc16_ok {i : Instr} {l : Loc} {st s : State} {ea : Word} (value : State → Word) (flags : State → State)
    (h : locate i l st = .ok (ea, s)) (ht : ea ≠ 0xFFFF) :
    storeLoc16 i l value flags st =
      .next ((flags s).withMem (Memory.write (Memory.write (flags s).mem ea.toNat (hiByte (value s))) (ea.toNat + 1)
        (loByte (value s)))) := by
  have hlt : ea.toNat + 1 < Config.memSize := by
    have h1 := ea.isLt
    have h2 : ea.toNat ≠ 65535 := fun e => ht (BitVec.eq_of_toNat_eq e)
    simp only [Config.memSize]
    omega
  simp [storeLoc16, h, State.memWrite2, hlt]

theorem storeLoc16_top {i : Instr} {l : Loc} {st s : State} (value : State → Word) (flags : State → State)
    (h : locate i l st = .ok (0xFFFF, s)) :
    storeLoc16 i l value flags st = .fault (.outOfRange st.pc i.opcode 0xFFFF) := by
  simp [storeLoc16, h, State.memWrite2, Config.memSize]

theorem modifyLoc_ok {i : Instr} {l : Loc} {st s : State} {ea : Word} (result : Byte → State → Byte)
    (flags : Byte → State → State) (h : locate i l st = .ok (ea, s)) :
    modifyLoc i l result flags st =
      .next ((flags (s.readByte ea) s).writeByte ea (result (s.readByte ea) s)) := by
  simp [modifyLoc, h]

theorem modifyLoc_error {i : Instr} {l : Loc} {st : State} {e : Fault} (result : Byte → State → Byte)
    (flags : Byte → State → State) (h : locate i l st = .error e) : modifyLoc i l result flags st = .fault e := by
  simp [modifyLoc, h]

/-! ## The faults of resolving -/

/-- The effective address of a well-formed operand fails only on a pointer at 0xFFFF. -/
theorem effectiveAddress_error (i : Instr) (l : Loc) (st : State) (f : Fault) (hw : l.wf = true)
    (h : effectiveAddress i l st = .error f) :
    ∃ x, l = .idx x ∧ isIndirect x = true ∧ indexedAddress x (st.pcNext i) st = 0xFFFF ∧
      f = .outOfRange st.pc i.opcode 0xFFFF := by
  cases l with
  | dir lo => exact absurd h (by simp [effectiveAddress])
  | ext addr => exact absurd h (by simp [effectiveAddress])
  | idx x =>
    refine ⟨x, rfl, ?_⟩
    have hx : x.wf = true := hw
    simp only [effectiveAddress, indexedEA, hx, ↓reduceIte] at h
    by_cases hi : isIndirect x = true
    · simp only [hi, ↓reduceIte] at h
      split at h
      · exact absurd h (by simp)
      · next hr =>
        have ha := State.memRead2_none_word st _ hr
        simp only [Except.error.injEq] at h
        rw [ha] at h
        exact ⟨hi, ha, h.symm⟩
    · simp only [hi] at h
      exact absurd h (by simp)

end Sys2Proof.Machine
end

