-- ==== Sys2Proof/Laws/PerInstr.lean ====
section
/-! SUPPORT. The family OpcodeMap: for every instruction, the opcode map of the decoder, looked up at the opcode the
encoder gives the instruction, has the entry that makes the instruction back from its operand (30_encoding.md R65 to
R67). -/

namespace Sys2Proof.Laws.OpcodeMap

/-- The entry of the map for an opcode as a fault reports it: the page from the high byte (R58). -/
def entryAt (opcode : Word) : Option Entry :=
  if hiByte opcode = 0x10 then page2 (loByte opcode).toNat
  else if hiByte opcode = 0x11 then page3 (loByte opcode).toNat
  else page1 (loByte opcode).toNat

/-- The instruction an entry makes from an operand of its own mode. -/
def rebuild : Entry → Operand → Option Instr
  | .inh i, .inh => some i
  | .imm8 f, .imm8 v => some (f v)
  | .imm16 f, .imm16 v => some (f v)
  | .dir f, .dir lo => some (f lo)
  | .ext f, .ext addr => some (f addr)
  | .rel8 f, .rel8 disp => some (f disp)
  | .rel16 f, .rel16 disp => some (f disp)
  | .idx f, .idx x => some (f x)
  | .reg f, .reg src dst => some (f src dst)
  | .stk f, .stk list => some (f list)
  | .unfetched f, .imm8 v => some (f v)
  | _, _ => none

/-- The map and the encoder agree on an instruction. -/
def Statement (i : Instr) : Prop :=
  ((entryAt i.opcode).bind fun e => rebuild e i.operand) = some i

/-- Map and encoder agree when the map has, at the opcode, an entry that makes the instruction from its operand. -/
theorem of_entry {i : Instr} {e : Entry} (opcode : Word) (ho : i.opcode = opcode) (he : entryAt opcode = some e)
    (hr : rebuild e i.operand = some i) : Statement i := by
  unfold Statement
  rw [ho, he]
  exact hr

theorem lda (o : Src8) : Statement (.lda o) := by
  cases o with
  | imm v => exact of_entry 0x0086 rfl rfl rfl
  | mem l =>
    cases l with
    | dir lo => exact of_entry 0x0096 rfl rfl rfl
    | idx x => exact of_entry 0x00A6 rfl rfl rfl
    | ext addr => exact of_entry 0x00B6 rfl rfl rfl

theorem ldb (o : Src8) : Statement (.ldb o) := by
  cases o with
  | imm v => exact of_entry 0x00C6 rfl rfl rfl
  | mem l =>
    cases l with
    | dir lo => exact of_entry 0x00D6 rfl rfl rfl
    | idx x => exact of_entry 0x00E6 rfl rfl rfl
    | ext addr => exact of_entry 0x00F6 rfl rfl rfl

theorem sta (l : Loc) : Statement (.sta l) := by
  cases l with
  | dir lo => exact of_entry 0x0097 rfl rfl rfl
  | idx x => exact of_entry 0x00A7 rfl rfl rfl
  | ext addr => exact of_entry 0x00B7 rfl rfl rfl

theorem stb (l : Loc) : Statement (.stb l) := by
  cases l with
  | dir lo => exact of_entry 0x00D7 rfl rfl rfl
  | idx x => exact of_entry 0x00E7 rfl rfl rfl
  | ext addr => exact of_entry 0x00F7 rfl rfl rfl

theorem ldd (o : Src16) : Statement (.ldd o) := by
  cases o with
  | imm v => exact of_entry 0x00CC rfl rfl rfl
  | mem l =>
    cases l with
    | dir lo => exact of_entry 0x00DC rfl rfl rfl
    | idx x => exact of_entry 0x00EC rfl rfl rfl
    | ext addr => exact of_entry 0x00FC rfl rfl rfl

theorem ldx (o : Src16) : Statement (.ldx o) := by
  cases o with
  | imm v => exact of_entry 0x008E rfl rfl rfl
  | mem l =>
    cases l with
    | dir lo => exact of_entry 0x009E rfl rfl rfl
    | idx x => exact of_entry 0x00AE rfl rfl rfl
    | ext addr => exact of_entry 0x00BE rfl rfl rfl

theorem ldy (o : Src16) : Statement (.ldy o) := by
  cases o with
  | imm v => exact of_entry 0x108E rfl rfl rfl
  | mem l =>
    cases l with
    | dir lo => exact of_entry 0x109E rfl rfl rfl
    | idx x => exact of_entry 0x10AE rfl rfl rfl
    | ext addr => exact of_entry 0x10BE rfl rfl rfl

theorem ldu (o : Src16) : Statement (.ldu o) := by
  cases o with
  | imm v => exact of_entry 0x00CE rfl rfl rfl
  | mem l =>
    cases l with
    | dir lo => exact of_entry 0x00DE rfl rfl rfl
    | idx x => exact of_entry 0x00EE rfl rfl rfl
    | ext addr => exact of_entry 0x00FE rfl rfl rfl

theorem lds (o : Src16) : Statement (.lds o) := by
  cases o with
  | imm v => exact of_entry 0x10CE rfl rfl rfl
  | mem l =>
    cases l with
    | dir lo => exact of_entry 0x10DE rfl rfl rfl
    | idx x => exact of_entry 0x10EE rfl rfl rfl
    | ext addr => exact of_entry 0x10FE rfl rfl rfl

theorem std (l : Loc) : Statement (.std l) := by
  cases l with
  | dir lo => exact of_entry 0x00DD rfl rfl rfl
  | idx x => exact of_entry 0x00ED rfl rfl rfl
  | ext addr => exact of_entry 0x00FD rfl rfl rfl

theorem stx (l : Loc) : Statement (.stx l) := by
  cases l with
  | dir lo => exact of_entry 0x009F rfl rfl rfl
  | idx x => exact of_entry 0x00AF rfl rfl rfl
  | ext addr => exact of_entry 0x00BF rfl rfl rfl

theorem sty (l : Loc) : Statement (.sty l) := by
  cases l with
  | dir lo => exact of_entry 0x109F rfl rfl rfl
  | idx x => exact of_entry 0x10AF rfl rfl rfl
  | ext addr => exact of_entry 0x10BF rfl rfl rfl

theorem stu (l : Loc) : Statement (.stu l) := by
  cases l with
  | dir lo => exact of_entry 0x00DF rfl rfl rfl
  | idx x => exact of_entry 0x00EF rfl rfl rfl
  | ext addr => exact of_entry 0x00FF rfl rfl rfl

theorem sts (l : Loc) : Statement (.sts l) := by
  cases l with
  | dir lo => exact of_entry 0x10DF rfl rfl rfl
  | idx x => exact of_entry 0x10EF rfl rfl rfl
  | ext addr => exact of_entry 0x10FF rfl rfl rfl

theorem leax (x : Indexed) : Statement (.leax x) := 
  of_entry 0x0030 rfl rfl rfl

theorem leay (x : Indexed) : Statement (.leay x) := 
  of_entry 0x0031 rfl rfl rfl

theorem leas (x : Indexed) : Statement (.leas x) := 
  of_entry 0x0032 rfl rfl rfl

theorem leau (x : Indexed) : Statement (.leau x) := 
  of_entry 0x0033 rfl rfl rfl

theorem adda (o : Src8) : Statement (.adda o) := by
  cases o with
  | imm v => exact of_entry 0x008B rfl rfl rfl
  | mem l =>
    cases l with
    | dir lo => exact of_entry 0x009B rfl rfl rfl
    | idx x => exact of_entry 0x00AB rfl rfl rfl
    | ext addr => exact of_entry 0x00BB rfl rfl rfl

theorem addb (o : Src8) : Statement (.addb o) := by
  cases o with
  | imm v => exact of_entry 0x00CB rfl rfl rfl
  | mem l =>
    cases l with
    | dir lo => exact of_entry 0x00DB rfl rfl rfl
    | idx x => exact of_entry 0x00EB rfl rfl rfl
    | ext addr => exact of_entry 0x00FB rfl rfl rfl

theorem adca (o : Src8) : Statement (.adca o) := by
  cases o with
  | imm v => exact of_entry 0x0089 rfl rfl rfl
  | mem l =>
    cases l with
    | dir lo => exact of_entry 0x0099 rfl rfl rfl
    | idx x => exact of_entry 0x00A9 rfl rfl rfl
    | ext addr => exact of_entry 0x00B9 rfl rfl rfl

theorem adcb (o : Src8) : Statement (.adcb o) := by
  cases o with
  | imm v => exact of_entry 0x00C9 rfl rfl rfl
  | mem l =>
    cases l with
    | dir lo => exact of_entry 0x00D9 rfl rfl rfl
    | idx x => exact of_entry 0x00E9 rfl rfl rfl
    | ext addr => exact of_entry 0x00F9 rfl rfl rfl

theorem suba (o : Src8) : Statement (.suba o) := by
  cases o with
  | imm v => exact of_entry 0x0080 rfl rfl rfl
  | mem l =>
    cases l with
    | dir lo => exact of_entry 0x0090 rfl rfl rfl
    | idx x => exact of_entry 0x00A0 rfl rfl rfl
    | ext addr => exact of_entry 0x00B0 rfl rfl rfl

theorem subb (o : Src8) : Statement (.subb o) := by
  cases o with
  | imm v => exact of_entry 0x00C0 rfl rfl rfl
  | mem l =>
    cases l with
    | dir lo => exact of_entry 0x00D0 rfl rfl rfl
    | idx x => exact of_entry 0x00E0 rfl rfl rfl
    | ext addr => exact of_entry 0x00F0 rfl rfl rfl

theorem sbca (o : Src8) : Statement (.sbca o) := by
  cases o with
  | imm v => exact of_entry 0x0082 rfl rfl rfl
  | mem l =>
    cases l with
    | dir lo => exact of_entry 0x0092 rfl rfl rfl
    | idx x => exact of_entry 0x00A2 rfl rfl rfl
    | ext addr => exact of_entry 0x00B2 rfl rfl rfl

theorem sbcb (o : Src8) : Statement (.sbcb o) := by
  cases o with
  | imm v => exact of_entry 0x00C2 rfl rfl rfl
  | mem l =>
    cases l with
    | dir lo => exact of_entry 0x00D2 rfl rfl rfl
    | idx x => exact of_entry 0x00E2 rfl rfl rfl
    | ext addr => exact of_entry 0x00F2 rfl rfl rfl

theorem cmpa (o : Src8) : Statement (.cmpa o) := by
  cases o with
  | imm v => exact of_entry 0x0081 rfl rfl rfl
  | mem l =>
    cases l with
    | dir lo => exact of_entry 0x0091 rfl rfl rfl
    | idx x => exact of_entry 0x00A1 rfl rfl rfl
    | ext addr => exact of_entry 0x00B1 rfl rfl rfl

theorem cmpb (o : Src8) : Statement (.cmpb o) := by
  cases o with
  | imm v => exact of_entry 0x00C1 rfl rfl rfl
  | mem l =>
    cases l with
    | dir lo => exact of_entry 0x00D1 rfl rfl rfl
    | idx x => exact of_entry 0x00E1 rfl rfl rfl
    | ext addr => exact of_entry 0x00F1 rfl rfl rfl

theorem addd (o : Src16) : Statement (.addd o) := by
  cases o with
  | imm v => exact of_entry 0x00C3 rfl rfl rfl
  | mem l =>
    cases l with
    | dir lo => exact of_entry 0x00D3 rfl rfl rfl
    | idx x => exact of_entry 0x00E3 rfl rfl rfl
    | ext addr => exact of_entry 0x00F3 rfl rfl rfl

theorem subd (o : Src16) : Statement (.subd o) := by
  cases o with
  | imm v => exact of_entry 0x0083 rfl rfl rfl
  | mem l =>
    cases l with
    | dir lo => exact of_entry 0x0093 rfl rfl rfl
    | idx x => exact of_entry 0x00A3 rfl rfl rfl
    | ext addr => exact of_entry 0x00B3 rfl rfl rfl

theorem cmpd (o : Src16) : Statement (.cmpd o) := by
  cases o with
  | imm v => exact of_entry 0x1083 rfl rfl rfl
  | mem l =>
    cases l with
    | dir lo => exact of_entry 0x1093 rfl rfl rfl
    | idx x => exact of_entry 0x10A3 rfl rfl rfl
    | ext addr => exact of_entry 0x10B3 rfl rfl rfl

theorem cmpx (o : Src16) : Statement (.cmpx o) := by
  cases o with
  | imm v => exact of_entry 0x008C rfl rfl rfl
  | mem l =>
    cases l with
    | dir lo => exact of_entry 0x009C rfl rfl rfl
    | idx x => exact of_entry 0x00AC rfl rfl rfl
    | ext addr => exact of_entry 0x00BC rfl rfl rfl

theorem cmpy (o : Src16) : Statement (.cmpy o) := by
  cases o with
  | imm v => exact of_entry 0x108C rfl rfl rfl
  | mem l =>
    cases l with
    | dir lo => exact of_entry 0x109C rfl rfl rfl
    | idx x => exact of_entry 0x10AC rfl rfl rfl
    | ext addr => exact of_entry 0x10BC rfl rfl rfl

theorem cmpu (o : Src16) : Statement (.cmpu o) := by
  cases o with
  | imm v => exact of_entry 0x1183 rfl rfl rfl
  | mem l =>
    cases l with
    | dir lo => exact of_entry 0x1193 rfl rfl rfl
    | idx x => exact of_entry 0x11A3 rfl rfl rfl
    | ext addr => exact of_entry 0x11B3 rfl rfl rfl

theorem cmps (o : Src16) : Statement (.cmps o) := by
  cases o with
  | imm v => exact of_entry 0x118C rfl rfl rfl
  | mem l =>
    cases l with
    | dir lo => exact of_entry 0x119C rfl rfl rfl
    | idx x => exact of_entry 0x11AC rfl rfl rfl
    | ext addr => exact of_entry 0x11BC rfl rfl rfl

theorem neg (l : Loc) : Statement (.neg l) := by
  cases l with
  | dir lo => exact of_entry 0x0000 rfl rfl rfl
  | idx x => exact of_entry 0x0060 rfl rfl rfl
  | ext addr => exact of_entry 0x0070 rfl rfl rfl

theorem nega : Statement .nega := 
  of_entry 0x0040 rfl rfl rfl

theorem negb : Statement .negb := 
  of_entry 0x0050 rfl rfl rfl

theorem inc (l : Loc) : Statement (.inc l) := by
  cases l with
  | dir lo => exact of_entry 0x000C rfl rfl rfl
  | idx x => exact of_entry 0x006C rfl rfl rfl
  | ext addr => exact of_entry 0x007C rfl rfl rfl

theorem inca : Statement .inca := 
  of_entry 0x004C rfl rfl rfl

theorem incb : Statement .incb := 
  of_entry 0x005C rfl rfl rfl

theorem dec (l : Loc) : Statement (.dec l) := by
  cases l with
  | dir lo => exact of_entry 0x000A rfl rfl rfl
  | idx x => exact of_entry 0x006A rfl rfl rfl
  | ext addr => exact of_entry 0x007A rfl rfl rfl

theorem deca : Statement .deca := 
  of_entry 0x004A rfl rfl rfl

theorem decb : Statement .decb := 
  of_entry 0x005A rfl rfl rfl

theorem clr (l : Loc) : Statement (.clr l) := by
  cases l with
  | dir lo => exact of_entry 0x000F rfl rfl rfl
  | idx x => exact of_entry 0x006F rfl rfl rfl
  | ext addr => exact of_entry 0x007F rfl rfl rfl

theorem clra : Statement .clra := 
  of_entry 0x004F rfl rfl rfl

theorem clrb : Statement .clrb := 
  of_entry 0x005F rfl rfl rfl

theorem tst (l : Loc) : Statement (.tst l) := by
  cases l with
  | dir lo => exact of_entry 0x000D rfl rfl rfl
  | idx x => exact of_entry 0x006D rfl rfl rfl
  | ext addr => exact of_entry 0x007D rfl rfl rfl

theorem tsta : Statement .tsta := 
  of_entry 0x004D rfl rfl rfl

theorem tstb : Statement .tstb := 
  of_entry 0x005D rfl rfl rfl

theorem daa : Statement .daa := 
  of_entry 0x0019 rfl rfl rfl

theorem mul : Statement .mul := 
  of_entry 0x003D rfl rfl rfl

theorem sex : Statement .sex := 
  of_entry 0x001D rfl rfl rfl

theorem abx : Statement .abx := 
  of_entry 0x003A rfl rfl rfl

theorem anda (o : Src8) : Statement (.anda o) := by
  cases o with
  | imm v => exact of_entry 0x0084 rfl rfl rfl
  | mem l =>
    cases l with
    | dir lo => exact of_entry 0x0094 rfl rfl rfl
    | idx x => exact of_entry 0x00A4 rfl rfl rfl
    | ext addr => exact of_entry 0x00B4 rfl rfl rfl

theorem andb (o : Src8) : Statement (.andb o) := by
  cases o with
  | imm v => exact of_entry 0x00C4 rfl rfl rfl
  | mem l =>
    cases l with
    | dir lo => exact of_entry 0x00D4 rfl rfl rfl
    | idx x => exact of_entry 0x00E4 rfl rfl rfl
    | ext addr => exact of_entry 0x00F4 rfl rfl rfl

theorem ora (o : Src8) : Statement (.ora o) := by
  cases o with
  | imm v => exact of_entry 0x008A rfl rfl rfl
  | mem l =>
    cases l with
    | dir lo => exact of_entry 0x009A rfl rfl rfl
    | idx x => exact of_entry 0x00AA rfl rfl rfl
    | ext addr => exact of_entry 0x00BA rfl rfl rfl

theorem orb (o : Src8) : Statement (.orb o) := by
  cases o with
  | imm v => exact of_entry 0x00CA rfl rfl rfl
  | mem l =>
    cases l with
    | dir lo => exact of_entry 0x00DA rfl rfl rfl
    | idx x => exact of_entry 0x00EA rfl rfl rfl
    | ext addr => exact of_entry 0x00FA rfl rfl rfl

theorem eora (o : Src8) : Statement (.eora o) := by
  cases o with
  | imm v => exact of_entry 0x0088 rfl rfl rfl
  | mem l =>
    cases l with
    | dir lo => exact of_entry 0x0098 rfl rfl rfl
    | idx x => exact of_entry 0x00A8 rfl rfl rfl
    | ext addr => exact of_entry 0x00B8 rfl rfl rfl

theorem eorb (o : Src8) : Statement (.eorb o) := by
  cases o with
  | imm v => exact of_entry 0x00C8 rfl rfl rfl
  | mem l =>
    cases l with
    | dir lo => exact of_entry 0x00D8 rfl rfl rfl
    | idx x => exact of_entry 0x00E8 rfl rfl rfl
    | ext addr => exact of_entry 0x00F8 rfl rfl rfl

theorem bita (o : Src8) : Statement (.bita o) := by
  cases o with
  | imm v => exact of_entry 0x0085 rfl rfl rfl
  | mem l =>
    cases l with
    | dir lo => exact of_entry 0x0095 rfl rfl rfl
    | idx x => exact of_entry 0x00A5 rfl rfl rfl
    | ext addr => exact of_entry 0x00B5 rfl rfl rfl

theorem bitb (o : Src8) : Statement (.bitb o) := by
  cases o with
  | imm v => exact of_entry 0x00C5 rfl rfl rfl
  | mem l =>
    cases l with
    | dir lo => exact of_entry 0x00D5 rfl rfl rfl
    | idx x => exact of_entry 0x00E5 rfl rfl rfl
    | ext addr => exact of_entry 0x00F5 rfl rfl rfl

theorem com (l : Loc) : Statement (.com l) := by
  cases l with
  | dir lo => exact of_entry 0x0003 rfl rfl rfl
  | idx x => exact of_entry 0x0063 rfl rfl rfl
  | ext addr => exact of_entry 0x0073 rfl rfl rfl

theorem coma : Statement .coma := 
  of_entry 0x0043 rfl rfl rfl

theorem comb : Statement .comb := 
  of_entry 0x0053 rfl rfl rfl

theorem andcc (mask : Byte) : Statement (.andcc mask) := 
  of_entry 0x001C rfl rfl rfl

theorem orcc (mask : Byte) : Statement (.orcc mask) := 
  of_entry 0x001A rfl rfl rfl

theorem lsr (l : Loc) : Statement (.lsr l) := by
  cases l with
  | dir lo => exact of_entry 0x0004 rfl rfl rfl
  | idx x => exact of_entry 0x0064 rfl rfl rfl
  | ext addr => exact of_entry 0x0074 rfl rfl rfl

theorem lsra : Statement .lsra := 
  of_entry 0x0044 rfl rfl rfl

theorem lsrb : Statement .lsrb := 
  of_entry 0x0054 rfl rfl rfl

theorem asr (l : Loc) : Statement (.asr l) := by
  cases l with
  | dir lo => exact of_entry 0x0007 rfl rfl rfl
  | idx x => exact of_entry 0x0067 rfl rfl rfl
  | ext addr => exact of_entry 0x0077 rfl rfl rfl

theorem asra : Statement .asra := 
  of_entry 0x0047 rfl rfl rfl

theorem asrb : Statement .asrb := 
  of_entry 0x0057 rfl rfl rfl

theorem asl (l : Loc) : Statement (.asl l) := by
  cases l with
  | dir lo => exact of_entry 0x0008 rfl rfl rfl
  | idx x => exact of_entry 0x0068 rfl rfl rfl
  | ext addr => exact of_entry 0x0078 rfl rfl rfl

theorem asla : Statement .asla := 
  of_entry 0x0048 rfl rfl rfl

theorem aslb : Statement .aslb := 
  of_entry 0x0058 rfl rfl rfl

theorem rol (l : Loc) : Statement (.rol l) := by
  cases l with
  | dir lo => exact of_entry 0x0009 rfl rfl rfl
  | idx x => exact of_entry 0x0069 rfl rfl rfl
  | ext addr => exact of_entry 0x0079 rfl rfl rfl

theorem rola : Statement .rola := 
  of_entry 0x0049 rfl rfl rfl

theorem rolb : Statement .rolb := 
  of_entry 0x0059 rfl rfl rfl

theorem ror (l : Loc) : Statement (.ror l) := by
  cases l with
  | dir lo => exact of_entry 0x0006 rfl rfl rfl
  | idx x => exact of_entry 0x0066 rfl rfl rfl
  | ext addr => exact of_entry 0x0076 rfl rfl rfl

theorem rora : Statement .rora := 
  of_entry 0x0046 rfl rfl rfl

theorem rorb : Statement .rorb := 
  of_entry 0x0056 rfl rfl rfl

theorem tfr (src dst : BitVec 4) : Statement (.tfr src dst) := 
  of_entry 0x001F rfl rfl rfl

theorem exg (src dst : BitVec 4) : Statement (.exg src dst) := 
  of_entry 0x001E rfl rfl rfl

theorem pshs (list : Byte) : Statement (.pshs list) := 
  of_entry 0x0034 rfl rfl rfl

theorem puls (list : Byte) : Statement (.puls list) := 
  of_entry 0x0035 rfl rfl rfl

theorem pshu (list : Byte) : Statement (.pshu list) := 
  of_entry 0x0036 rfl rfl rfl

theorem pulu (list : Byte) : Statement (.pulu list) := 
  of_entry 0x0037 rfl rfl rfl

theorem bra (disp : Byte) : Statement (.bra disp) := 
  of_entry 0x0020 rfl rfl rfl

theorem brn (disp : Byte) : Statement (.brn disp) := 
  of_entry 0x0021 rfl rfl rfl

theorem bhi (disp : Byte) : Statement (.bhi disp) := 
  of_entry 0x0022 rfl rfl rfl

theorem bls (disp : Byte) : Statement (.bls disp) := 
  of_entry 0x0023 rfl rfl rfl

theorem bcc (disp : Byte) : Statement (.bcc disp) := 
  of_entry 0x0024 rfl rfl rfl

theorem bcs (disp : Byte) : Statement (.bcs disp) := 
  of_entry 0x0025 rfl rfl rfl

theorem bne (disp : Byte) : Statement (.bne disp) := 
  of_entry 0x0026 rfl rfl rfl

theorem beq (disp : Byte) : Statement (.beq disp) := 
  of_entry 0x0027 rfl rfl rfl

theorem bvc (disp : Byte) : Statement (.bvc disp) := 
  of_entry 0x0028 rfl rfl rfl

theorem bvs (disp : Byte) : Statement (.bvs disp) := 
  of_entry 0x0029 rfl rfl rfl

theorem bpl (disp : Byte) : Statement (.bpl disp) := 
  of_entry 0x002A rfl rfl rfl

theorem bmi (disp : Byte) : Statement (.bmi disp) := 
  of_entry 0x002B rfl rfl rfl

theorem bge (disp : Byte) : Statement (.bge disp) := 
  of_entry 0x002C rfl rfl rfl

theorem blt (disp : Byte) : Statement (.blt disp) := 
  of_entry 0x002D rfl rfl rfl

theorem bgt (disp : Byte) : Statement (.bgt disp) := 
  of_entry 0x002E rfl rfl rfl

theorem ble (disp : Byte) : Statement (.ble disp) := 
  of_entry 0x002F rfl rfl rfl

theorem lbra (disp : Word) : Statement (.lbra disp) := 
  of_entry 0x0016 rfl rfl rfl

theorem lbrn (disp : Word) : Statement (.lbrn disp) := 
  of_entry 0x1021 rfl rfl rfl

theorem lbhi (disp : Word) : Statement (.lbhi disp) := 
  of_entry 0x1022 rfl rfl rfl

theorem lbls (disp : Word) : Statement (.lbls disp) := 
  of_entry 0x1023 rfl rfl rfl

theorem lbcc (disp : Word) : Statement (.lbcc disp) := 
  of_entry 0x1024 rfl rfl rfl

theorem lbcs (disp : Word) : Statement (.lbcs disp) := 
  of_entry 0x1025 rfl rfl rfl

theorem lbne (disp : Word) : Statement (.lbne disp) := 
  of_entry 0x1026 rfl rfl rfl

theorem lbeq (disp : Word) : Statement (.lbeq disp) := 
  of_entry 0x1027 rfl rfl rfl

theorem lbvc (disp : Word) : Statement (.lbvc disp) := 
  of_entry 0x1028 rfl rfl rfl

theorem lbvs (disp : Word) : Statement (.lbvs disp) := 
  of_entry 0x1029 rfl rfl rfl

theorem lbpl (disp : Word) : Statement (.lbpl disp) := 
  of_entry 0x102A rfl rfl rfl

theorem lbmi (disp : Word) : Statement (.lbmi disp) := 
  of_entry 0x102B rfl rfl rfl

theorem lbge (disp : Word) : Statement (.lbge disp) := 
  of_entry 0x102C rfl rfl rfl

theorem lblt (disp : Word) : Statement (.lblt disp) := 
  of_entry 0x102D rfl rfl rfl

theorem lbgt (disp : Word) : Statement (.lbgt disp) := 
  of_entry 0x102E rfl rfl rfl

theorem lble (disp : Word) : Statement (.lble disp) := 
  of_entry 0x102F rfl rfl rfl

theorem bsr (disp : Byte) : Statement (.bsr disp) := 
  of_entry 0x008D rfl rfl rfl

theorem lbsr (disp : Word) : Statement (.lbsr disp) := 
  of_entry 0x0017 rfl rfl rfl

theorem jmp (l : Loc) : Statement (.jmp l) := by
  cases l with
  | dir lo => exact of_entry 0x000E rfl rfl rfl
  | idx x => exact of_entry 0x006E rfl rfl rfl
  | ext addr => exact of_entry 0x007E rfl rfl rfl

theorem jsr (l : Loc) : Statement (.jsr l) := by
  cases l with
  | dir lo => exact of_entry 0x009D rfl rfl rfl
  | idx x => exact of_entry 0x00AD rfl rfl rfl
  | ext addr => exact of_entry 0x00BD rfl rfl rfl

theorem rts : Statement .rts := 
  of_entry 0x0039 rfl rfl rfl

theorem nop : Statement .nop := 
  of_entry 0x0012 rfl rfl rfl

theorem swi : Statement .swi := 
  of_entry 0x003F rfl rfl rfl

theorem swi2 : Statement .swi2 := 
  of_entry 0x103F rfl rfl rfl

theorem swi3 : Statement .swi3 := 
  of_entry 0x113F rfl rfl rfl

theorem rti : Statement .rti := 
  of_entry 0x003B rfl rfl rfl

theorem cwai (mask : Byte) : Statement (.cwai mask) := 
  of_entry 0x003C rfl rfl rfl

theorem sync : Statement .sync := 
  of_entry 0x0013 rfl rfl rfl

end Sys2Proof.Laws.OpcodeMap
end

