-- ==== Sys2Proof/Laws/Encoding.lean ====
section
/-! SUPPORT. The opcode map: what every entry makes has the opcode it stands under and the operand it was made from
(30_encoding.md R65 to R67). -/

namespace Sys2Proof

/-! ## The opcode map, from the instruction -/

/-- What an entry of the map promises of the instructions it makes: their opcode and their operand. -/
def Entry.Makes (opcode : Word) : Entry → Prop
  | .inh i => i.opcode = opcode ∧ i.operand = .inh
  | .imm8 f => ∀ v, (f v).opcode = opcode ∧ (f v).operand = .imm8 v
  | .imm16 f => ∀ v, (f v).opcode = opcode ∧ (f v).operand = .imm16 v
  | .dir f => ∀ lo, (f lo).opcode = opcode ∧ (f lo).operand = .dir lo
  | .ext f => ∀ addr, (f addr).opcode = opcode ∧ (f addr).operand = .ext addr
  | .rel8 f => ∀ disp, (f disp).opcode = opcode ∧ (f disp).operand = .rel8 disp
  | .rel16 f => ∀ disp, (f disp).opcode = opcode ∧ (f disp).operand = .rel16 disp
  | .idx f => ∀ x, (f x).opcode = opcode ∧ (f x).operand = .idx x
  | .reg f => ∀ src dst, (f src dst).opcode = opcode ∧ (f src dst).operand = .reg src dst
  | .stk f => ∀ list, (f list).opcode = opcode ∧ (f list).operand = .stk list
  | .unfetched f => opcode = 0x003C ∧ ∀ v, f v = .cwai v

/-- What a place of the map promises: nothing where it has no entry. -/
def Entry.MakesAt (opcode : Word) : Option Entry → Prop
  | none => True
  | some e => e.Makes opcode

theorem page1_makes_0 (b : Nat) (h : 0 ≤ b) (h' : b < 16) :
    Entry.MakesAt (BitVec.ofNat 16 b) (page1 b) := by
  interval_cases b <;> first
    | exact trivial
    | exact fun _ => ⟨rfl, rfl⟩

theorem page1_makes_1 (b : Nat) (h : 16 ≤ b) (h' : b < 32) :
    Entry.MakesAt (BitVec.ofNat 16 b) (page1 b) := by
  interval_cases b <;> first
    | exact trivial
    | exact fun _ => ⟨rfl, rfl⟩
    | exact ⟨rfl, rfl⟩
    | exact fun _ _ => ⟨rfl, rfl⟩

theorem page1_makes_2 (b : Nat) (h : 32 ≤ b) (h' : b < 48) :
    Entry.MakesAt (BitVec.ofNat 16 b) (page1 b) := by
  interval_cases b <;> exact fun _ => ⟨rfl, rfl⟩

theorem page1_makes_3 (b : Nat) (h : 48 ≤ b) (h' : b < 64) :
    Entry.MakesAt (BitVec.ofNat 16 b) (page1 b) := by
  interval_cases b <;> first
    | exact trivial
    | exact fun _ => ⟨rfl, rfl⟩
    | exact ⟨rfl, rfl⟩
    | exact ⟨rfl, fun _ => rfl⟩

theorem page1_makes_4 (b : Nat) (h : 64 ≤ b) (h' : b < 80) :
    Entry.MakesAt (BitVec.ofNat 16 b) (page1 b) := by
  interval_cases b <;> first
    | exact trivial
    | exact ⟨rfl, rfl⟩

theorem page1_makes_5 (b : Nat) (h : 80 ≤ b) (h' : b < 96) :
    Entry.MakesAt (BitVec.ofNat 16 b) (page1 b) := by
  interval_cases b <;> first
    | exact trivial
    | exact ⟨rfl, rfl⟩

theorem page1_makes_6 (b : Nat) (h : 96 ≤ b) (h' : b < 112) :
    Entry.MakesAt (BitVec.ofNat 16 b) (page1 b) := by
  interval_cases b <;> first
    | exact trivial
    | exact fun _ => ⟨rfl, rfl⟩

theorem page1_makes_7 (b : Nat) (h : 112 ≤ b) (h' : b < 128) :
    Entry.MakesAt (BitVec.ofNat 16 b) (page1 b) := by
  interval_cases b <;> first
    | exact trivial
    | exact fun _ => ⟨rfl, rfl⟩

theorem page1_makes_8 (b : Nat) (h : 128 ≤ b) (h' : b < 144) :
    Entry.MakesAt (BitVec.ofNat 16 b) (page1 b) := by
  interval_cases b <;> first
    | exact trivial
    | exact fun _ => ⟨rfl, rfl⟩

theorem page1_makes_9 (b : Nat) (h : 144 ≤ b) (h' : b < 160) :
    Entry.MakesAt (BitVec.ofNat 16 b) (page1 b) := by
  interval_cases b <;> exact fun _ => ⟨rfl, rfl⟩

theorem page1_makes_a (b : Nat) (h : 160 ≤ b) (h' : b < 176) :
    Entry.MakesAt (BitVec.ofNat 16 b) (page1 b) := by
  interval_cases b <;> exact fun _ => ⟨rfl, rfl⟩

theorem page1_makes_b (b : Nat) (h : 176 ≤ b) (h' : b < 192) :
    Entry.MakesAt (BitVec.ofNat 16 b) (page1 b) := by
  interval_cases b <;> exact fun _ => ⟨rfl, rfl⟩

theorem page1_makes_c (b : Nat) (h : 192 ≤ b) (h' : b < 208) :
    Entry.MakesAt (BitVec.ofNat 16 b) (page1 b) := by
  interval_cases b <;> first
    | exact trivial
    | exact fun _ => ⟨rfl, rfl⟩

theorem page1_makes_d (b : Nat) (h : 208 ≤ b) (h' : b < 224) :
    Entry.MakesAt (BitVec.ofNat 16 b) (page1 b) := by
  interval_cases b <;> exact fun _ => ⟨rfl, rfl⟩

theorem page1_makes_e (b : Nat) (h : 224 ≤ b) (h' : b < 240) :
    Entry.MakesAt (BitVec.ofNat 16 b) (page1 b) := by
  interval_cases b <;> exact fun _ => ⟨rfl, rfl⟩

theorem page1_makes_f (b : Nat) (h : 240 ≤ b) (h' : b < 256) :
    Entry.MakesAt (BitVec.ofNat 16 b) (page1 b) := by
  interval_cases b <;> exact fun _ => ⟨rfl, rfl⟩

/-- Every entry of page 1 makes instructions with its own byte as the opcode (R65). -/
theorem page1_makes (b : Byte) : Entry.MakesAt (mkWord 0x00 b) (page1 b.toNat) := by
  have e : ∀ b : Byte, mkWord 0x00 b = BitVec.ofNat 16 b.toNat := by decide
  rw [e]
  have h := b.isLt
  by_cases h8 : b.toNat < 128
  · by_cases h4 : b.toNat < 64
    · by_cases h2 : b.toNat < 32
      · by_cases h1 : b.toNat < 16
        · exact page1_makes_0 _ (by omega) h1
        · exact page1_makes_1 _ (by omega) h2
      · by_cases h1 : b.toNat < 48
        · exact page1_makes_2 _ (by omega) h1
        · exact page1_makes_3 _ (by omega) h4
    · by_cases h2 : b.toNat < 96
      · by_cases h1 : b.toNat < 80
        · exact page1_makes_4 _ (by omega) h1
        · exact page1_makes_5 _ (by omega) h2
      · by_cases h1 : b.toNat < 112
        · exact page1_makes_6 _ (by omega) h1
        · exact page1_makes_7 _ (by omega) h8
  · by_cases h4 : b.toNat < 192
    · by_cases h2 : b.toNat < 160
      · by_cases h1 : b.toNat < 144
        · exact page1_makes_8 _ (by omega) h1
        · exact page1_makes_9 _ (by omega) h2
      · by_cases h1 : b.toNat < 176
        · exact page1_makes_a _ (by omega) h1
        · exact page1_makes_b _ (by omega) h4
    · by_cases h2 : b.toNat < 224
      · by_cases h1 : b.toNat < 208
        · exact page1_makes_c _ (by omega) h1
        · exact page1_makes_d _ (by omega) h2
      · by_cases h1 : b.toNat < 240
        · exact page1_makes_e _ (by omega) h1
        · exact page1_makes_f _ (by omega) h

theorem page2_makes_nat (b : Nat) (e : Entry) (h : page2 b = some e) :
    e.Makes (BitVec.ofNat 16 (0x1000 + b)) := by
  unfold page2 at h
  split at h <;> first
    | (cases h; exact ⟨rfl, rfl⟩)
    | (cases h; exact fun _ => ⟨rfl, rfl⟩)
    | cases h

/-- Every entry of page 2 makes instructions with the prefix and its own byte as the opcode (R66). -/
theorem page2_makes (b : Byte) (e : Entry) (h : page2 b.toNat = some e) : e.Makes (mkWord 0x10 b) := by
  have e : ∀ b : Byte, mkWord 0x10 b = BitVec.ofNat 16 (0x1000 + b.toNat) := by decide
  rw [e]
  exact page2_makes_nat _ _ h

theorem page3_makes_nat (b : Nat) (e : Entry) (h : page3 b = some e) :
    e.Makes (BitVec.ofNat 16 (0x1100 + b)) := by
  unfold page3 at h
  split at h <;> first
    | (cases h; exact ⟨rfl, rfl⟩)
    | (cases h; exact fun _ => ⟨rfl, rfl⟩)
    | cases h

/-- Every entry of page 3 makes instructions with the prefix and its own byte as the opcode (R67). -/
theorem page3_makes (b : Byte) (e : Entry) (h : page3 b.toNat = some e) : e.Makes (mkWord 0x11 b) := by
  have e : ∀ b : Byte, mkWord 0x11 b = BitVec.ofNat 16 (0x1100 + b.toNat) := by decide
  rw [e]
  exact page3_makes_nat _ _ h

end Sys2Proof
end

