-- ==== Sys2Proof/Laws/Decoding.lean ====
section
/-! SUPPORT. Decoding an opcode and an operand, the postbyte table in both directions, and the lengths of
instructions (30_encoding.md R55 to R72, 40_addressing_modes.md R83, R96). -/

namespace Sys2Proof

/-! ## Opcodes -/

/-- The map and the encoder agree, for every instruction. -/
theorem opcodeMap_holds (i : Instr) : Laws.OpcodeMap.Statement i := by
  cases i with
  | lda o => exact Laws.OpcodeMap.lda o
  | ldb o => exact Laws.OpcodeMap.ldb o
  | sta l => exact Laws.OpcodeMap.sta l
  | stb l => exact Laws.OpcodeMap.stb l
  | ldd o => exact Laws.OpcodeMap.ldd o
  | ldx o => exact Laws.OpcodeMap.ldx o
  | ldy o => exact Laws.OpcodeMap.ldy o
  | ldu o => exact Laws.OpcodeMap.ldu o
  | lds o => exact Laws.OpcodeMap.lds o
  | std l => exact Laws.OpcodeMap.std l
  | stx l => exact Laws.OpcodeMap.stx l
  | sty l => exact Laws.OpcodeMap.sty l
  | stu l => exact Laws.OpcodeMap.stu l
  | sts l => exact Laws.OpcodeMap.sts l
  | leax x => exact Laws.OpcodeMap.leax x
  | leay x => exact Laws.OpcodeMap.leay x
  | leas x => exact Laws.OpcodeMap.leas x
  | leau x => exact Laws.OpcodeMap.leau x
  | adda o => exact Laws.OpcodeMap.adda o
  | addb o => exact Laws.OpcodeMap.addb o
  | adca o => exact Laws.OpcodeMap.adca o
  | adcb o => exact Laws.OpcodeMap.adcb o
  | suba o => exact Laws.OpcodeMap.suba o
  | subb o => exact Laws.OpcodeMap.subb o
  | sbca o => exact Laws.OpcodeMap.sbca o
  | sbcb o => exact Laws.OpcodeMap.sbcb o
  | cmpa o => exact Laws.OpcodeMap.cmpa o
  | cmpb o => exact Laws.OpcodeMap.cmpb o
  | addd o => exact Laws.OpcodeMap.addd o
  | subd o => exact Laws.OpcodeMap.subd o
  | cmpd o => exact Laws.OpcodeMap.cmpd o
  | cmpx o => exact Laws.OpcodeMap.cmpx o
  | cmpy o => exact Laws.OpcodeMap.cmpy o
  | cmpu o => exact Laws.OpcodeMap.cmpu o
  | cmps o => exact Laws.OpcodeMap.cmps o
  | neg l => exact Laws.OpcodeMap.neg l
  | nega => exact Laws.OpcodeMap.nega
  | negb => exact Laws.OpcodeMap.negb
  | inc l => exact Laws.OpcodeMap.inc l
  | inca => exact Laws.OpcodeMap.inca
  | incb => exact Laws.OpcodeMap.incb
  | dec l => exact Laws.OpcodeMap.dec l
  | deca => exact Laws.OpcodeMap.deca
  | decb => exact Laws.OpcodeMap.decb
  | clr l => exact Laws.OpcodeMap.clr l
  | clra => exact Laws.OpcodeMap.clra
  | clrb => exact Laws.OpcodeMap.clrb
  | tst l => exact Laws.OpcodeMap.tst l
  | tsta => exact Laws.OpcodeMap.tsta
  | tstb => exact Laws.OpcodeMap.tstb
  | daa => exact Laws.OpcodeMap.daa
  | mul => exact Laws.OpcodeMap.mul
  | sex => exact Laws.OpcodeMap.sex
  | abx => exact Laws.OpcodeMap.abx
  | anda o => exact Laws.OpcodeMap.anda o
  | andb o => exact Laws.OpcodeMap.andb o
  | ora o => exact Laws.OpcodeMap.ora o
  | orb o => exact Laws.OpcodeMap.orb o
  | eora o => exact Laws.OpcodeMap.eora o
  | eorb o => exact Laws.OpcodeMap.eorb o
  | bita o => exact Laws.OpcodeMap.bita o
  | bitb o => exact Laws.OpcodeMap.bitb o
  | com l => exact Laws.OpcodeMap.com l
  | coma => exact Laws.OpcodeMap.coma
  | comb => exact Laws.OpcodeMap.comb
  | andcc mask => exact Laws.OpcodeMap.andcc mask
  | orcc mask => exact Laws.OpcodeMap.orcc mask
  | lsr l => exact Laws.OpcodeMap.lsr l
  | lsra => exact Laws.OpcodeMap.lsra
  | lsrb => exact Laws.OpcodeMap.lsrb
  | asr l => exact Laws.OpcodeMap.asr l
  | asra => exact Laws.OpcodeMap.asra
  | asrb => exact Laws.OpcodeMap.asrb
  | asl l => exact Laws.OpcodeMap.asl l
  | asla => exact Laws.OpcodeMap.asla
  | aslb => exact Laws.OpcodeMap.aslb
  | rol l => exact Laws.OpcodeMap.rol l
  | rola => exact Laws.OpcodeMap.rola
  | rolb => exact Laws.OpcodeMap.rolb
  | ror l => exact Laws.OpcodeMap.ror l
  | rora => exact Laws.OpcodeMap.rora
  | rorb => exact Laws.OpcodeMap.rorb
  | tfr src dst => exact Laws.OpcodeMap.tfr src dst
  | exg src dst => exact Laws.OpcodeMap.exg src dst
  | pshs list => exact Laws.OpcodeMap.pshs list
  | puls list => exact Laws.OpcodeMap.puls list
  | pshu list => exact Laws.OpcodeMap.pshu list
  | pulu list => exact Laws.OpcodeMap.pulu list
  | bra disp => exact Laws.OpcodeMap.bra disp
  | brn disp => exact Laws.OpcodeMap.brn disp
  | bhi disp => exact Laws.OpcodeMap.bhi disp
  | bls disp => exact Laws.OpcodeMap.bls disp
  | bcc disp => exact Laws.OpcodeMap.bcc disp
  | bcs disp => exact Laws.OpcodeMap.bcs disp
  | bne disp => exact Laws.OpcodeMap.bne disp
  | beq disp => exact Laws.OpcodeMap.beq disp
  | bvc disp => exact Laws.OpcodeMap.bvc disp
  | bvs disp => exact Laws.OpcodeMap.bvs disp
  | bpl disp => exact Laws.OpcodeMap.bpl disp
  | bmi disp => exact Laws.OpcodeMap.bmi disp
  | bge disp => exact Laws.OpcodeMap.bge disp
  | blt disp => exact Laws.OpcodeMap.blt disp
  | bgt disp => exact Laws.OpcodeMap.bgt disp
  | ble disp => exact Laws.OpcodeMap.ble disp
  | lbra disp => exact Laws.OpcodeMap.lbra disp
  | lbrn disp => exact Laws.OpcodeMap.lbrn disp
  | lbhi disp => exact Laws.OpcodeMap.lbhi disp
  | lbls disp => exact Laws.OpcodeMap.lbls disp
  | lbcc disp => exact Laws.OpcodeMap.lbcc disp
  | lbcs disp => exact Laws.OpcodeMap.lbcs disp
  | lbne disp => exact Laws.OpcodeMap.lbne disp
  | lbeq disp => exact Laws.OpcodeMap.lbeq disp
  | lbvc disp => exact Laws.OpcodeMap.lbvc disp
  | lbvs disp => exact Laws.OpcodeMap.lbvs disp
  | lbpl disp => exact Laws.OpcodeMap.lbpl disp
  | lbmi disp => exact Laws.OpcodeMap.lbmi disp
  | lbge disp => exact Laws.OpcodeMap.lbge disp
  | lblt disp => exact Laws.OpcodeMap.lblt disp
  | lbgt disp => exact Laws.OpcodeMap.lbgt disp
  | lble disp => exact Laws.OpcodeMap.lble disp
  | bsr disp => exact Laws.OpcodeMap.bsr disp
  | lbsr disp => exact Laws.OpcodeMap.lbsr disp
  | jmp l => exact Laws.OpcodeMap.jmp l
  | jsr l => exact Laws.OpcodeMap.jsr l
  | rts => exact Laws.OpcodeMap.rts
  | nop => exact Laws.OpcodeMap.nop
  | swi => exact Laws.OpcodeMap.swi
  | swi2 => exact Laws.OpcodeMap.swi2
  | swi3 => exact Laws.OpcodeMap.swi3
  | rti => exact Laws.OpcodeMap.rti
  | cwai mask => exact Laws.OpcodeMap.cwai mask
  | sync => exact Laws.OpcodeMap.sync

/-- The high byte of an opcode is 0x00 on page 1, 0x10 on page 2 and 0x11 on page 3 (R58, R243). -/
theorem Instr.opcode_page (i : Instr) :
    hiByte i.opcode = 0x00 ∨ hiByte i.opcode = 0x10 ∨ hiByte i.opcode = 0x11 := by
  cases i <;> simp only [Instr.opcode] <;> first
    | decide
    | (rename_i l; cases l <;> simp only [Loc.select] <;> decide)
    | (rename_i o; rcases o with _ | (_ | _ | _) <;> simp only [Src8.select, Src16.select, Loc.select] <;> decide)

/-- The decoder on a first byte (R55, R58). -/
theorem decode_cons (b0 : Byte) (rest : List Byte) :
    decode (b0 :: rest) =
      if b0 = 0x10 then
        match rest with
        | [] => .error (.missingByte 0x0010 1)
        | b1 :: rest' => fetchOperand (mkWord 0x10 b1) 2 rest' (page2 b1.toNat)
      else if b0 = 0x11 then
        match rest with
        | [] => .error (.missingByte 0x0011 1)
        | b1 :: rest' => fetchOperand (mkWord 0x11 b1) 2 rest' (page3 b1.toNat)
      else fetchOperand (mkWord 0x00 b0) 1 rest (page1 b0.toNat) := rfl

/-- Decoding opcode bytes looks the opcode up and fetches the operand (R55, R58). -/
theorem decode_opcodeBytes (opcode : Word) (e : Entry) (rest : List Byte)
    (hp : hiByte opcode = 0x00 ∨ hiByte opcode = 0x10 ∨ hiByte opcode = 0x11)
    (he : Laws.OpcodeMap.entryAt opcode = some e) :
    decode (opcodeBytes opcode ++ rest) = fetchOperand opcode (opcodeBytes opcode).length rest (some e) := by
  have hw : mkWord (hiByte opcode) (loByte opcode) = opcode := by simp
  rcases hp with h | h | h
  · have e1 : page1 (loByte opcode).toNat = some e := by simpa [Laws.OpcodeMap.entryAt, h] using he
    have n10 : loByte opcode ≠ 0x10 := by
      intro h'; rw [h'] at e1; exact absurd e1 (by intro h; cases h)
    have n11 : loByte opcode ≠ 0x11 := by
      intro h'; rw [h'] at e1; exact absurd e1 (by intro h; cases h)
    rw [h] at hw
    rw [opcodeBytes, if_pos h]
    show (if loByte opcode = 0x10 then _ else if loByte opcode = 0x11 then _ else
      fetchOperand (mkWord 0x00 (loByte opcode)) 1 rest (page1 (loByte opcode).toNat)) = fetchOperand opcode 1 rest (some e)
    rw [if_neg n10, if_neg n11, e1, hw]
  · have e1 : page2 (loByte opcode).toNat = some e := by simpa [Laws.OpcodeMap.entryAt, h] using he
    rw [h] at hw
    rw [opcodeBytes, h, if_neg (by decide)]
    show fetchOperand (mkWord 0x10 (loByte opcode)) 2 rest (page2 (loByte opcode).toNat) = fetchOperand opcode 2 rest (some e)
    rw [e1, hw]
  · have e1 : page3 (loByte opcode).toNat = some e := by simpa [Laws.OpcodeMap.entryAt, h] using he
    rw [h] at hw
    rw [opcodeBytes, h, if_neg (by decide)]
    show fetchOperand (mkWord 0x11 (loByte opcode)) 2 rest (page3 (loByte opcode).toNat) = fetchOperand opcode 2 rest (some e)
    rw [e1, hw]

/-! ## Operands -/

/-- The register field of a base register selects it (R83). -/
@[simp] theorem indexRegOf_code (r : IndexReg) : indexRegOf r.code = r := by cases r <;> rfl

/-- The form an indexed operand is an instance of (R83). -/
def Indexed.form : Indexed → PostbyteForm
  | .offset8 r _ g => .one fun n => .offset8 r n g
  | .offset16 r _ g => .two fun n => .offset16 r n g
  | .pcr8 c _ g => .one fun n => .pcr8 c n g
  | .pcr16 c _ g => .two fun n => .pcr16 c n g
  | .extended _ g => .two fun n => .extended n g
  | x => .done x

/-- The postbyte of a well-formed operand selects its form (R83). -/
theorem postbyteForm_postbyte (x : Indexed) (h : x.wf = true) : postbyteForm x.postbyte = some x.form := by
  have fields : ∀ (c : BitVec 2) (g : Bool) (sub : BitVec 4), (postbyteOf c g sub).getLsbD 7 = true ∧
      (postbyteOf c g sub).extractLsb' 5 2 = c ∧ (postbyteOf c g sub).getLsbD 4 = g ∧
      (postbyteOf c g sub).extractLsb' 0 4 = sub := by decide
  cases x with
  | offset5 r n =>
    have h1 : ∀ (c : BitVec 2) (n : BitVec 5), (0#1 ++ c ++ n : BitVec 8).getLsbD 7 = false ∧
      (0#1 ++ c ++ n : BitVec 8).extractLsb' 5 2 = c ∧ (0#1 ++ c ++ n : BitVec 8).extractLsb' 0 5 = n := by decide
    obtain ⟨e1, e2, e3⟩ := h1 r.code n
    simp only [postbyteForm, Indexed.postbyte, e1, e2, e3, indexRegOf_code, ↓reduceIte, Indexed.form]
  | postInc1 r g =>
    cases g
    · simp only [postbyteForm, Indexed.postbyte, fields, indexRegOf_code]; rfl
    · cases h
  | preDec1 r g =>
    cases g
    · simp only [postbyteForm, Indexed.postbyte, fields, indexRegOf_code]; rfl
    · cases h
  | extended n g =>
    cases g
    · cases h
    · simp only [postbyteForm, Indexed.postbyte, fields]
      show (if postbyteOf 0 true 0xF = 0x9F then some (PostbyteForm.two fun n => .extended n true) else none) = _
      rw [if_pos (by decide)]
      rfl
  | postInc2 r g => simp only [postbyteForm, Indexed.postbyte, fields, indexRegOf_code]; rfl
  | preDec2 r g => simp only [postbyteForm, Indexed.postbyte, fields, indexRegOf_code]; rfl
  | noOffset r g => simp only [postbyteForm, Indexed.postbyte, fields, indexRegOf_code]; rfl
  | accB r g => simp only [postbyteForm, Indexed.postbyte, fields, indexRegOf_code]; rfl
  | accA r g => simp only [postbyteForm, Indexed.postbyte, fields, indexRegOf_code]; rfl
  | accD r g => simp only [postbyteForm, Indexed.postbyte, fields, indexRegOf_code]; rfl
  | offset8 r n g => simp only [postbyteForm, Indexed.postbyte, fields, indexRegOf_code]; rfl
  | offset16 r n g => simp only [postbyteForm, Indexed.postbyte, fields, indexRegOf_code]; rfl
  | pcr8 c n g => simp only [postbyteForm, Indexed.postbyte, fields]; rfl
  | pcr16 c n g => simp only [postbyteForm, Indexed.postbyte, fields]; rfl

/-- An indexed operand is decoded from its postbyte and extra bytes (R83). -/
theorem fetchIndexed_encode (opcode : Word) (offset : Nat) (f : Indexed → Instr) (x : Indexed) (rest : List Byte)
    (h : x.wf = true) : fetchIndexed opcode offset f (x.postbyte :: (x.extraBytes ++ rest)) = .ok (f x, rest) := by
  rw [fetchIndexed, postbyteForm_postbyte x h]
  cases x <;> simp [Indexed.form, Indexed.extraBytes, fetch8, fetch16]

/-- The operand bytes of an entry's mode are decoded to the instruction it makes (R61, R72). -/
theorem fetchOperand_encode (opcode : Word) (offset : Nat) (e : Entry) (op : Operand) (i : Instr) (rest : List Byte)
    (hr : Laws.OpcodeMap.rebuild e op = some i) (hw : op.wf = true) :
    fetchOperand opcode offset (op.bytes ++ rest) (some e) = .ok (i, rest) := by
  cases e <;> cases op <;> cases hr
  case inh.inh => rfl
  case imm8.imm8 => rfl
  case imm16.imm16 f v => simp [fetchOperand, Operand.bytes, fetch16]
  case dir.dir => rfl
  case ext.ext f v => simp [fetchOperand, Operand.bytes, fetch16]
  case rel8.rel8 => rfl
  case rel16.rel16 f v => simp [fetchOperand, Operand.bytes, fetch16]
  case idx.idx f x => exact fetchIndexed_encode _ _ _ _ _ hw
  case reg.reg f a b =>
    have h : ∀ a b : BitVec 4, (a ++ b : BitVec (4 + 4)).extractLsb' 4 4 = a ∧
        (a ++ b : BitVec (4 + 4)).extractLsb' 0 4 = b := by decide
    simp [fetchOperand, Operand.bytes, fetch8, (h a b).1, (h a b).2]
  case stk.stk => rfl
  case unfetched.imm8 => rfl

/-! ## From the bytes -/

/-- What a form makes: a well-formed operand with the postbyte `pb` and the bytes given as its extra bytes. -/
def PostbyteForm.Reads (pb : Byte) : PostbyteForm → Prop
  | .done x => x.wf = true ∧ x.postbyte = pb ∧ x.extraBytes = []
  | .one g => ∀ n, (g n).wf = true ∧ (g n).postbyte = pb ∧ (g n).extraBytes = [n]
  | .two g => ∀ n, (g n).wf = true ∧ (g n).postbyte = pb ∧ (g n).extraBytes = [hiByte n, loByte n]

/-- The form a postbyte selects makes well-formed operands with that postbyte (R83). -/
theorem postbyteForm_reads (pb : Byte) (f : PostbyteForm) (h : postbyteForm pb = some f) : f.Reads pb := by
  have c5 : ∀ pb : Byte, pb.getLsbD 7 = false →
      (0#1 ++ (indexRegOf (pb.extractLsb' 5 2)).code ++ pb.extractLsb' 0 5 : BitVec (1 + 2 + 5)) = pb := by decide
  have c4 : ∀ pb : Byte, pb.getLsbD 7 = true →
      postbyteOf (indexRegOf (pb.extractLsb' 5 2)).code (pb.getLsbD 4) (pb.extractLsb' 0 4) = pb ∧
      postbyteOf (pb.extractLsb' 5 2) (pb.getLsbD 4) (pb.extractLsb' 0 4) = pb := by decide
  unfold postbyteForm at h
  simp only at h
  split at h
  · rename_i h7
    cases h
    exact ⟨rfl, c5 pb h7, rfl⟩
  · rename_i h7
    obtain ⟨e1, e2⟩ := c4 pb (by simpa using h7)
    have sub : ∀ (k : Nat), (pb.extractLsb' 0 4).toNat = k → pb.extractLsb' 0 4 = BitVec.ofNat 4 k := by
      intro k hk; rw [← hk, BitVec.ofNat_toNat, BitVec.setWidth_eq]
    split at h
    all_goals try rename_i hk
    all_goals try rw [sub _ hk] at e1 e2
    all_goals first
      | (split at h
         · cases h
         · rename_i hi
           cases h
           simp only [Bool.not_eq_true] at hi
           rw [hi] at e1
           exact ⟨rfl, e1, rfl⟩)
      | (split at h
         · rename_i hp
           cases h
           exact fun n => ⟨rfl, hp.symm, rfl⟩
         · cases h)
      | (cases h; exact ⟨rfl, e1, rfl⟩)
      | (cases h; exact fun n => ⟨rfl, e1, rfl⟩)
      | (cases h; exact fun n => ⟨rfl, e2, rfl⟩)
      | cases h

/-- The map has an entry at the opcode of every instruction, and it makes the instruction from its operand (R65 to R67). -/
theorem Instr.entry (i : Instr) :
    ∃ e, Laws.OpcodeMap.entryAt i.opcode = some e ∧ Laws.OpcodeMap.rebuild e i.operand = some i := by
  have := opcodeMap_holds i
  unfold Laws.OpcodeMap.Statement at this
  exact Option.bind_eq_some_iff.mp this

/-- Every entry of page 2 makes instructions with the prefix and its own byte as the opcode (R66). -/
theorem page2_makesAt (b : Byte) : Entry.MakesAt (mkWord 0x10 b) (page2 b.toNat) := by
  cases h : page2 b.toNat with
  | none => trivial
  | some e => exact page2_makes b e h

/-- Every entry of page 3 makes instructions with the prefix and its own byte as the opcode (R67). -/
theorem page3_makesAt (b : Byte) : Entry.MakesAt (mkWord 0x11 b) (page3 b.toNat) := by
  cases h : page3 b.toNat with
  | none => trivial
  | some e => exact page3_makes b e h

/-- Every entry of the map makes instructions with the opcode it stands at. -/
theorem entryAt_makes (opcode : Word) (hp : hiByte opcode = 0x00 ∨ hiByte opcode = 0x10 ∨ hiByte opcode = 0x11) :
    Entry.MakesAt opcode (Laws.OpcodeMap.entryAt opcode) := by
  have hw : mkWord (hiByte opcode) (loByte opcode) = opcode := by simp
  rcases hp with h | h | h <;> rw [h] at hw
  · have := page1_makes (loByte opcode)
    rw [hw] at this
    simpa [Laws.OpcodeMap.entryAt, h] using this
  · have := page2_makesAt (loByte opcode)
    rw [hw] at this
    simpa [Laws.OpcodeMap.entryAt, h] using this
  · have := page3_makesAt (loByte opcode)
    rw [hw] at this
    simpa [Laws.OpcodeMap.entryAt, h] using this

/-- What operand bytes decode to has the opcode looked up and starts with its own operand bytes (R61, R72). -/
theorem fetchOperand_makes {opcode : Word} {offset : Nat} {bytes rest : List Byte} {o : Option Entry} {i : Instr}
    (h : fetchOperand opcode offset bytes o = .ok (i, rest)) (hm : Entry.MakesAt opcode o) :
    i.opcode = opcode ∧ i.operand.wf = true ∧ i.operand.bytes ++ rest = bytes := by
  cases o with
  | none => cases h
  | some e =>
    cases e with
    | inh j => cases h; exact ⟨hm.1, by rw [hm.2]; rfl, by rw [hm.2]; rfl⟩
    | idx f =>
      cases bytes with
      | nil => cases h
      | cons pb bs =>
        simp only [fetchOperand, fetchIndexed] at h
        cases hp : postbyteForm pb with
        | none => rw [hp] at h; cases h
        | some form =>
          rw [hp] at h
          have hr := postbyteForm_reads pb form hp
          cases form with
          | done x =>
            cases h
            have := hm x
            exact ⟨this.1, by rw [this.2]; exact hr.1, by rw [this.2]; simp [Operand.bytes, hr.2.1, hr.2.2]⟩
          | one g =>
            cases bs with
            | nil => cases h
            | cons b bs =>
              cases h
              have := hm (g b)
              exact ⟨this.1, by rw [this.2]; exact (hr b).1, by rw [this.2]; simp [Operand.bytes, (hr b).2.1, (hr b).2.2]⟩
          | two g =>
            rcases bs with _ | ⟨b, _ | ⟨b', bs⟩⟩
            · cases h
            · cases h
            · cases h
              have := hm (g (mkWord b b'))
              exact ⟨this.1, by rw [this.2]; exact (hr _).1, by rw [this.2]; simp [Operand.bytes, (hr _).2.1, (hr _).2.2]⟩
    | reg f =>
      cases bytes with
      | nil => cases h
      | cons b bs =>
        cases h
        have := hm (b.extractLsb' 4 4) (b.extractLsb' 0 4)
        have e : ∀ b : Byte, (b.extractLsb' 4 4 ++ b.extractLsb' 0 4 : BitVec (4 + 4)) = b := by decide
        exact ⟨this.1, by rw [this.2]; rfl, by rw [this.2]; simp only [Operand.bytes, e, List.cons_append, List.nil_append]⟩
    | imm16 f | ext f | rel16 f =>
      rcases bytes with _ | ⟨b, _ | ⟨b', bs⟩⟩
      · cases h
      · cases h
      · cases h
        have := hm (mkWord b b')
        exact ⟨this.1, by rw [this.2]; rfl, by rw [this.2]; simp [Operand.bytes]⟩
    | unfetched f =>
      rcases bytes with _ | ⟨b, bs⟩
      · cases h
      · cases h
        rw [hm.2 b, hm.1]
        exact ⟨rfl, rfl, rfl⟩
    | _ f =>
      rcases bytes with _ | ⟨b, bs⟩
      · cases h
      · cases h
        have := hm b
        exact ⟨this.1, by rw [this.2]; rfl, by rw [this.2]; rfl⟩

/-! ## Lengths and well-formedness -/

/-- The length is the opcode bytes and the operand bytes (R60, R61). -/
theorem Instr.length_eq (i : Instr) : i.length = (opcodeBytes i.opcode).length + i.operand.bytes.length := by
  rw [Instr.length, encode, List.length_append]

/-- An opcode is one byte on page 1 and two on pages 2 and 3 (R61). -/
theorem length_opcodeBytes (opcode : Word) : (opcodeBytes opcode).length = if hiByte opcode = 0 then 1 else 2 := by
  unfold opcodeBytes
  split <;> rfl

theorem Loc.wf_operand (l : Loc) : l.operand.wf = l.wf := by cases l <;> rfl

theorem Src8.wf_operand (o : Src8) : o.operand.wf = o.wf := by
  cases o with
  | imm v => rfl
  | mem l => exact l.wf_operand

theorem Src16.wf_operand (o : Src16) : o.operand.wf = o.wf := by
  cases o with
  | imm v => rfl
  | mem l => exact l.wf_operand

end Sys2Proof
end

