-- ==== Sys2Proof/Laws/Driver.lean ====
section
/-! SUPPORT. The host's accesses and the run: what an access can change, and the run one step at a time
(70_reset_and_hazards.md R265, 20_memory.md R42, R43). -/

namespace Sys2Proof.Machine

/-! ## Host accesses -/

/-- A host access changes nothing but memory, and keeps its canonical form. -/
theorem hostAccess_keeps (st t : State) (access : HostAccess) (h : st.hostAccess access = some t) :
    t = { st with mem := t.mem } ∧ (MemoryCanonical st → MemoryCanonical t) := by
  cases access with
  | readByte address =>
    obtain ⟨-, -, rfl⟩ := Option.map_eq_some_iff.mp h
    exact ⟨rfl, id⟩
  | readWord address =>
    obtain ⟨-, -, rfl⟩ := Option.map_eq_some_iff.mp h
    exact ⟨rfl, id⟩
  | writeByte address v => exact ⟨State.memWrite1_frame st t address v h, State.wf_memWrite1 st t address v h⟩
  | writeWord address v => exact ⟨State.memWrite2_frame st t address v h, State.wf_memWrite2 st t address v h⟩
  | load address bytes => exact ⟨State.load_frame st t address bytes h, State.wf_load st t address bytes h⟩

/-! ## Stop conditions -/

@[simp] theorem stopWhen_fst (holds : State → Bool) (host : Unit) (st : State) :
    (stopWhen holds host st).1 = holds st := rfl

@[simp] theorem stopAt_fst (target : Word) (host : Unit) (st : State) :
    (stopAt target host st).1 = (st.pc == target) := rfl

@[simp] theorem stopAtAny_fst (breakpoints : List Word) (host : Unit) (st : State) :
    (stopAtAny breakpoints host st).1 = breakpoints.contains st.pc := rfl

@[simp] theorem stopAfter_fst (bound count : Nat) (st : State) :
    (stopAfter bound count st).1 = decide (bound ≤ count + 1) := rfl

@[simp] theorem stopAfter_snd (bound count : Nat) (st : State) : (stopAfter bound count st).2 = count + 1 := rfl

/-! ## The loop, one step at a time -/

variable {σ : Type} (stop : StopCondition σ) (fuel : Nat) (host : σ) {st t : State}

theorem runLoop_next_stopped (h : step st = .next t) (holds : (stop host t).1 = true) :
    runLoop stop (fuel + 1) host st = .stopped t := by
  simp [runLoop, h, holds]

theorem runLoop_next_goes_on (h : step st = .next t) (holds : (stop host t).1 = false) :
    runLoop stop (fuel + 1) host st = runLoop stop fuel (stop host t).2 t := by
  simp [runLoop, h, holds]

theorem runLoop_fault {f : Fault} (h : step st = .fault f) : runLoop stop (fuel + 1) host st = .faulted f st := by
  simp [runLoop, h]

theorem runLoopTrace_next_stopped (h : step st = .next t) (holds : (stop host t).1 = true) :
    runLoopTrace stop (fuel + 1) host st = busTrace st := by
  simp [runLoopTrace, h, holds]

theorem runLoopTrace_next_goes_on (h : step st = .next t) (holds : (stop host t).1 = false) :
    runLoopTrace stop (fuel + 1) host st = busTrace st ++ runLoopTrace stop fuel (stop host t).2 t := by
  simp [runLoopTrace, h, holds]

theorem runLoopTrace_fault {f : Fault} (h : step st = .fault f) :
    runLoopTrace stop (fuel + 1) host st = busTrace st := by
  simp [runLoopTrace, h]

end Sys2Proof.Machine
end

