-- ==== Sys2Proof/Laws/Effects.lean ====
section
/-! SUPPORT. Each shared operation of the meanings as one update of the state, in the terms of Safety.lean: what the
provers cite instead of unfolding it. -/

namespace Sys2Proof.Machine

/-! ## Loads, stores, LEA -/

theorem load8_eq (r : Reg8) (v : Byte) (s : State) :
    load8 r v s = (s.withCc (ccNZV s v.msb (v == 0) false)).set8 r v := by
  rw [load8, putLogic8_eq_ccNZV]

theorem load16_eq (r : Reg16) (v : Word) (s : State) :
    load16 r v s = (s.withCc (ccNZV s v.msb (v == 0) false)).set16 r v := by
  rw [load16, putLogic16_eq_ccNZV]

theorem putFlag_z_eq (s : State) (b : Bool) : putFlag .z b s.cc = ccNZV s (s.flag .n) b (s.flag .v) := by
  rw [State.cc_eq_packCc s, putFlag_packCc]
  simp [ccNZV]

theorem leaWithZ_eq (r : Reg16) (ea : Word) (s : State) :
    leaWithZ r ea s = (s.withCc (ccNZV s (s.flag .n) (ea == 0) (s.flag .v))).set16 r ea := by
  rw [leaWithZ, putFlag_z_eq]

/-! ## Flags of the additions and subtractions -/

theorem sumFlags_eq (s : State) (a m : Byte) (carry : Bool) :
    sumFlags (add8 a m carry) s = s.withCc (ccAfterSum s a m carry) := by
  rw [sumFlags, putNZVC_putFlag_h_eq]
  simp [ccAfterSum]

theorem diffFlags_eq (s : State) (a m : Byte) (borrow : Bool) :
    diffFlags (sub8 a m borrow) s =
      { s with cc := ccAfterDiff s a m borrow, freeDraws := s.freeDraws + 1 } := by
  have h := putNZVC_putFlag_h_eq s (nextFree s) (sub8 a m borrow).n (sub8 a m borrow).z (sub8 a m borrow).v
    (sub8 a m borrow).c
  simp only [nextFree] at h
  simp only [diffFlags, State.undefine, State.withCc, h]
  simp [ccAfterDiff, nextFree]

theorem flags16_add16 (s : State) (a m : Word) :
    flags16 (add16 a m) s = s.withCc (ccAfterSum16 s a m) := by
  rw [flags16, putNZVC_eq_ccNZVC]
  simp [ccAfterSum16]

theorem flags16_sub16 (s : State) (a m : Word) :
    flags16 (sub16 a m) s = s.withCc (ccAfterDiff16 s a m) := by
  rw [flags16, putNZVC_eq_ccNZVC]
  simp [ccAfterDiff16]

/-! ## Additions, subtractions, compares -/

theorem addTo_eq (r : Reg8) (m : Byte) (s : State) :
    addTo r m s = (s.withCc (ccAfterSum s (s.get8 r) m false)).set8 r (sumByte (s.get8 r) m false) := by
  simp [addTo, sumFlags_eq]

theorem addCarryTo_eq (r : Reg8) (m : Byte) (s : State) :
    addCarryTo r m s =
      (s.withCc (ccAfterSum s (s.get8 r) m (s.flag .c))).set8 r (sumByte (s.get8 r) m (s.flag .c)) := by
  simp [addCarryTo, sumFlags_eq]

theorem subFrom_eq (r : Reg8) (m : Byte) (s : State) :
    subFrom r m s =
      State.set8 { s with cc := ccAfterDiff s (s.get8 r) m false, freeDraws := s.freeDraws + 1 } r
        (diffByte (s.get8 r) m false) := by
  simp [subFrom, diffFlags_eq]

theorem subCarryFrom_eq (r : Reg8) (m : Byte) (s : State) :
    subCarryFrom r m s =
      State.set8 { s with cc := ccAfterDiff s (s.get8 r) m (s.flag .c), freeDraws := s.freeDraws + 1 } r
        (diffByte (s.get8 r) m (s.flag .c)) := by
  simp [subCarryFrom, diffFlags_eq]

theorem compare8_eq (r : Reg8) (m : Byte) (s : State) :
    compare8 r m s = { s with cc := ccAfterDiff s (s.get8 r) m false, freeDraws := s.freeDraws + 1 } :=
  diffFlags_eq s (s.get8 r) m false

theorem compare16_eq (r : Reg16) (m : Word) (s : State) :
    compare16 r m s = s.withCc (ccAfterDiff16 s (s.get16 r) m) :=
  flags16_sub16 s (s.get16 r) m

theorem addToD_eq (m : Word) (s : State) :
    addToD m s = (s.withCc (ccAfterSum16 s s.d m)).set16 .d (s.d + m) := by
  simp [addToD, flags16_add16]

theorem subFromD_eq (m : Word) (s : State) :
    subFromD m s = (s.withCc (ccAfterDiff16 s s.d m)).set16 .d (s.d - m) := by
  simp [subFromD, flags16_sub16]

/-! ## One byte -/

theorem negResult_eq (m : Byte) (s : State) : negResult m s = diffByte 0x00 m false := by
  simp [negResult]

theorem negFlags_eq (m : Byte) (s : State) :
    negFlags m s = { s with cc := ccAfterDiff s 0x00 m false, freeDraws := s.freeDraws + 1 } :=
  diffFlags_eq s 0x00 m false

theorem incFlags_eq (m : Byte) (s : State) :
    incFlags m s = s.withCc (ccNZV s (m + 1).msb (m + 1 == 0) (m == 0x7F)) := by
  rw [incFlags, putNZV_eq_ccNZV]

theorem decFlags_eq (m : Byte) (s : State) :
    decFlags m s = s.withCc (ccNZV s (m - 1).msb (m - 1 == 0) (m == 0x80)) := by
  rw [decFlags, putNZV_eq_ccNZV]

theorem clrFlags_eq (s : State) : clrFlags s = s.withCc (ccNZVC s false true false false) := by
  rw [clrFlags, putNZVC_eq_ccNZVC]

theorem tstFlags_eq (m : Byte) (s : State) : tstFlags m s = s.withCc (ccNZV s m.msb (m == 0) false) := by
  rw [tstFlags, putLogic8_eq_ccNZV]

theorem comFlags_eq (m : Byte) (s : State) :
    comFlags m s = s.withCc (ccNZVC s (~~~m).msb (~~~m == 0) false true) := by
  rw [comFlags, putNZVC_eq_ccNZVC]

theorem lsrFlags_eq (m : Byte) (s : State) :
    lsrFlags m s = s.withCc (ccNZC s false (shiftRightIn false m == 0) (m.getLsbD 0)) := by
  rw [lsrFlags, putNZC_eq_ccNZC]

theorem rorFlags_eq (m : Byte) (s : State) :
    rorFlags m s = s.withCc (ccNZC s (shiftRightIn (s.flag .c) m).msb (shiftRightIn (s.flag .c) m == 0) (m.getLsbD 0)) := by
  rw [rorFlags, putNZC_eq_ccNZC]

theorem rolFlags_eq (m : Byte) (s : State) :
    rolFlags m s =
      s.withCc (ccNZVC s (shiftLeftIn m (s.flag .c)).msb (shiftLeftIn m (s.flag .c) == 0)
        (m.getLsbD 7 != m.getLsbD 6) (m.getLsbD 7)) := by
  rw [rolFlags, putNZVC_eq_ccNZVC]

theorem putNZC_putFlag_h_eq (s : State) (h n z c : Bool) :
    putNZC n z c (putFlag .h h s.cc) =
      packCc (s.flag .e) (s.flag .f) h (s.flag .i) n z (s.flag .v) c := by
  rw [State.cc_eq_packCc s, putFlag_packCc]
  simp [putNZC_packCc]

theorem asrFlags_eq (m : Byte) (s : State) :
    asrFlags m s =
      { s with
        cc := packCc (s.flag .e) (s.flag .f) (nextFree s) (s.flag .i) (shiftRightIn m.msb m).msb
          (shiftRightIn m.msb m == 0) (s.flag .v) (m.getLsbD 0)
        freeDraws := s.freeDraws + 1 } := by
  have h := putNZC_putFlag_h_eq s (nextFree s) (shiftRightIn m.msb m).msb (shiftRightIn m.msb m == 0) (m.getLsbD 0)
  simp only [nextFree] at h
  simp only [asrFlags, State.undefine, State.withCc, h, nextFree]

theorem aslFlags_eq (m : Byte) (s : State) :
    aslFlags m s =
      { s with
        cc := ccHNZVC s (nextFree s) (shiftLeftIn m false).msb (shiftLeftIn m false == 0)
          (m.getLsbD 7 != m.getLsbD 6) (m.getLsbD 7)
        freeDraws := s.freeDraws + 1 } := by
  have h := putNZVC_putFlag_h_eq s (nextFree s) (shiftLeftIn m false).msb (shiftLeftIn m false == 0)
    (m.getLsbD 7 != m.getLsbD 6) (m.getLsbD 7)
  simp only [nextFree] at h
  simp only [aslFlags, State.undefine, State.withCc, h, nextFree]

/-! ## Shifts over the integers -/

theorem toNat_shiftRightIn : ∀ (top : Bool) (m : Byte), (shiftRightIn top m).toNat = m.toNat / 2 + 128 * top.toNat := by
  decide

theorem shiftRightIn_eq (top : Bool) (m : Byte) :
    shiftRightIn top m = BitVec.ofNat 8 (m.toNat / 2 + 128 * top.toNat) := by
  apply BitVec.eq_of_toNat_eq
  have := m.isLt
  have := Bool.toNat_le top
  rw [toNat_shiftRightIn, BitVec.toNat_ofNat]
  omega

theorem msb_shiftRightIn : ∀ (top : Bool) (m : Byte), (shiftRightIn top m).msb = top := by
  decide

theorem shiftRightIn_msb_eq : ∀ m : Byte, shiftRightIn m.msb m = BitVec.ofInt 8 (m.toInt / 2) := by
  decide

theorem shiftLeftIn_eq (m : Byte) (low : Bool) :
    shiftLeftIn m low = BitVec.ofNat 8 (m.toNat * 2 + low.toNat) := by
  apply BitVec.eq_of_toNat_eq
  simp only [shiftLeftIn, BitVec.toNat_ofNat]
  omega

theorem msb_shiftLeftIn : ∀ (m : Byte) (low : Bool), (shiftLeftIn m low).msb = m.getLsbD 6 := by
  decide

/-! ## DAA, MUL, SEX, ABX -/

theorem daaOp_eq (s : State) :
    daaOp s =
      let sum := s.a.toNat + (daaCorrection s.a (s.flag .h) (s.flag .c)).toNat
      { s with
        a := BitVec.ofNat 8 sum
        cc := packCc (s.flag .e) (s.flag .f) (s.flag .h) (s.flag .i) (BitVec.ofNat 8 sum).msb (BitVec.ofNat 8 sum == 0)
          (nextFree s) (s.flag .c || decide (255 < sum))
        freeDraws := s.freeDraws + 1 } := by
  have h (n z c b : Bool) : putNZC n z c (putFlag .v b s.cc) =
      packCc (s.flag .e) (s.flag .f) (s.flag .h) (s.flag .i) n z b c := by
    rw [State.cc_eq_packCc s, putFlag_packCc]
    simp [putNZC_packCc]
  simp only [daaOp, State.undefine, State.withCc, State.set8, h, nextFree]

theorem mulOp_eq (s : State) :
    mulOp s =
      (s.withCc (ccNZC s (s.flag .n) (BitVec.ofNat 16 (s.a.toNat * s.b.toNat) == 0)
        ((BitVec.ofNat 16 (s.a.toNat * s.b.toNat)).getLsbD 7))).set16 .d (BitVec.ofNat 16 (s.a.toNat * s.b.toNat)) := by
  have h (z c : Bool) : putFlag .z z (putFlag .c c s.cc) = ccNZC s (s.flag .n) z c := by
    rw [State.cc_eq_packCc s, putFlag_packCc, putFlag_packCc]
    simp [ccNZC]
  simp only [mulOp, h]

theorem sexOp_eq (s : State) :
    sexOp s =
      (s.withCc (ccNZV s s.b.msb (s.b == 0) (s.flag .v))).set8 .a (if s.b.msb then 0xFF else 0x00) := by
  have h (n z : Bool) : putNZ n z s.cc = ccNZV s n z (s.flag .v) := by
    rw [State.cc_eq_packCc s]
    simp [putNZ, putFlag_packCc, ccNZV]
  simp only [sexOp, h]

/-! ## Logic -/

theorem andTo_eq (r : Reg8) (m : Byte) (s : State) :
    andTo r m s =
      (s.withCc (ccNZV s (s.get8 r &&& m).msb (s.get8 r &&& m == 0) false)).set8 r (s.get8 r &&& m) := by
  rw [andTo, putLogic8_eq_ccNZV]

theorem orTo_eq (r : Reg8) (m : Byte) (s : State) :
    orTo r m s =
      (s.withCc (ccNZV s (s.get8 r ||| m).msb (s.get8 r ||| m == 0) false)).set8 r (s.get8 r ||| m) := by
  rw [orTo, putLogic8_eq_ccNZV]

theorem eorTo_eq (r : Reg8) (m : Byte) (s : State) :
    eorTo r m s =
      (s.withCc (ccNZV s (s.get8 r ^^^ m).msb (s.get8 r ^^^ m == 0) false)).set8 r (s.get8 r ^^^ m) := by
  rw [eorTo, putLogic8_eq_ccNZV]

theorem bitTest_eq (r : Reg8) (m : Byte) (s : State) :
    bitTest r m s = s.withCc (ccNZV s (s.get8 r &&& m).msb (s.get8 r &&& m == 0) false) := by
  rw [bitTest, putLogic8_eq_ccNZV]

end Sys2Proof.Machine
end

