-- ==== Sys2Proof/Laws/Exec.lean ====
section
/-! SUPPORT. The shapes of instruction, turned round: what is known of a next state, and of a fault, by the shape that
answered it. The claims on all instructions go through these and not through the meanings. -/

namespace Sys2Proof.Machine

/-- What an addressing mode leaves as it was, PC committed. -/
structure Entered (i : Instr) (st s : State) : Prop where
  a : s.a = st.a
  b : s.b = st.b
  dp : s.dp = st.dp
  cc : s.cc = st.cc
  pc : s.pc = st.pcNext i
  mem : s.mem = st.mem
  freeDraws : s.freeDraws = st.freeDraws

theorem entered_advance (i : Instr) (st : State) : Entered i st (st.advance i) :=
  ⟨rfl, rfl, rfl, rfl, rfl, rfl, rfl⟩

theorem entered_entered (i : Instr) (l : Loc) (st : State) : Entered i st (st.entered i l) :=
  ⟨by simp, by simp, by simp, by simp, by simp, by simp, by simp⟩

/-! ## Next -/

theorem inherent_next {i : Instr} {f : State → State} {st t : State} (h : inherent i f st = .next t) :
    t = f (st.advance i) := by
  cases h
  rfl

theorem withOperand8_next {i : Instr} {o : Src8} {f : Byte → State → State} {st t : State}
    (h : withOperand8 i o f st = .next t) : ∃ v s, operand8 i o st = .ok (v, s) ∧ Entered i st s ∧ t = f v s := by
  unfold withOperand8 at h
  split at h
  · next v s hv =>
    cases h
    obtain ⟨h1, h2, h3, h4, h5, h6, h7⟩ := operand8_keeps i o st v s hv
    exact ⟨v, s, hv, ⟨h1, h2, h3, h4, h5, h6, h7⟩, rfl⟩
  · cases h

theorem withOperand16_next {i : Instr} {o : Src16} {f : Word → State → State} {st t : State}
    (h : withOperand16 i o f st = .next t) : ∃ v s, operand16 i o st = .ok (v, s) ∧ Entered i st s ∧ t = f v s := by
  unfold withOperand16 at h
  split at h
  · next v s hv =>
    cases h
    obtain ⟨h1, h2, h3, h4, h5, h6, h7⟩ := operand16_keeps i o st v s hv
    exact ⟨v, s, hv, ⟨h1, h2, h3, h4, h5, h6, h7⟩, rfl⟩
  · cases h

theorem withEA_next {i : Instr} {l : Loc} {f : Word → State → State} {st t : State}
    (h : withEA i l f st = .next t) : ∃ ea, effectiveAddress i l st = .ok ea ∧ t = f ea (st.entered i l) := by
  unfold withEA at h
  split at h
  · next ea s hv =>
    cases h
    obtain ⟨h1, rfl⟩ := (locate_ok i l st ea s).mp hv
    exact ⟨ea, h1, rfl⟩
  · cases h

theorem readLoc8_next {i : Instr} {l : Loc} {f : Byte → State → State} {st t : State}
    (h : readLoc8 i l f st = .next t) :
    ∃ ea, effectiveAddress i l st = .ok ea ∧ t = f (st.readByte ea) (st.entered i l) := by
  unfold readLoc8 at h
  split at h
  · next ea s hv =>
    cases h
    obtain ⟨h1, rfl⟩ := (locate_ok i l st ea s).mp hv
    exact ⟨ea, h1, by simp [State.readByte]⟩
  · cases h

theorem storeLoc8_next {i : Instr} {l : Loc} {value : State → Byte} {flags : State → State} {st t : State}
    (h : storeLoc8 i l value flags st = .next t) :
    ∃ ea, effectiveAddress i l st = .ok ea ∧
      t = (flags (st.entered i l)).writeByte ea (value (st.entered i l)) := by
  unfold storeLoc8 at h
  split at h
  · next ea s hv =>
    cases h
    obtain ⟨h1, rfl⟩ := (locate_ok i l st ea s).mp hv
    exact ⟨ea, h1, rfl⟩
  · cases h

theorem storeLoc16_next {i : Instr} {l : Loc} {value : State → Word} {flags : State → State} {st t : State}
    (h : storeLoc16 i l value flags st = .next t) :
    ∃ ea, effectiveAddress i l st = .ok ea ∧
      (flags (st.entered i l)).memWrite2 ea.toNat (value (st.entered i l)) = some t := by
  unfold storeLoc16 at h
  split at h
  · next ea s hv =>
    obtain ⟨h1, rfl⟩ := (locate_ok i l st ea s).mp hv
    split at h
    · next hs =>
      cases h
      exact ⟨ea, h1, hs⟩
    · cases h
  · cases h

theorem modifyLoc_next {i : Instr} {l : Loc} {result : Byte → State → Byte} {flags : Byte → State → State}
    {st t : State} (h : modifyLoc i l result flags st = .next t) :
    ∃ ea, effectiveAddress i l st = .ok ea ∧
      t = (flags (st.readByte ea) (st.entered i l)).writeByte ea (result (st.readByte ea) (st.entered i l)) := by
  unfold modifyLoc at h
  split at h
  · next ea s hv =>
    cases h
    obtain ⟨h1, rfl⟩ := (locate_ok i l st ea s).mp hv
    exact ⟨ea, h1, by simp [State.readByte]⟩
  · cases h

theorem withPair_next {i : Instr} {src dst : BitVec 4} {f : TransferPair → State → State} {st t : State}
    (h : withPair i src dst f st = .next t) : ∃ p, transferPair src dst = some p ∧ t = f p (st.advance i) := by
  unfold withPair at h
  split at h
  · next p hp => exact ⟨p, hp, inherent_next h⟩
  · cases h

/-! ## Fault -/

/-- The effective address of a memory operand fails exactly when it is indirect with its pointer at 0xFFFF. -/
theorem effectiveAddress_error_iff (i : Instr) (l : Loc) (st : State) (f : Fault) (hw : l.wf = true) :
    effectiveAddress i l st = .error f ↔
      (∃ x, l = .idx x ∧ isIndirect x = true ∧ indexedAddress x (st.pcNext i) st = 0xFFFF) ∧
        f = .outOfRange st.pc i.opcode 0xFFFF := by
  constructor
  · intro h
    obtain ⟨x, h1, h2, h3, h4⟩ := effectiveAddress_error i l st f hw h
    exact ⟨⟨x, h1, h2, h3⟩, h4⟩
  · rintro ⟨⟨x, rfl, h2, h3⟩, rfl⟩
    have hx : x.wf = true := hw
    simp only [effectiveAddress, indexedEA, hx, ↓reduceIte, h2, h3, State.memRead2_top]
    rfl

/-- A memory operand with its address resolved, or the fault of R244. -/
theorem effectiveAddress_cases (i : Instr) (l : Loc) (st : State) (hw : l.wf = true) :
    (∃ ea, effectiveAddress i l st = .ok ea) ∨ effectiveAddress i l st = .error (.outOfRange st.pc i.opcode 0xFFFF) := by
  cases h : effectiveAddress i l st with
  | ok ea => exact .inl ⟨ea, rfl⟩
  | error f =>
    obtain ⟨-, -, -, -, rfl⟩ := effectiveAddress_error i l st f hw h
    exact .inr rfl

theorem operand8_error (i : Instr) (l : Loc) (st : State) (f : Fault) :
    operand8 i (.mem l) st = .error f ↔ effectiveAddress i l st = .error f := by
  simp only [operand8, locate]
  cases effectiveAddress i l st with
  | ok ea => simp
  | error e => simp

theorem operand16_error (i : Instr) (l : Loc) (st : State) (f : Fault) :
    operand16 i (.mem l) st = .error f ↔
      effectiveAddress i l st = .error f ∨
        effectiveAddress i l st = .ok 0xFFFF ∧ f = .outOfRange st.pc i.opcode 0xFFFF := by
  simp only [operand16, locate]
  cases effectiveAddress i l st with
  | ok ea =>
    simp only [reduceCtorEq, false_or, Except.ok.injEq]
    by_cases hea : ea = 0xFFFF
    · subst hea
      rw [State.memRead2_top]
      simp only [Except.error.injEq, true_and]
      exact eq_comm
    · rw [State.memRead2_of_mem_eq (st.entered i l) st (by simp) ea.toNat, State.memRead2_word st ea hea]
      exact ⟨fun h => (by cases h), fun h => absurd h.1 hea⟩
  | error e => simp

theorem withOperand8_fault {i : Instr} {o : Src8} {f : Byte → State → State} {st : State} {e : Fault} :
    withOperand8 i o f st = .fault e ↔ operand8 i o st = .error e := by
  unfold withOperand8
  cases operand8 i o st <;> simp

theorem withOperand16_fault {i : Instr} {o : Src16} {f : Word → State → State} {st : State} {e : Fault} :
    withOperand16 i o f st = .fault e ↔ operand16 i o st = .error e := by
  unfold withOperand16
  cases operand16 i o st <;> simp

theorem withEA_fault {i : Instr} {l : Loc} {f : Word → State → State} {st : State} {e : Fault} :
    withEA i l f st = .fault e ↔ effectiveAddress i l st = .error e := by
  unfold withEA locate
  cases effectiveAddress i l st <;> simp

theorem readLoc8_fault {i : Instr} {l : Loc} {f : Byte → State → State} {st : State} {e : Fault} :
    readLoc8 i l f st = .fault e ↔ effectiveAddress i l st = .error e := by
  unfold readLoc8 locate
  cases effectiveAddress i l st <;> simp

theorem storeLoc8_fault {i : Instr} {l : Loc} {value : State → Byte} {flags : State → State} {st : State} {e : Fault} :
    storeLoc8 i l value flags st = .fault e ↔ effectiveAddress i l st = .error e := by
  unfold storeLoc8 locate
  cases effectiveAddress i l st <;> simp

theorem storeLoc16_fault {i : Instr} {l : Loc} {value : State → Word} {flags : State → State} {st : State}
    {e : Fault} :
    storeLoc16 i l value flags st = .fault e ↔
      effectiveAddress i l st = .error e ∨
        effectiveAddress i l st = .ok 0xFFFF ∧ e = .outOfRange st.pc i.opcode 0xFFFF := by
  unfold storeLoc16 locate
  cases h : effectiveAddress i l st with
  | ok ea =>
    simp only [reduceCtorEq, false_or, Except.ok.injEq]
    by_cases hea : ea = 0xFFFF
    · subst hea
      simp only [State.memWrite2, Config.memSize]
      exact ⟨fun h => by cases h; exact ⟨trivial, rfl⟩, fun h => by rw [h.2]; rfl⟩
    · have hlt : ea.toNat + 1 < Config.memSize := by
        have h1 := ea.isLt
        have h2 : ea.toNat ≠ 65535 := fun e => hea (BitVec.eq_of_toNat_eq e)
        simp only [Config.memSize]
        omega
      simp only [State.memWrite2, hlt, ↓reduceIte]
      exact ⟨fun h => (by cases h), fun h => absurd h.1 hea⟩
  | error f => simp

theorem modifyLoc_fault {i : Instr} {l : Loc} {result : Byte → State → Byte} {flags : Byte → State → State}
    {st : State} {e : Fault} :
    modifyLoc i l result flags st = .fault e ↔ effectiveAddress i l st = .error e := by
  unfold modifyLoc locate
  cases effectiveAddress i l st <;> simp

theorem withPair_fault {i : Instr} {src dst : BitVec 4} {f : TransferPair → State → State} {st : State} {e : Fault} :
    withPair i src dst f st = .fault e ↔
      transferPair src dst = none ∧ e = .invalidRegisterTransfer st.pc i.opcode (src ++ dst : BitVec (4 + 4)) := by
  unfold withPair inherent
  cases transferPair src dst with
  | some p => simp
  | none =>
    simp only [Host.Outcome.fault.injEq, true_and]
    exact eq_comm

/-! ## No refusal -/

theorem inherent_not_refused {i : Instr} {f : State → State} {st : State} {r : Refusal} : inherent i f st ≠ .refused r := by
  intro h
  cases h

theorem withOperand8_not_refused {i : Instr} {o : Src8} {f : Byte → State → State} {st : State} {r : Refusal} :
    withOperand8 i o f st ≠ .refused r := by
  unfold withOperand8
  split <;> simp

theorem withOperand16_not_refused {i : Instr} {o : Src16} {f : Word → State → State} {st : State} {r : Refusal} :
    withOperand16 i o f st ≠ .refused r := by
  unfold withOperand16
  split <;> simp

theorem withEA_not_refused {i : Instr} {l : Loc} {f : Word → State → State} {st : State} {r : Refusal} :
    withEA i l f st ≠ .refused r := by
  unfold withEA
  split <;> simp

theorem readLoc8_not_refused {i : Instr} {l : Loc} {f : Byte → State → State} {st : State} {r : Refusal} :
    readLoc8 i l f st ≠ .refused r := by
  unfold readLoc8
  split <;> simp

theorem storeLoc8_not_refused {i : Instr} {l : Loc} {value : State → Byte} {flags : State → State} {st : State}
    {r : Refusal} : storeLoc8 i l value flags st ≠ .refused r := by
  unfold storeLoc8
  split <;> simp

theorem storeLoc16_not_refused {i : Instr} {l : Loc} {value : State → Word} {flags : State → State} {st : State}
    {r : Refusal} : storeLoc16 i l value flags st ≠ .refused r := by
  unfold storeLoc16
  split
  · split <;> simp
  · simp

theorem modifyLoc_not_refused {i : Instr} {l : Loc} {result : Byte → State → Byte} {flags : Byte → State → State}
    {st : State} {r : Refusal} : modifyLoc i l result flags st ≠ .refused r := by
  unfold modifyLoc
  split <;> simp

theorem withPair_not_refused {i : Instr} {src dst : BitVec 4} {f : TransferPair → State → State} {st : State}
    {r : Refusal} : withPair i src dst f st ≠ .refused r := by
  unfold withPair inherent
  split <;> simp

/-- No instruction is refused. -/
theorem exec_not_refused (i : Instr) (st : State) (r : Refusal) : exec i st ≠ .refused r := by
  cases i with
  | _ => first
    | exact withOperand8_not_refused
    | exact withOperand16_not_refused
    | exact withEA_not_refused
    | exact readLoc8_not_refused
    | exact storeLoc8_not_refused
    | exact storeLoc16_not_refused
    | exact modifyLoc_not_refused
    | exact withPair_not_refused
    | (intro h; cases h)

/-! ## Register pairs -/

theorem transferReg_code8 (r : Reg8) : transferReg (code8 r) = some (.r8 r) := by cases r <;> rfl

theorem transferReg_code16 (r : Reg16) : transferReg (code16 r) = some (.r16 r) := by cases r <;> rfl

/-- The register a code names has that code (R188). -/
theorem code_of_transferReg (c : BitVec 4) (t : TransferReg) (h : transferReg c = some t) :
    (∃ r, t = .r8 r ∧ c = code8 r) ∨ ∃ r, t = .r16 r ∧ c = code16 r := by
  have cases16 : ∀ c : BitVec 4, transferReg c = none ∨ (∃ r ∈ [Reg8.a, .b, .cc, .dp], transferReg c = some (.r8 r) ∧ c = code8 r) ∨
      ∃ r ∈ [Reg16.d, .x, .y, .u, .s, .pc], transferReg c = some (.r16 r) ∧ c = code16 r := by decide
  rcases cases16 c with h1 | ⟨r, -, h1, h2⟩ | ⟨r, -, h1, h2⟩
  · rw [h1] at h
    cases h
  · rw [h1] at h
    cases h
    exact .inl ⟨r, rfl, h2⟩
  · rw [h1] at h
    cases h
    exact .inr ⟨r, rfl, h2⟩

/-- A pair of codes names no pair of registers exactly when it is not valid (R189). -/
theorem transferPair_none_iff (src dst : BitVec 4) : transferPair src dst = none ↔ ¬ValidPair src dst := by
  constructor
  · rintro h (⟨r, q, rfl, rfl⟩ | ⟨r, q, rfl, rfl⟩)
    · simp [transferPair, transferReg_code8] at h
    · simp [transferPair, transferReg_code16] at h
  · intro h
    cases h1 : transferReg src with
    | none => simp [transferPair, h1]
    | some t1 =>
      cases h2 : transferReg dst with
      | none => simp [transferPair, h1, h2]
      | some t2 =>
        rcases code_of_transferReg _ _ h1 with ⟨r, rfl, e1⟩ | ⟨r, rfl, e1⟩ <;>
          rcases code_of_transferReg _ _ h2 with ⟨q, rfl, e2⟩ | ⟨q, rfl, e2⟩
        · exact absurd (.inl ⟨r, q, e1, e2⟩) h
        · simp [transferPair, h1, h2]
        · simp [transferPair, h1, h2]
        · exact absurd (.inr ⟨r, q, e1, e2⟩) h

end Sys2Proof.Machine
end

