-- ==== Sys2Proof/Laws/Frame.lean ====
section
/-! SUPPORT. What an instruction can do to memory, once for all instructions: nothing, one byte, one word, or a push, at
the addresses `writeAddresses` names (20_memory.md R36, R41, R45). -/

namespace Sys2Proof.Machine

/-- The memory of `t` compared with that of `st` after the instruction. -/
inductive MemoryEffect (i : Instr) (st t : State) : Prop where
  | same (h : t.mem = st.mem)
  | byte (ea : Word) (v : Byte) (at_ : writeAddresses i st = [ea]) (h : t.mem = Memory.write st.mem ea.toNat v)
  | word (ea : Word) (v w : Byte) (below : ea.toNat + 1 < Config.memSize) (at_ : writeAddresses i st = [ea, ea + 1])
      (h : t.mem = Memory.write (Memory.write st.mem ea.toNat v) (ea.toNat + 1) w)
  | push (p : Reg16) (s : State) (bytes : List Byte) (before : s.mem = st.mem) (few : bytes.length ≤ 12)
      (at_ : writeAddresses i st = pushAddresses (s.get16 p) bytes.length) (h : t.mem = (s.pushBytes p bytes).mem)

theorem eaList_ok {i : Instr} {l : Loc} {st : State} {ea : Word} (h : effectiveAddress i l st = .ok ea) :
    eaList i l st = [ea] := by
  unfold eaList
  rw [h]

section Shapes

variable {i : Instr} {st t : State}

theorem MemoryEffect.of_inherent {f : State → State} (hf : ∀ s, (f s).mem = s.mem)
    (h : inherent i f st = .next t) : MemoryEffect i st t := by
  rw [inherent_next h]
  exact .same (by rw [hf]; rfl)

theorem MemoryEffect.of_modifyReg {r : Reg8} {result : Byte → State → Byte} {flags : Byte → State → State}
    (hf : ∀ v s, (flags v s).mem = s.mem) (h : modifyReg i r result flags st = .next t) : MemoryEffect i st t :=
  .of_inherent (fun s => by rw [State.set8_mem, hf]) h

theorem MemoryEffect.of_branch {c : Cond} {disp : Word} (h : branch i c disp st = .next t) : MemoryEffect i st t :=
  .of_inherent (fun s => by split <;> rfl) h

theorem MemoryEffect.of_withOperand8 {o : Src8} {f : Byte → State → State} (hf : ∀ v s, (f v s).mem = s.mem)
    (h : withOperand8 i o f st = .next t) : MemoryEffect i st t := by
  obtain ⟨v, s, -, he, rfl⟩ := withOperand8_next h
  exact .same (by rw [hf, he.mem])

theorem MemoryEffect.of_withOperand16 {o : Src16} {f : Word → State → State} (hf : ∀ v s, (f v s).mem = s.mem)
    (h : withOperand16 i o f st = .next t) : MemoryEffect i st t := by
  obtain ⟨v, s, -, he, rfl⟩ := withOperand16_next h
  exact .same (by rw [hf, he.mem])

theorem MemoryEffect.of_withEA {l : Loc} {f : Word → State → State} (hf : ∀ v s, (f v s).mem = s.mem)
    (h : withEA i l f st = .next t) : MemoryEffect i st t := by
  obtain ⟨ea, -, rfl⟩ := withEA_next h
  exact .same (by rw [hf]; simp)

theorem MemoryEffect.of_readLoc8 {l : Loc} {f : Byte → State → State} (hf : ∀ v s, (f v s).mem = s.mem)
    (h : readLoc8 i l f st = .next t) : MemoryEffect i st t := by
  obtain ⟨ea, -, rfl⟩ := readLoc8_next h
  exact .same (by rw [hf]; simp)

theorem MemoryEffect.of_withPair {src dst : BitVec 4} {f : TransferPair → State → State}
    (hf : ∀ p s, (f p s).mem = s.mem) (h : withPair i src dst f st = .next t) : MemoryEffect i st t := by
  obtain ⟨p, -, rfl⟩ := withPair_next h
  exact .same (by rw [hf]; rfl)

theorem MemoryEffect.of_storeLoc8 {l : Loc} {value : State → Byte} {flags : State → State}
    (hf : ∀ s, (flags s).mem = s.mem) (ha : writeAddresses i st = eaList i l st)
    (h : storeLoc8 i l value flags st = .next t) : MemoryEffect i st t := by
  obtain ⟨ea, he, rfl⟩ := storeLoc8_next h
  refine .byte ea (value (st.entered i l)) (by rw [ha, eaList_ok he]) ?_
  rw [State.writeByte, State.withMem_mem, hf, State.entered_mem]

theorem MemoryEffect.of_modifyLoc {l : Loc} {result : Byte → State → Byte} {flags : Byte → State → State}
    (hf : ∀ v s, (flags v s).mem = s.mem) (ha : writeAddresses i st = eaList i l st)
    (h : modifyLoc i l result flags st = .next t) : MemoryEffect i st t := by
  obtain ⟨ea, he, rfl⟩ := modifyLoc_next h
  refine .byte ea (result (st.readByte ea) (st.entered i l)) (by rw [ha, eaList_ok he]) ?_
  rw [State.writeByte, State.withMem_mem, hf, State.entered_mem]

theorem MemoryEffect.of_storeLoc16 {l : Loc} {value : State → Word} {flags : State → State}
    (hf : ∀ s, (flags s).mem = s.mem) (ha : writeAddresses i st = (eaList i l st).flatMap wordAddresses)
    (h : storeLoc16 i l value flags st = .next t) : MemoryEffect i st t := by
  obtain ⟨ea, he, h2⟩ := storeLoc16_next h
  unfold State.memWrite2 at h2
  split at h2
  · next hlt =>
    simp only [Option.some.injEq] at h2
    subst h2
    refine .word ea (hiByte (value (st.entered i l))) (loByte (value (st.entered i l))) hlt
      (by rw [ha, eaList_ok he]; simp [wordAddresses, hlt]) ?_
    rw [State.withMem_mem, hf, State.entered_mem]
  · cases h2

theorem MemoryEffect.of_pushList {p other : Reg16} {list : Byte} (s : State) (hs : s.mem = st.mem) (hd : p ≠ .d)
    (hx : p ≠ .x) (hy : p ≠ .y) (hpc : p ≠ .pc) (ho : other ≠ p)
    (ha : writeAddresses i st = pushAddresses (s.get16 p) (listBytes list)) (h : t.mem = (s.pushList p other list).mem) :
    MemoryEffect i st t := by
  rw [State.pushList_eq s p other list hd hx hy hpc ho] at h
  refine .push p s _ hs ?_ ?_ h
  · rw [stackImage_length]
    exact listBytes_le list
  · rw [stackImage_length]
    exact ha

theorem MemoryEffect.of_callTo {target : Word} (s : State) (hs : s.mem = st.mem)
    (ha : writeAddresses i st = pushAddresses s.s 2) (h : t = callTo target s) : MemoryEffect i st t :=
  .push .s s [hiByte s.pc, loByte s.pc] hs (by simp) ha (by rw [h, callTo, State.push16_eq]; rfl)

theorem MemoryEffect.of_enterInterrupt {vector : Word} {mask : Bool} (s : State) (hs : s.mem = st.mem)
    (ha : writeAddresses i st = pushAddresses s.s 12) (h : t = s.enterInterrupt vector mask) :
    MemoryEffect i st t := by
  have hb : listBytes 0xFF = 12 := by decide
  have hm : (s.enterInterrupt vector mask).mem = ((s.withCc (putFlag .e true s.cc)).pushList .s .u 0xFF).mem := by
    rw [State.enterInterrupt]
    cases mask
    · simp only [Bool.false_eq_true, ↓reduceIte, State.withPc_mem]
    · simp only [↓reduceIte, State.withPc_mem, State.withCc_mem]
  refine .of_pushList (s.withCc (putFlag .e true s.cc)) ?_ (by decide) (by decide) (by decide) (by decide) (by decide)
    ?_ (h ▸ hm)
  · rw [State.withCc_mem, hs]
  · rw [hb]
    exact ha

end Shapes

/-- Every instruction that completes has one of the four effects on memory. -/
theorem exec_memory (i : Instr) (st t : State) (h : exec i st = .next t) : MemoryEffect i st t := by
  cases i with
  | cwai m => cases h
  | sync => cases h
  | pshs list =>
    have h : inherent (.pshs list) (fun s => s.pushList .s .u list) st = .next t := h
    have ht := congrArg State.mem (inherent_next h)
    exact .of_pushList (p := .s) (other := .u) (list := list) (st.advance (.pshs list)) rfl (by decide) (by decide)
      (by decide) (by decide) (by decide) rfl ht
  | pshu list =>
    have h : inherent (.pshu list) (fun s => s.pushList .u .s list) st = .next t := h
    have ht := congrArg State.mem (inherent_next h)
    exact .of_pushList (p := .u) (other := .s) (list := list) (st.advance (.pshu list)) rfl (by decide) (by decide)
      (by decide) (by decide) (by decide) rfl ht
  | puls list =>
    have h : inherent (.puls list) (fun s => s.pullList .s .u list) st = .next t := h
    exact .of_inherent (fun s => s.pullList_mem _ _ _) h
  | pulu list =>
    have h : inherent (.pulu list) (fun s => s.pullList .u .s list) st = .next t := h
    exact .of_inherent (fun s => s.pullList_mem _ _ _) h
  | rts =>
    have h : inherent .rts returnOp st = .next t := h
    exact .of_inherent (fun s => by simp [returnOp]) h
  | rti =>
    have h : inherent .rti State.leaveInterrupt st = .next t := h
    exact .of_inherent (fun s => s.leaveInterrupt_mem) h
  | bsr d =>
    have h : inherent (.bsr d) _ st = .next t := h
    exact .of_callTo (st.advance (.bsr d)) rfl rfl (inherent_next h)
  | lbsr d =>
    have h : inherent (.lbsr d) _ st = .next t := h
    exact .of_callTo (st.advance (.lbsr d)) rfl rfl (inherent_next h)
  | jsr l =>
    have h : withEA (.jsr l) l _ st = .next t := h
    obtain ⟨ea, he, ht⟩ := withEA_next h
    refine .of_callTo (st.entered (.jsr l) l) (by simp) ?_ ht
    show (eaList (.jsr l) l st).flatMap _ = _
    rw [eaList_ok he]
    simp
  | swi =>
    have h : inherent .swi (fun s => s.enterInterrupt Config.vectorSwi true) st = .next t := h
    exact .of_enterInterrupt (st.advance .swi) rfl rfl (inherent_next h)
  | swi2 =>
    have h : inherent .swi2 (fun s => s.enterInterrupt Config.vectorSwi2 false) st = .next t := h
    exact .of_enterInterrupt (st.advance .swi2) rfl rfl (inherent_next h)
  | swi3 =>
    have h : inherent .swi3 (fun s => s.enterInterrupt Config.vectorSwi3 false) st = .next t := h
    exact .of_enterInterrupt (st.advance .swi3) rfl rfl (inherent_next h)
  | tfr src dst =>
    have h : withPair (.tfr src dst) src dst transfer st = .next t := h
    exact .of_withPair (fun p s => by cases p <;> simp [transfer]) h
  | exg src dst =>
    have h : withPair (.exg src dst) src dst exchange st = .next t := h
    exact .of_withPair (fun p s => by cases p <;> simp [exchange]) h
  | sta l => exact .of_storeLoc8 (by intros; rfl) rfl h
  | stb l => exact .of_storeLoc8 (by intros; rfl) rfl h
  | clr l => exact .of_storeLoc8 (by intros; rfl) rfl h
  | std l | stx l | sty l | stu l | sts l => exact .of_storeLoc16 (by intros; rfl) rfl h
  | neg l | inc l | dec l | com l | lsr l | asr l | asl l | rol l | ror l =>
    exact .of_modifyLoc (by intros; rfl) rfl h
  | nega | negb | inca | incb | deca | decb | coma | comb | lsra | lsrb | asra | asrb | asla | aslb | rola | rolb | rora
  | rorb => exact .of_modifyReg (by intros; rfl) h
  | tst l => exact .of_readLoc8 (by intros; rfl) h
  | leax x | leay x | leas x | leau x | jmp l => exact .of_withEA (by intros; rfl) h
  | lda o | ldb o | adda o | addb o | adca o | adcb o | suba o | subb o | sbca o | sbcb o | cmpa o | cmpb o | anda o
  | andb o | ora o | orb o | eora o | eorb o | bita o | bitb o => exact .of_withOperand8 (by intros; rfl) h
  | ldd o | ldx o | ldy o | ldu o | lds o | addd o | subd o | cmpd o | cmpx o | cmpy o | cmpu o | cmps o =>
    exact .of_withOperand16 (by intros; rfl) h
  | tsta | tstb | daa | mul | sex | abx => exact .of_inherent (by intros; rfl) h
  | clra => exact .of_inherent (f := fun s => (clrFlags s).set8 .a 0x00) (by intros; rfl) h
  | clrb => exact .of_inherent (f := fun s => (clrFlags s).set8 .b 0x00) (by intros; rfl) h
  | andcc mask => exact .of_inherent (f := fun s => s.withCc (s.cc &&& mask)) (by intros; rfl) h
  | orcc mask => exact .of_inherent (f := fun s => s.withCc (s.cc ||| mask)) (by intros; rfl) h
  | nop => exact .of_inherent (f := fun s => s) (by intros; rfl) h
  | bra d | brn d | bhi d | bls d | bcc d | bcs d | bne d | beq d | bvc d | bvs d | bpl d | bmi d | bge d | blt d | bgt d
  | ble d | lbra d | lbrn d | lbhi d | lbls d | lbcc d | lbcs d | lbne d | lbeq d | lbvc d | lbvs d | lbpl d | lbmi d
  | lbge d | lblt d | lbgt d | lble d => exact .of_branch h

/-! ## What the addressing modes and stores keep -/

/-- A view of the state that neither an addressing mode nor a store changes: a flag, DP, the counter. -/
structure KeptByModes {α : Type} (view : State → α) : Prop where
  entered : ∀ i st s, Entered i st s → view s = view st
  mem : ∀ s m, view (s.withMem m) = view s

theorem keptByModes_dp : KeptByModes State.dp := ⟨fun _ _ _ h => h.dp, fun _ _ => rfl⟩

theorem keptByModes_flag (fl : Flag) : KeptByModes (fun s => s.flag fl) :=
  ⟨fun _ _ _ h => congrArg (getFlag fl) h.cc, fun _ _ => rfl⟩

section Views

variable {α : Type} {view : State → α} (hk : KeptByModes view) {i : Instr} {st t : State}

include hk

theorem KeptByModes.inherent {f : State → State} (hf : ∀ s, view (f s) = view s) (h : inherent i f st = .next t) :
    view t = view st := by
  rw [inherent_next h, hf, hk.entered i st _ (entered_advance i st)]

theorem KeptByModes.withOperand8 {o : Src8} {f : Byte → State → State} (hf : ∀ v s, view (f v s) = view s)
    (h : withOperand8 i o f st = .next t) : view t = view st := by
  obtain ⟨v, s, -, he, rfl⟩ := withOperand8_next h
  rw [hf, hk.entered i st s he]

theorem KeptByModes.withOperand16 {o : Src16} {f : Word → State → State} (hf : ∀ v s, view (f v s) = view s)
    (h : withOperand16 i o f st = .next t) : view t = view st := by
  obtain ⟨v, s, -, he, rfl⟩ := withOperand16_next h
  rw [hf, hk.entered i st s he]

theorem KeptByModes.withEA {l : Loc} {f : Word → State → State} (hf : ∀ v s, view (f v s) = view s)
    (h : withEA i l f st = .next t) : view t = view st := by
  obtain ⟨ea, -, rfl⟩ := withEA_next h
  rw [hf, hk.entered i st _ (entered_entered i l st)]

theorem KeptByModes.readLoc8 {l : Loc} {f : Byte → State → State} (hf : ∀ v s, view (f v s) = view s)
    (h : readLoc8 i l f st = .next t) : view t = view st := by
  obtain ⟨ea, -, rfl⟩ := readLoc8_next h
  rw [hf, hk.entered i st _ (entered_entered i l st)]

theorem KeptByModes.withPair {src dst : BitVec 4} {f : TransferPair → State → State}
    (hf : ∀ p s, transferPair src dst = some p → view (f p s) = view s) (h : withPair i src dst f st = .next t) :
    view t = view st := by
  obtain ⟨p, hp, rfl⟩ := withPair_next h
  rw [hf p _ hp, hk.entered i st _ (entered_advance i st)]

theorem KeptByModes.storeLoc8 {l : Loc} {value : State → Byte} {flags : State → State}
    (hf : ∀ s, view (flags s) = view s) (h : storeLoc8 i l value flags st = .next t) : view t = view st := by
  obtain ⟨ea, -, rfl⟩ := storeLoc8_next h
  rw [State.writeByte, hk.mem, hf, hk.entered i st _ (entered_entered i l st)]

theorem KeptByModes.modifyLoc {l : Loc} {result : Byte → State → Byte} {flags : Byte → State → State}
    (hf : ∀ v s, view (flags v s) = view s) (h : modifyLoc i l result flags st = .next t) : view t = view st := by
  obtain ⟨ea, -, rfl⟩ := modifyLoc_next h
  rw [State.writeByte, hk.mem, hf, hk.entered i st _ (entered_entered i l st)]

theorem KeptByModes.storeLoc16 {l : Loc} {value : State → Word} {flags : State → State}
    (hf : ∀ s, view (flags s) = view s) (h : storeLoc16 i l value flags st = .next t) : view t = view st := by
  obtain ⟨ea, -, h2⟩ := storeLoc16_next h
  unfold State.memWrite2 at h2
  split at h2
  · simp only [Option.some.injEq] at h2
    rw [← h2, hk.mem, hf, hk.entered i st _ (entered_entered i l st)]
  · cases h2

/-! A push changes the memory and the stack pointer only. -/

theorem KeptByModes.pushBytes_s (hs : ∀ (s : State) v, view (s.set16 .s v) = view s) (s : State) (bs : List Byte) :
    view (s.pushBytes .s bs) = view s := by
  have e : s.pushBytes .s bs = (s.set16 .s (s.s - BitVec.ofNat 16 bs.length)).withMem (s.pushBytes .s bs).mem :=
    s.pushBytes_s bs
  rw [e, hk.mem, hs]

theorem KeptByModes.pushBytes_u (hu : ∀ (s : State) v, view (s.set16 .u v) = view s) (s : State) (bs : List Byte) :
    view (s.pushBytes .u bs) = view s := by
  have e : s.pushBytes .u bs = (s.set16 .u (s.u - BitVec.ofNat 16 bs.length)).withMem (s.pushBytes .u bs).mem :=
    s.pushBytes_u bs
  rw [e, hk.mem, hu]

theorem KeptByModes.pushList_s (hs : ∀ (s : State) v, view (s.set16 .s v) = view s) (s : State) (list : Byte) :
    view (s.pushList .s .u list) = view s := by
  rw [s.pushList_eq .s .u list (by decide) (by decide) (by decide) (by decide) (by decide), hk.pushBytes_s hs]

theorem KeptByModes.pushList_u (hu : ∀ (s : State) v, view (s.set16 .u v) = view s) (s : State) (list : Byte) :
    view (s.pushList .u .s list) = view s := by
  rw [s.pushList_eq .u .s list (by decide) (by decide) (by decide) (by decide) (by decide), hk.pushBytes_u hu]

theorem KeptByModes.callTo (hs : ∀ (s : State) v, view (s.set16 .s v) = view s)
    (hp : ∀ (s : State) v, view (s.withPc v) = view s) (target : Word) (s : State) :
    view (callTo target s) = view s := by
  rw [Machine.callTo, hp, State.push16_eq, hk.pushBytes_s hs]

end Views

end Sys2Proof.Machine
end

