-- ==== Sys2Proof/Laws/Step.lean ====
section
/-! SUPPORT. The fetch window and the step: what the window holds, and what a step does when the bytes at PC decode and
when they do not (30_encoding.md R55 to R57). -/

namespace Sys2Proof.Machine

/-! ## The fetch window -/

theorem State.bytesFrom_cons (st : State) (addr count : Nat) (h : addr < Config.memSize) :
    st.bytesFrom addr (count + 1) = Memory.read st.mem addr :: st.bytesFrom (addr + 1) count := by
  simp [State.bytesFrom, State.memRead1, h]

theorem State.bytesFrom_top (st : State) (count : Nat) : st.bytesFrom Config.memSize count = [] := by
  cases count <;> simp [State.bytesFrom, State.memRead1]

/-- Bytes that lie in memory from an address on are the first of those fetched from it (R56). -/
theorem State.bytesFrom_prefix (st : State) (bytes : List Byte) (addr count : Nat) (hc : bytes.length ≤ count)
    (ht : addr + bytes.length ≤ Config.memSize)
    (hb : ∀ k (h : k < bytes.length), Memory.read st.mem (addr + k) = bytes[k]) :
    st.bytesFrom addr count = bytes ++ st.bytesFrom (addr + bytes.length) (count - bytes.length) := by
  induction bytes generalizing addr count with
  | nil => simp
  | cons b bs ih =>
    cases count with
    | zero => simp at hc
    | succ count =>
      simp only [List.length_cons] at hc ht
      have h0 : Memory.read st.mem addr = b := hb 0 (by simp)
      rw [State.bytesFrom_cons _ _ _ (by omega), h0, ih (addr + 1) count (by omega) (by omega)]
      · simp only [List.length_cons, List.cons_append]
        rw [show addr + 1 + bs.length = addr + (bs.length + 1) by omega,
          show count - bs.length = count + 1 - (bs.length + 1) by omega]
      · intro k hk
        have := hb (k + 1) (by simpa using hk)
        rw [Nat.add_assoc, Nat.add_comm 1 k]
        exact this

/-- The fetch window starts with the byte at PC (R33, R56). -/
theorem State.fetchWindow_eq (st : State) :
    st.fetchWindow = st.readByte st.pc :: st.bytesFrom (st.pc.toNat + 1) 4 :=
  State.bytesFrom_cons _ _ _ st.pc.isLt

/-- Below the top of memory the fetch goes on with the next byte (R56). -/
theorem State.bytesFrom_next (st : State) (k count : Nat) (h : st.pc.toNat + k < 65536) :
    st.bytesFrom (st.pc.toNat + k) (count + 1) =
      st.readByte (st.pc + BitVec.ofNat 16 k) :: st.bytesFrom (st.pc.toNat + (k + 1)) count := by
  rw [State.bytesFrom_cons _ _ _ h, State.readByte]
  have : (st.pc + BitVec.ofNat 16 k).toNat = st.pc.toNat + k := by
    rw [BitVec.toNat_add, BitVec.toNat_ofNat]
    omega
  rw [this, Nat.add_assoc]

/-! ## The step -/

/-- When the bytes at PC decode, the step runs the instruction (R55). -/
theorem step_of_decode {st : State} {i : Instr} {rest : List Byte} (h : decode st.fetchWindow = .ok (i, rest)) :
    step st = exec i st := by
  unfold step
  rw [h]

/-- When the bytes at PC do not decode, the step faults (R243, R244, R247). -/
theorem step_of_reject {st : State} {r : Reject} (h : decode st.fetchWindow = .error r) :
    step st = .fault (rejectFault st.pc r) := by
  unfold step
  rw [h]

end Sys2Proof.Machine
end

