-- ==== Sys2Proof/Tests/Slice0.lean ====
section
/-! SUPPORT. Tests: the well-formedness checks refuse; every row of the opcode map decodes from a word written out from
30_encoding.md R65 to R67 and 40_addressing_modes.md R83; single steps from the vectors of 95_test_vectors.md section 2
(their numbers in the docstrings; the expected states are the spec's); and for each obligation with hypotheses a
concrete state that meets them. -/

namespace Sys2Proof.Tests

set_option Elab.async false

open Sys2Proof Sys2Proof.Machine

/-! ## Helpers -/

/-- The default start state of the vectors with the instruction's bytes at `pc`. -/
def start (pc : Nat) (bytes : List Byte) : State :=
  ({ State.reset with pc := BitVec.ofNat 16 pc }).placeBytes pc bytes

/-- One step from `s` ends in `expected s`. -/
def stepsTo (s : State) (expected : State → State) : Bool :=
  match step s with
  | .next t => decide (t = expected s)
  | .fault _ => false
  | .refused _ => false

/-- One step from `s` ends in `expected s` but for CC, which holds an undefined flag, and the counter. -/
def stepsToButCc (s : State) (expected : State → State) : Bool :=
  match step s with
  | .next t => decide ({ t with cc := 0x00, freeDraws := 0 } = { expected s with cc := 0x00, freeDraws := 0 })
  | .fault _ => false
  | .refused _ => false

/-- One step from `s` ends in the fault. -/
def faultsWith (s : State) (f : Fault) : Bool :=
  match step s with
  | .next _ => false
  | .fault g => decide (g = f)
  | .refused _ => false

/-- Each byte sequence decodes to the instruction beside it, with nothing left over. -/
def decodesTo (rows : List (List Byte × Instr)) : Bool :=
  rows.all fun row =>
    match decode row.1 with
    | .ok (i, []) => decide (i = row.2)
    | .ok (_, _ :: _) => false
    | .error _ => false

/-! ## Well-formedness: each check refuses -/

theorem test_wf_refuses_postInc1_indirect : (Instr.lda (.mem (.idx (.postInc1 .x true)))).wf = false := by decide

theorem test_wf_refuses_preDec1_indirect : (Instr.std (.idx (.preDec1 .s true))).wf = false := by decide

theorem test_wf_refuses_extended_direct : (Instr.leau (.extended 0x2000 false)).wf = false := by decide

theorem test_wf_accepts_their_neighbours :
    (Instr.lda (.mem (.idx (.postInc1 .x false)))).wf = true ∧ (Instr.std (.idx (.preDec2 .s true))).wf = true ∧
    (Instr.leau (.extended 0x2000 true)).wf = true := by decide

/-- A form R83 does not have is refused by the meaning as well (log entry 7). -/
theorem test_ill_formed_operand_faults :
    exec (.lda (.mem (.idx (.postInc1 .x true)))) State.reset = .fault (.illegalOpcode 0x0000 0x00A6 (some 0x90)) := rfl

/-! ## Decoding: one word for every row of the opcode map -/

theorem test_decode_rows_1_to_14 : decodesTo [
    ([0x00, 0x40], .neg (.dir 0x40)), ([0x03, 0x40], .com (.dir 0x40)),
    ([0x04, 0x40], .lsr (.dir 0x40)), ([0x06, 0x40], .ror (.dir 0x40)),
    ([0x07, 0x40], .asr (.dir 0x40)), ([0x08, 0x40], .asl (.dir 0x40)),
    ([0x09, 0x40], .rol (.dir 0x40)), ([0x0A, 0x40], .dec (.dir 0x40)),
    ([0x0C, 0x40], .inc (.dir 0x40)), ([0x0D, 0x40], .tst (.dir 0x40)),
    ([0x0E, 0x40], .jmp (.dir 0x40)), ([0x0F, 0x40], .clr (.dir 0x40)),
    ([0x12], .nop), ([0x13], .sync)] = true := by decide +kernel

theorem test_decode_rows_15_to_28 : decodesTo [
    ([0x16, 0xFF, 0x0D], .lbra 0xFF0D), ([0x17, 0xFF, 0x0D], .lbsr 0xFF0D),
    ([0x19], .daa), ([0x1A, 0x5A], .orcc 0x5A),
    ([0x1C, 0x5A], .andcc 0x5A), ([0x1D], .sex),
    ([0x1E, 0x1B], .exg 0x1 0xB), ([0x1F, 0x1B], .tfr 0x1 0xB),
    ([0x20, 0xFE], .bra 0xFE), ([0x21, 0xFE], .brn 0xFE),
    ([0x22, 0xFE], .bhi 0xFE), ([0x23, 0xFE], .bls 0xFE),
    ([0x24, 0xFE], .bcc 0xFE), ([0x25, 0xFE], .bcs 0xFE)] = true := by decide +kernel

theorem test_decode_rows_29_to_42 : decodesTo [
    ([0x26, 0xFE], .bne 0xFE), ([0x27, 0xFE], .beq 0xFE),
    ([0x28, 0xFE], .bvc 0xFE), ([0x29, 0xFE], .bvs 0xFE),
    ([0x2A, 0xFE], .bpl 0xFE), ([0x2B, 0xFE], .bmi 0xFE),
    ([0x2C, 0xFE], .bge 0xFE), ([0x2D, 0xFE], .blt 0xFE),
    ([0x2E, 0xFE], .bgt 0xFE), ([0x2F, 0xFE], .ble 0xFE),
    ([0x30, 0x1F], .leax (.offset5 .x 0x1F)), ([0x31, 0x25], .leay (.offset5 .y 0x05)),
    ([0x32, 0xC0], .leas (.postInc1 .u false)), ([0x33, 0xE1], .leau (.postInc2 .s false))] = true := by decide +kernel

theorem test_decode_rows_43_to_56 : decodesTo [
    ([0x34, 0x96], .pshs 0x96), ([0x35, 0x96], .puls 0x96),
    ([0x36, 0x96], .pshu 0x96), ([0x37, 0x96], .pulu 0x96),
    ([0x39], .rts), ([0x3A], .abx),
    ([0x3B], .rti), ([0x3C, 0x5A], .cwai 0x5A),
    ([0x3D], .mul), ([0x3F], .swi),
    ([0x40], .nega), ([0x43], .coma),
    ([0x44], .lsra), ([0x46], .rora)] = true := by decide +kernel

theorem test_decode_rows_57_to_70 : decodesTo [
    ([0x47], .asra), ([0x48], .asla),
    ([0x49], .rola), ([0x4A], .deca),
    ([0x4C], .inca), ([0x4D], .tsta),
    ([0x4F], .clra), ([0x50], .negb),
    ([0x53], .comb), ([0x54], .lsrb),
    ([0x56], .rorb), ([0x57], .asrb),
    ([0x58], .aslb), ([0x59], .rolb)] = true := by decide +kernel

theorem test_decode_rows_71_to_84 : decodesTo [
    ([0x5A], .decb), ([0x5C], .incb),
    ([0x5D], .tstb), ([0x5F], .clrb),
    ([0x60, 0x91], .neg (.idx (.postInc2 .x true))), ([0x63, 0xA2], .com (.idx (.preDec1 .y false))),
    ([0x64, 0xC3], .lsr (.idx (.preDec2 .u false))), ([0x66, 0xF3], .ror (.idx (.preDec2 .s true))),
    ([0x67, 0x84], .asr (.idx (.noOffset .x false))), ([0x68, 0xB4], .asl (.idx (.noOffset .y true))),
    ([0x69, 0xC5], .rol (.idx (.accB .u false))), ([0x6A, 0xF5], .dec (.idx (.accB .s true))),
    ([0x6C, 0x86], .inc (.idx (.accA .x false))), ([0x6D, 0xB6], .tst (.idx (.accA .y true)))] = true := by decide +kernel

theorem test_decode_rows_85_to_98 : decodesTo [
    ([0x6E, 0xCB], .jmp (.idx (.accD .u false))), ([0x6F, 0xFB], .clr (.idx (.accD .s true))),
    ([0x70, 0x20, 0x0F], .neg (.ext 0x200F)), ([0x73, 0x20, 0x0F], .com (.ext 0x200F)),
    ([0x74, 0x20, 0x0F], .lsr (.ext 0x200F)), ([0x76, 0x20, 0x0F], .ror (.ext 0x200F)),
    ([0x77, 0x20, 0x0F], .asr (.ext 0x200F)), ([0x78, 0x20, 0x0F], .asl (.ext 0x200F)),
    ([0x79, 0x20, 0x0F], .rol (.ext 0x200F)), ([0x7A, 0x20, 0x0F], .dec (.ext 0x200F)),
    ([0x7C, 0x20, 0x0F], .inc (.ext 0x200F)), ([0x7D, 0x20, 0x0F], .tst (.ext 0x200F)),
    ([0x7E, 0x20, 0x0F], .jmp (.ext 0x200F)), ([0x7F, 0x20, 0x0F], .clr (.ext 0x200F))] = true := by decide +kernel

theorem test_decode_rows_99_to_112 : decodesTo [
    ([0x80, 0x5A], .suba (.imm 0x5A)), ([0x81, 0x5A], .cmpa (.imm 0x5A)),
    ([0x82, 0x5A], .sbca (.imm 0x5A)), ([0x83, 0x12, 0x34], .subd (.imm 0x1234)),
    ([0x84, 0x5A], .anda (.imm 0x5A)), ([0x85, 0x5A], .bita (.imm 0x5A)),
    ([0x86, 0x5A], .lda (.imm 0x5A)), ([0x88, 0x5A], .eora (.imm 0x5A)),
    ([0x89, 0x5A], .adca (.imm 0x5A)), ([0x8A, 0x5A], .ora (.imm 0x5A)),
    ([0x8B, 0x5A], .adda (.imm 0x5A)), ([0x8C, 0x12, 0x34], .cmpx (.imm 0x1234)),
    ([0x8D, 0xFE], .bsr 0xFE), ([0x8E, 0x12, 0x34], .ldx (.imm 0x1234))] = true := by decide +kernel

theorem test_decode_rows_113_to_126 : decodesTo [
    ([0x90, 0x40], .suba (.mem (.dir 0x40))), ([0x91, 0x40], .cmpa (.mem (.dir 0x40))),
    ([0x92, 0x40], .sbca (.mem (.dir 0x40))), ([0x93, 0x40], .subd (.mem (.dir 0x40))),
    ([0x94, 0x40], .anda (.mem (.dir 0x40))), ([0x95, 0x40], .bita (.mem (.dir 0x40))),
    ([0x96, 0x40], .lda (.mem (.dir 0x40))), ([0x97, 0x40], .sta (.dir 0x40)),
    ([0x98, 0x40], .eora (.mem (.dir 0x40))), ([0x99, 0x40], .adca (.mem (.dir 0x40))),
    ([0x9A, 0x40], .ora (.mem (.dir 0x40))), ([0x9B, 0x40], .adda (.mem (.dir 0x40))),
    ([0x9C, 0x40], .cmpx (.mem (.dir 0x40))), ([0x9D, 0x40], .jsr (.dir 0x40))] = true := by decide +kernel

theorem test_decode_rows_127_to_140 : decodesTo [
    ([0x9E, 0x40], .ldx (.mem (.dir 0x40))), ([0x9F, 0x40], .stx (.dir 0x40)),
    ([0xA0, 0x88, 0x7F], .suba (.mem (.idx (.offset8 .x 0x7F false)))), ([0xA1, 0xB8, 0x80], .cmpa (.mem (.idx (.offset8 .y 0x80 true)))),
    ([0xA2, 0xC9, 0x12, 0x34], .sbca (.mem (.idx (.offset16 .u 0x1234 false)))), ([0xA3, 0xF9, 0xFF, 0xFE], .subd (.mem (.idx (.offset16 .s 0xFFFE true)))),
    ([0xA4, 0x8C, 0x10], .anda (.mem (.idx (.pcr8 0 0x10 false)))), ([0xA5, 0xBC, 0x10], .bita (.mem (.idx (.pcr8 1 0x10 true)))),
    ([0xA6, 0xCD, 0x0F, 0x00], .lda (.mem (.idx (.pcr16 2 0x0F00 false)))), ([0xA7, 0xFD, 0x0F, 0x00], .sta (.idx (.pcr16 3 0x0F00 true))),
    ([0xA8, 0x9F, 0x20, 0x00], .eora (.mem (.idx (.extended 0x2000 true)))), ([0xA9, 0x1F], .adca (.mem (.idx (.offset5 .x 0x1F)))),
    ([0xAA, 0x25], .ora (.mem (.idx (.offset5 .y 0x05)))), ([0xAB, 0xC0], .adda (.mem (.idx (.postInc1 .u false))))] = true := by decide +kernel

theorem test_decode_rows_141_to_154 : decodesTo [
    ([0xAC, 0xE1], .cmpx (.mem (.idx (.postInc2 .s false)))), ([0xAD, 0x91], .jsr (.idx (.postInc2 .x true))),
    ([0xAE, 0xA2], .ldx (.mem (.idx (.preDec1 .y false)))), ([0xAF, 0xC3], .stx (.idx (.preDec2 .u false))),
    ([0xB0, 0x20, 0x0F], .suba (.mem (.ext 0x200F))), ([0xB1, 0x20, 0x0F], .cmpa (.mem (.ext 0x200F))),
    ([0xB2, 0x20, 0x0F], .sbca (.mem (.ext 0x200F))), ([0xB3, 0x20, 0x0F], .subd (.mem (.ext 0x200F))),
    ([0xB4, 0x20, 0x0F], .anda (.mem (.ext 0x200F))), ([0xB5, 0x20, 0x0F], .bita (.mem (.ext 0x200F))),
    ([0xB6, 0x20, 0x0F], .lda (.mem (.ext 0x200F))), ([0xB7, 0x20, 0x0F], .sta (.ext 0x200F)),
    ([0xB8, 0x20, 0x0F], .eora (.mem (.ext 0x200F))), ([0xB9, 0x20, 0x0F], .adca (.mem (.ext 0x200F)))] = true := by decide +kernel

theorem test_decode_rows_155_to_168 : decodesTo [
    ([0xBA, 0x20, 0x0F], .ora (.mem (.ext 0x200F))), ([0xBB, 0x20, 0x0F], .adda (.mem (.ext 0x200F))),
    ([0xBC, 0x20, 0x0F], .cmpx (.mem (.ext 0x200F))), ([0xBD, 0x20, 0x0F], .jsr (.ext 0x200F)),
    ([0xBE, 0x20, 0x0F], .ldx (.mem (.ext 0x200F))), ([0xBF, 0x20, 0x0F], .stx (.ext 0x200F)),
    ([0xC0, 0x5A], .subb (.imm 0x5A)), ([0xC1, 0x5A], .cmpb (.imm 0x5A)),
    ([0xC2, 0x5A], .sbcb (.imm 0x5A)), ([0xC3, 0x12, 0x34], .addd (.imm 0x1234)),
    ([0xC4, 0x5A], .andb (.imm 0x5A)), ([0xC5, 0x5A], .bitb (.imm 0x5A)),
    ([0xC6, 0x5A], .ldb (.imm 0x5A)), ([0xC8, 0x5A], .eorb (.imm 0x5A))] = true := by decide +kernel

theorem test_decode_rows_169_to_182 : decodesTo [
    ([0xC9, 0x5A], .adcb (.imm 0x5A)), ([0xCA, 0x5A], .orb (.imm 0x5A)),
    ([0xCB, 0x5A], .addb (.imm 0x5A)), ([0xCC, 0x12, 0x34], .ldd (.imm 0x1234)),
    ([0xCE, 0x12, 0x34], .ldu (.imm 0x1234)), ([0xD0, 0x40], .subb (.mem (.dir 0x40))),
    ([0xD1, 0x40], .cmpb (.mem (.dir 0x40))), ([0xD2, 0x40], .sbcb (.mem (.dir 0x40))),
    ([0xD3, 0x40], .addd (.mem (.dir 0x40))), ([0xD4, 0x40], .andb (.mem (.dir 0x40))),
    ([0xD5, 0x40], .bitb (.mem (.dir 0x40))), ([0xD6, 0x40], .ldb (.mem (.dir 0x40))),
    ([0xD7, 0x40], .stb (.dir 0x40)), ([0xD8, 0x40], .eorb (.mem (.dir 0x40)))] = true := by decide +kernel

theorem test_decode_rows_183_to_196 : decodesTo [
    ([0xD9, 0x40], .adcb (.mem (.dir 0x40))), ([0xDA, 0x40], .orb (.mem (.dir 0x40))),
    ([0xDB, 0x40], .addb (.mem (.dir 0x40))), ([0xDC, 0x40], .ldd (.mem (.dir 0x40))),
    ([0xDD, 0x40], .std (.dir 0x40)), ([0xDE, 0x40], .ldu (.mem (.dir 0x40))),
    ([0xDF, 0x40], .stu (.dir 0x40)), ([0xE0, 0xF3], .subb (.mem (.idx (.preDec2 .s true)))),
    ([0xE1, 0x84], .cmpb (.mem (.idx (.noOffset .x false)))), ([0xE2, 0xB4], .sbcb (.mem (.idx (.noOffset .y true)))),
    ([0xE3, 0xC5], .addd (.mem (.idx (.accB .u false)))), ([0xE4, 0xF5], .andb (.mem (.idx (.accB .s true)))),
    ([0xE5, 0x86], .bitb (.mem (.idx (.accA .x false)))), ([0xE6, 0xB6], .ldb (.mem (.idx (.accA .y true))))] = true := by decide +kernel

theorem test_decode_rows_197_to_210 : decodesTo [
    ([0xE7, 0xCB], .stb (.idx (.accD .u false))), ([0xE8, 0xFB], .eorb (.mem (.idx (.accD .s true)))),
    ([0xE9, 0x88, 0x7F], .adcb (.mem (.idx (.offset8 .x 0x7F false)))), ([0xEA, 0xB8, 0x80], .orb (.mem (.idx (.offset8 .y 0x80 true)))),
    ([0xEB, 0xC9, 0x12, 0x34], .addb (.mem (.idx (.offset16 .u 0x1234 false)))), ([0xEC, 0xF9, 0xFF, 0xFE], .ldd (.mem (.idx (.offset16 .s 0xFFFE true)))),
    ([0xED, 0x8C, 0x10], .std (.idx (.pcr8 0 0x10 false))), ([0xEE, 0xBC, 0x10], .ldu (.mem (.idx (.pcr8 1 0x10 true)))),
    ([0xEF, 0xCD, 0x0F, 0x00], .stu (.idx (.pcr16 2 0x0F00 false))), ([0xF0, 0x20, 0x0F], .subb (.mem (.ext 0x200F))),
    ([0xF1, 0x20, 0x0F], .cmpb (.mem (.ext 0x200F))), ([0xF2, 0x20, 0x0F], .sbcb (.mem (.ext 0x200F))),
    ([0xF3, 0x20, 0x0F], .addd (.mem (.ext 0x200F))), ([0xF4, 0x20, 0x0F], .andb (.mem (.ext 0x200F)))] = true := by decide +kernel

theorem test_decode_rows_211_to_224 : decodesTo [
    ([0xF5, 0x20, 0x0F], .bitb (.mem (.ext 0x200F))), ([0xF6, 0x20, 0x0F], .ldb (.mem (.ext 0x200F))),
    ([0xF7, 0x20, 0x0F], .stb (.ext 0x200F)), ([0xF8, 0x20, 0x0F], .eorb (.mem (.ext 0x200F))),
    ([0xF9, 0x20, 0x0F], .adcb (.mem (.ext 0x200F))), ([0xFA, 0x20, 0x0F], .orb (.mem (.ext 0x200F))),
    ([0xFB, 0x20, 0x0F], .addb (.mem (.ext 0x200F))), ([0xFC, 0x20, 0x0F], .ldd (.mem (.ext 0x200F))),
    ([0xFD, 0x20, 0x0F], .std (.ext 0x200F)), ([0xFE, 0x20, 0x0F], .ldu (.mem (.ext 0x200F))),
    ([0xFF, 0x20, 0x0F], .stu (.ext 0x200F)), ([0x10, 0x21, 0xFF, 0x0D], .lbrn 0xFF0D),
    ([0x10, 0x22, 0xFF, 0x0D], .lbhi 0xFF0D), ([0x10, 0x23, 0xFF, 0x0D], .lbls 0xFF0D)] = true := by decide +kernel

theorem test_decode_rows_225_to_238 : decodesTo [
    ([0x10, 0x24, 0xFF, 0x0D], .lbcc 0xFF0D), ([0x10, 0x25, 0xFF, 0x0D], .lbcs 0xFF0D),
    ([0x10, 0x26, 0xFF, 0x0D], .lbne 0xFF0D), ([0x10, 0x27, 0xFF, 0x0D], .lbeq 0xFF0D),
    ([0x10, 0x28, 0xFF, 0x0D], .lbvc 0xFF0D), ([0x10, 0x29, 0xFF, 0x0D], .lbvs 0xFF0D),
    ([0x10, 0x2A, 0xFF, 0x0D], .lbpl 0xFF0D), ([0x10, 0x2B, 0xFF, 0x0D], .lbmi 0xFF0D),
    ([0x10, 0x2C, 0xFF, 0x0D], .lbge 0xFF0D), ([0x10, 0x2D, 0xFF, 0x0D], .lblt 0xFF0D),
    ([0x10, 0x2E, 0xFF, 0x0D], .lbgt 0xFF0D), ([0x10, 0x2F, 0xFF, 0x0D], .lble 0xFF0D),
    ([0x10, 0x3F], .swi2), ([0x10, 0x83, 0x12, 0x34], .cmpd (.imm 0x1234))] = true := by decide +kernel

theorem test_decode_rows_239_to_252 : decodesTo [
    ([0x10, 0x8C, 0x12, 0x34], .cmpy (.imm 0x1234)), ([0x10, 0x8E, 0x12, 0x34], .ldy (.imm 0x1234)),
    ([0x10, 0x93, 0x40], .cmpd (.mem (.dir 0x40))), ([0x10, 0x9C, 0x40], .cmpy (.mem (.dir 0x40))),
    ([0x10, 0x9E, 0x40], .ldy (.mem (.dir 0x40))), ([0x10, 0x9F, 0x40], .sty (.dir 0x40)),
    ([0x10, 0xA3, 0xFD, 0x0F, 0x00], .cmpd (.mem (.idx (.pcr16 3 0x0F00 true)))), ([0x10, 0xAC, 0x9F, 0x20, 0x00], .cmpy (.mem (.idx (.extended 0x2000 true)))),
    ([0x10, 0xAE, 0x1F], .ldy (.mem (.idx (.offset5 .x 0x1F)))), ([0x10, 0xAF, 0x25], .sty (.idx (.offset5 .y 0x05))),
    ([0x10, 0xB3, 0x20, 0x0F], .cmpd (.mem (.ext 0x200F))), ([0x10, 0xBC, 0x20, 0x0F], .cmpy (.mem (.ext 0x200F))),
    ([0x10, 0xBE, 0x20, 0x0F], .ldy (.mem (.ext 0x200F))), ([0x10, 0xBF, 0x20, 0x0F], .sty (.ext 0x200F))] = true := by decide +kernel

theorem test_decode_rows_253_to_266 : decodesTo [
    ([0x10, 0xCE, 0x12, 0x34], .lds (.imm 0x1234)), ([0x10, 0xDE, 0x40], .lds (.mem (.dir 0x40))),
    ([0x10, 0xDF, 0x40], .sts (.dir 0x40)), ([0x10, 0xEE, 0xC0], .lds (.mem (.idx (.postInc1 .u false)))),
    ([0x10, 0xEF, 0xE1], .sts (.idx (.postInc2 .s false))), ([0x10, 0xFE, 0x20, 0x0F], .lds (.mem (.ext 0x200F))),
    ([0x10, 0xFF, 0x20, 0x0F], .sts (.ext 0x200F)), ([0x11, 0x3F], .swi3),
    ([0x11, 0x83, 0x12, 0x34], .cmpu (.imm 0x1234)), ([0x11, 0x8C, 0x12, 0x34], .cmps (.imm 0x1234)),
    ([0x11, 0x93, 0x40], .cmpu (.mem (.dir 0x40))), ([0x11, 0x9C, 0x40], .cmps (.mem (.dir 0x40))),
    ([0x11, 0xA3, 0x91], .cmpu (.mem (.idx (.postInc2 .x true)))), ([0x11, 0xAC, 0xA2], .cmps (.mem (.idx (.preDec1 .y false))))] = true := by decide +kernel

theorem test_decode_rows_267_to_268 : decodesTo [
    ([0x11, 0xB3, 0x20, 0x0F], .cmpu (.mem (.ext 0x200F))), ([0x11, 0xBC, 0x20, 0x0F], .cmps (.mem (.ext 0x200F)))] = true := by decide +kernel

/-! ## Single steps from the spec's vectors -/

/-- V3, V4, V5. -/
theorem test_direct_and_extended :
    (stepsTo ({ (start 0x0100 [0x96, 0x40]).placeBytes 0x2040 [0x77] with dp := 0x20 }) fun s => { s with a := 0x77, pc := 0x0102 }) = true ∧
    (stepsTo ({ (start 0x0100 [0x96, 0xFF]).placeBytes 0xFFFF [0x80] with dp := 0xFF }) fun s => { s with a := 0x80, cc := 0x08, pc := 0x0102 }) = true ∧
    (stepsTo ((start 0x0100 [0xB6, 0x12, 0x34]).placeBytes 0x1234 [0x01]) fun s => { s with a := 0x01, pc := 0x0103 }) = true := by decide +kernel

/-- V12, V14, V16. -/
theorem test_indexed_offsets :
    (stepsTo ({ (start 0x0100 [0xA6, 0x1F]).placeBytes 0xFFFF [0x23] with x := 0x0000 }) fun s => { s with a := 0x23, pc := 0x0102 }) = true ∧
    (stepsTo ({ (start 0x0100 [0xA6, 0x88, 0x80]).placeBytes 0x1F80 [0x25] with x := 0x2000 }) fun s => { s with a := 0x25, pc := 0x0103 }) = true ∧
    (stepsTo ({ (start 0x0100 [0xA6, 0x89, 0xFF, 0xFF]).placeBytes 0x1FFF [0x27] with x := 0x2000 }) fun s => { s with a := 0x27, pc := 0x0104 }) = true := by decide +kernel

/-- V17, V18, V19. -/
theorem test_indexed_accumulators :
    (stepsTo ({ (start 0x0100 [0xA6, 0x86]).placeBytes 0x1F80 [0x28] with x := 0x2000, a := 0x80 }) fun s => { s with a := 0x28, pc := 0x0102 }) = true ∧
    (stepsTo ({ (start 0x0100 [0xA6, 0x85]).placeBytes 0x207F [0x29] with x := 0x2000, b := 0x7F }) fun s => { s with a := 0x29, pc := 0x0102 }) = true ∧
    (stepsTo ({ (start 0x0100 [0xA6, 0x8B]).placeBytes 0x1FFE [0x2A] with x := 0x2000, a := 0xFF, b := 0xFE }) fun s => { s with a := 0x2A, pc := 0x0102 }) = true := by decide +kernel

/-- V21, V22, V24. -/
theorem test_indexed_autoincrement :
    (stepsTo ({ (start 0x0100 [0xEC, 0x81]).placeBytes 0x2000 [0x32, 0x33] with x := 0x2000 }) fun s => { s with a := 0x32, b := 0x33, x := 0x2002, pc := 0x0102 }) = true ∧
    (stepsTo ({ (start 0x0100 [0xA6, 0x82]).placeBytes 0x1FFF [0x34] with x := 0x2000 }) fun s => { s with a := 0x34, x := 0x1FFF, pc := 0x0102 }) = true ∧
    (stepsTo ({ (start 0x0100 [0xA6, 0x80]).placeBytes 0xFFFF [0x37] with x := 0xFFFF }) fun s => { s with a := 0x37, x := 0x0000, pc := 0x0102 }) = true := by decide +kernel

/-- V26, V28, V29. -/
theorem test_indexed_pc_relative :
    (stepsTo ((start 0x0100 [0xA6, 0x8C, 0x10]).placeBytes 0x0113 [0x41]) fun s => { s with a := 0x41, pc := 0x0103 }) = true ∧
    (stepsTo ((start 0x0100 [0xA6, 0x8D, 0x0F, 0x00]).placeBytes 0x1004 [0x42]) fun s => { s with a := 0x42, pc := 0x0104 }) = true ∧
    (stepsTo ((start 0x0100 [0xA6, 0xEC, 0x10]).placeBytes 0x0113 [0x43]) fun s => { s with a := 0x43, pc := 0x0103 }) = true := by decide +kernel

/-- V31, V33, V34. -/
theorem test_indirect_forms :
    (stepsTo ({ ((start 0x0100 [0xA6, 0x98, 0x02]).placeBytes 0x2002 [0x30, 0x01]).placeBytes 0x3001 [0x52] with x := 0x2000 }) fun s => { s with a := 0x52, pc := 0x0103 }) = true ∧
    (stepsTo ({ ((start 0x0100 [0xA6, 0x91]).placeBytes 0x2000 [0x30, 0x03]).placeBytes 0x3003 [0x54] with x := 0x2000 }) fun s => { s with a := 0x54, x := 0x2002, pc := 0x0102 }) = true ∧
    (stepsTo ({ ((start 0x0100 [0xA6, 0x93]).placeBytes 0x2000 [0x30, 0x04]).placeBytes 0x3004 [0x55] with x := 0x2002 }) fun s => { s with a := 0x55, x := 0x2000, pc := 0x0102 }) = true := by decide +kernel

/-- V36, V37, V39. -/
theorem test_indirect_accumulator_pcr_extended :
    (stepsTo ({ ((start 0x0100 [0xA6, 0x9B]).placeBytes 0x2004 [0x30, 0x06]).placeBytes 0x3006 [0x57] with x := 0x2000, a := 0x00, b := 0x04 }) fun s => { s with a := 0x57, pc := 0x0102 }) = true ∧
    (stepsTo (((start 0x0100 [0xA6, 0x9C, 0x05]).placeBytes 0x0108 [0x30, 0x07]).placeBytes 0x3007 [0x58]) fun s => { s with a := 0x58, pc := 0x0103 }) = true ∧
    (stepsTo (((start 0x0100 [0xA6, 0x9F, 0x20, 0x00]).placeBytes 0x2000 [0x30, 0x09]).placeBytes 0x3009 [0x5A]) fun s => { s with a := 0x5A, pc := 0x0104 }) = true := by decide +kernel

/-- V45, V46, V48. -/
theorem test_load_accumulators :
    (stepsTo ({ start 0x0100 [0x86, 0x80] with cc := 0x06 }) fun s => { s with a := 0x80, cc := 0x08, pc := 0x0102 }) = true ∧
    (stepsTo ({ start 0x0100 [0xC6, 0x7F] with cc := 0xFF }) fun s => { s with b := 0x7F, cc := 0xF1, pc := 0x0102 }) = true ∧
    (stepsTo (start 0x0100 [0xCC, 0x80, 0x00]) fun s => { s with a := 0x80, cc := 0x08, pc := 0x0103 }) = true := by decide +kernel

/-- V49, V50. -/
theorem test_load_index_registers :
    (stepsTo (start 0x0100 [0x8E, 0xFF, 0xFF]) fun s => { s with x := 0xFFFF, cc := 0x08, pc := 0x0103 }) = true ∧
    (stepsTo ({ start 0x0100 [0x10, 0x8E, 0x00, 0x00] with y := 0x0005 }) fun s => { s with y := 0x0000, cc := 0x04, pc := 0x0104 }) = true := by decide +kernel

/-- V51, V53. -/
theorem test_load_stack_pointers :
    (stepsTo (start 0x0100 [0xCE, 0x12, 0x34]) fun s => { s with u := 0x1234, pc := 0x0103 }) = true ∧
    (stepsTo ((start 0x0100 [0x10, 0xFE, 0x20, 0x00]).placeBytes 0x2000 [0x7F, 0xFF]) fun s => { s with s := 0x7FFF, pc := 0x0104 }) = true := by decide +kernel

/-- V54, V55. -/
theorem test_store_accumulators :
    (stepsTo ({ start 0x0100 [0x97, 0x10] with a := 0x80, dp := 0x30, cc := 0x03 }) fun s => { s.placeBytes 0x3010 [0x80] with cc := 0x09, pc := 0x0102 }) = true ∧
    (stepsTo ({ (start 0x0100 [0xE7, 0x84]).placeBytes 0x2000 [0xFF] with b := 0x00, x := 0x2000 }) fun s => { s.placeBytes 0x2000 [0x00] with cc := 0x04, pc := 0x0102 }) = true := by decide +kernel

/-- V56, V57, V58. -/
theorem test_store_words :
    (stepsTo ({ start 0x0100 [0xFD, 0x20, 0x00] with a := 0x12, b := 0x34 }) fun s => { s.placeBytes 0x2000 [0x12, 0x34] with pc := 0x0103 }) = true ∧
    (stepsTo ({ start 0x0100 [0xAF, 0x81] with x := 0x2000 }) fun s => { s.placeBytes 0x2000 [0x20, 0x02] with x := 0x2002, pc := 0x0102 }) = true ∧
    (stepsTo ({ start 0x0100 [0x10, 0x9F, 0x84] with y := 0x1013 }) fun s => { s.placeBytes 0x0084 [0x10, 0x13] with pc := 0x0103 }) = true := by decide +kernel

/-- V59, V60. -/
theorem test_store_stack_pointers :
    (stepsTo ({ start 0x0100 [0xDF, 0x00] with u := 0xFFFF }) fun s => { s.placeBytes 0x0000 [0xFF, 0xFF] with cc := 0x08, pc := 0x0102 }) = true ∧
    (stepsTo ({ start 0x0100 [0x10, 0xEF, 0xE4] with s := 0x2000 }) fun s => { s.placeBytes 0x2000 [0x20, 0x00] with pc := 0x0103 }) = true := by decide +kernel

/-- V62, V63. -/
theorem test_word_at_top :
    (faultsWith ({ start 0x0100 [0xFD, 0xFF, 0xFF] with a := 0x12, b := 0x34 }) (.outOfRange 0x0100 0xFD 0xFFFF)) = true ∧
    (faultsWith ((start 0x0100 [0xFC, 0xFF, 0xFF]).placeBytes 0xFFFF [0x99]) (.outOfRange 0x0100 0xFC 0xFFFF)) = true := by decide +kernel

/-- V40, V42, V67. -/
theorem test_lea :
    (stepsTo ({ start 0x0100 [0x30, 0x1F] with x := 0x0001 }) fun s => { s with x := 0x0000, cc := 0x04, pc := 0x0102 }) = true ∧
    (stepsTo ({ start 0x0100 [0x30, 0x80] with x := 0x2000 }) fun s => { s with pc := 0x0102 }) = true ∧
    (stepsTo ({ start 0x0100 [0x31, 0x3F] with y := 0x0001 }) fun s => { s with y := 0x0000, cc := 0x04, pc := 0x0102 }) = true := by decide +kernel

/-- V64, V65. -/
theorem test_lea_stack_pointers :
    (stepsTo ({ start 0x0100 [0x32, 0x7E] with s := 0x8000, cc := 0x0F }) fun s => { s with s := 0x7FFE, pc := 0x0102 }) = true ∧
    (stepsTo ({ start 0x0100 [0x33, 0x5F] with u := 0x0000, cc := 0x00 }) fun s => { s with u := 0xFFFF, pc := 0x0102 }) = true := by decide +kernel

/-- V69, V74. -/
theorem test_add :
    (stepsTo ({ start 0x0100 [0x8B, 0x01] with a := 0x7F }) fun s => { s with a := 0x80, cc := 0x2A, pc := 0x0102 }) = true ∧
    (stepsTo ({ start 0x0100 [0xCB, 0x10] with b := 0xF0, cc := 0xD0 }) fun s => { s with b := 0x00, cc := 0xD5, pc := 0x0102 }) = true := by decide +kernel

/-- V75, V77. -/
theorem test_adc :
    (stepsTo ({ start 0x0100 [0x89, 0x00] with a := 0xFF, cc := 0x01 }) fun s => { s with a := 0x00, cc := 0x25, pc := 0x0102 }) = true ∧
    (stepsTo ({ start 0x0100 [0xC9, 0x0F] with b := 0x00, cc := 0x01 }) fun s => { s with b := 0x10, cc := 0x20, pc := 0x0102 }) = true := by decide +kernel

/-- V80, V83. -/
theorem test_sub :
    (stepsToButCc ({ start 0x0100 [0x80, 0xFF] with a := 0x7F }) fun s => { s with a := 0x80, pc := 0x0102 }) = true ∧
    (stepsToButCc ({ start 0x0100 [0xC0, 0x01] with b := 0x01, cc := 0x01 }) fun s => { s with b := 0x00, pc := 0x0102 }) = true := by decide +kernel

/-- V85, V86. -/
theorem test_sbc :
    (stepsToButCc ({ start 0x0100 [0x82, 0xFF] with a := 0x00, cc := 0x01 }) fun s => { s with pc := 0x0102 }) = true ∧
    (stepsToButCc ({ start 0x0100 [0xC2, 0x7F] with b := 0x80, cc := 0x01 }) fun s => { s with b := 0x00, pc := 0x0102 }) = true := by decide +kernel

/-- V88, V89. -/
theorem test_cmp :
    (stepsToButCc ({ start 0x0100 [0x81, 0x20] with a := 0x10 }) fun s => { s with pc := 0x0102 }) = true ∧
    (stepsToButCc ({ start 0x0100 [0xC1, 0x01] with b := 0x80 }) fun s => { s with pc := 0x0102 }) = true := by decide +kernel

/-- V91, V93. -/
theorem test_addd_subd :
    (stepsTo ({ start 0x0100 [0xC3, 0x00, 0x01] with a := 0x7F, b := 0xFF, cc := 0x20 }) fun s => { s with a := 0x80, b := 0x00, cc := 0x2A, pc := 0x0103 }) = true ∧
    (stepsTo ({ start 0x0100 [0x83, 0x00, 0x01] with a := 0x80, b := 0x00 }) fun s => { s with a := 0x7F, b := 0xFF, cc := 0x02, pc := 0x0103 }) = true := by decide +kernel

/-- V94, V95, V96. -/
theorem test_cmp_words :
    (stepsTo ({ start 0x0100 [0x10, 0x83, 0x12, 0x34] with a := 0x12, b := 0x34 }) fun s => { s with cc := 0x04, pc := 0x0104 }) = true ∧
    (stepsTo ({ start 0x0100 [0x8C, 0x20, 0x08] with x := 0x2007 }) fun s => { s with cc := 0x09, pc := 0x0103 }) = true ∧
    (stepsTo ({ start 0x0100 [0x10, 0x8C, 0x00, 0x00] with y := 0x8000 }) fun s => { s with cc := 0x08, pc := 0x0104 }) = true := by decide +kernel

/-- V97, V98. -/
theorem test_cmp_stack_pointers :
    (stepsTo ({ start 0x0100 [0x11, 0x83, 0x10, 0x13] with u := 0x1013 }) fun s => { s with cc := 0x04, pc := 0x0104 }) = true ∧
    (stepsTo ({ start 0x0100 [0x11, 0x8C, 0x80, 0x00] with s := 0x7FFF }) fun s => { s with cc := 0x0B, pc := 0x0104 }) = true := by decide +kernel

/-- V103, V104, V105. -/
theorem test_neg :
    (stepsToButCc ({ start 0x0100 [0x40] with a := 0x7F }) fun s => { s with a := 0x81, pc := 0x0101 }) = true ∧
    (stepsToButCc ({ start 0x0100 [0x50] with b := 0xFF }) fun s => { s with b := 0x01, pc := 0x0101 }) = true ∧
    (stepsToButCc ((start 0x0100 [0x00, 0x10]).placeBytes 0x0010 [0x80]) fun s => { s.placeBytes 0x0010 [0x80] with pc := 0x0102 }) = true := by decide +kernel

/-- V106, V109, V110. -/
theorem test_inc :
    (stepsTo ({ start 0x0100 [0x4C] with a := 0x7F, cc := 0x01 }) fun s => { s with a := 0x80, cc := 0x0B, pc := 0x0101 }) = true ∧
    (stepsTo ({ start 0x0100 [0x5C] with b := 0x7F }) fun s => { s with b := 0x80, cc := 0x0A, pc := 0x0101 }) = true ∧
    (stepsTo ((start 0x0100 [0x7C, 0x20, 0x00]).placeBytes 0x2000 [0xFF]) fun s => { s.placeBytes 0x2000 [0x00] with cc := 0x04, pc := 0x0103 }) = true := by decide +kernel

/-- V111, V114, V115. -/
theorem test_dec :
    (stepsTo ({ start 0x0100 [0x4A] with a := 0x80, cc := 0x01 }) fun s => { s with a := 0x7F, cc := 0x03, pc := 0x0101 }) = true ∧
    (stepsTo ({ start 0x0100 [0x5A] with b := 0x01 }) fun s => { s with b := 0x00, cc := 0x04, pc := 0x0101 }) = true ∧
    (stepsTo ({ (start 0x0100 [0x6A, 0x84]).placeBytes 0x2000 [0x80] with x := 0x2000 }) fun s => { s.placeBytes 0x2000 [0x7F] with cc := 0x02, pc := 0x0102 }) = true := by decide +kernel

/-- V119, V120, V121. -/
theorem test_clr :
    (stepsTo ({ start 0x0100 [0x4F] with a := 0xAA, cc := 0xFB }) fun s => { s with a := 0x00, cc := 0xF4, pc := 0x0101 }) = true ∧
    (stepsTo ({ start 0x0100 [0x5F] with b := 0x01 }) fun s => { s with b := 0x00, cc := 0x04, pc := 0x0101 }) = true ∧
    (stepsTo ({ (start 0x0100 [0x0F, 0x20]).placeBytes 0x1020 [0xEE] with dp := 0x10 }) fun s => { s.placeBytes 0x1020 [0x00] with cc := 0x04, pc := 0x0102 }) = true := by decide +kernel

/-- V116, V117, V118. -/
theorem test_tst :
    (stepsTo ({ start 0x0100 [0x4D] with a := 0x80, cc := 0x03 }) fun s => { s with cc := 0x09, pc := 0x0101 }) = true ∧
    (stepsTo ({ start 0x0100 [0x5D] with b := 0x00, cc := 0x09 }) fun s => { s with cc := 0x05, pc := 0x0101 }) = true ∧
    (stepsTo ((start 0x0100 [0x7D, 0x20, 0x00]).placeBytes 0x2000 [0x01]) fun s => { s with pc := 0x0103 }) = true := by decide +kernel

/-- V131, V133. -/
theorem test_daa :
    (stepsToButCc ({ start 0x0100 [0x19] with a := 0x9A, cc := 0x00 }) fun s => { s with a := 0x00, pc := 0x0101 }) = true ∧
    (stepsToButCc ({ start 0x0100 [0x19] with a := 0x99, cc := 0x01 }) fun s => { s with a := 0xF9, pc := 0x0101 }) = true := by decide +kernel

/-- V125, V127. -/
theorem test_mul :
    (stepsTo ({ start 0x0100 [0x3D] with a := 0xFF, b := 0xFF, cc := 0x0A }) fun s => { s with a := 0xFE, b := 0x01, pc := 0x0101 }) = true ∧
    (stepsTo ({ start 0x0100 [0x3D] with a := 0x80, b := 0x01, cc := 0x0A }) fun s => { s with a := 0x00, b := 0x80, cc := 0x0B, pc := 0x0101 }) = true := by decide +kernel

/-- V137, V138. -/
theorem test_sex :
    (stepsTo ({ start 0x0100 [0x1D] with b := 0x80, a := 0x12 }) fun s => { s with a := 0xFF, cc := 0x08, pc := 0x0101 }) = true ∧
    (stepsTo ({ start 0x0100 [0x1D] with b := 0x7F, a := 0xFF, cc := 0x02 }) fun s => { s with a := 0x00, pc := 0x0101 }) = true := by decide +kernel

/-- V140, V141. -/
theorem test_abx :
    (stepsTo ({ start 0x0100 [0x3A] with x := 0xFFFF, b := 0xFF, cc := 0x00 }) fun s => { s with x := 0x00FE, pc := 0x0101 }) = true ∧
    (stepsTo ({ start 0x0100 [0x3A] with x := 0x1000, b := 0x80 }) fun s => { s with x := 0x1080, pc := 0x0101 }) = true := by decide +kernel

/-- V142, V143. -/
theorem test_and :
    (stepsTo ({ start 0x0100 [0x84, 0x0F] with a := 0xF0, cc := 0x03 }) fun s => { s with a := 0x00, cc := 0x05, pc := 0x0102 }) = true ∧
    (stepsTo ({ start 0x0100 [0xC4, 0x80] with b := 0xFF }) fun s => { s with b := 0x80, cc := 0x08, pc := 0x0102 }) = true := by decide +kernel

/-- V144, V145. -/
theorem test_or :
    (stepsTo ({ start 0x0100 [0x8A, 0x00] with a := 0x00 }) fun s => { s with cc := 0x04, pc := 0x0102 }) = true ∧
    (stepsTo ({ start 0x0100 [0xCA, 0x81] with b := 0x02 }) fun s => { s with b := 0x83, cc := 0x08, pc := 0x0102 }) = true := by decide +kernel

/-- V146, V147. -/
theorem test_eor :
    (stepsTo ({ start 0x0100 [0x88, 0xFF] with a := 0xFF }) fun s => { s with a := 0x00, cc := 0x04, pc := 0x0102 }) = true ∧
    (stepsTo ({ start 0x0100 [0xC8, 0x20] with b := 0xA0 }) fun s => { s with b := 0x80, cc := 0x08, pc := 0x0102 }) = true := by decide +kernel

/-- V148, V149. -/
theorem test_bit :
    (stepsTo ({ start 0x0100 [0x85, 0x80] with a := 0x80 }) fun s => { s with cc := 0x08, pc := 0x0102 }) = true ∧
    (stepsTo ({ start 0x0100 [0xC5, 0x01] with b := 0xFE }) fun s => { s with cc := 0x04, pc := 0x0102 }) = true := by decide +kernel

/-- V122, V123, V124. -/
theorem test_com :
    (stepsTo ({ start 0x0100 [0x43] with a := 0x00 }) fun s => { s with a := 0xFF, cc := 0x09, pc := 0x0101 }) = true ∧
    (stepsTo ({ start 0x0100 [0x53] with b := 0xFF }) fun s => { s with b := 0x00, cc := 0x05, pc := 0x0101 }) = true ∧
    (stepsTo ({ (start 0x0100 [0x63, 0x84]).placeBytes 0x2000 [0x55] with x := 0x2000 }) fun s => { s.placeBytes 0x2000 [0xAA] with cc := 0x09, pc := 0x0102 }) = true := by decide +kernel

/-- V150, V152. -/
theorem test_andcc_orcc :
    (stepsTo ({ start 0x0100 [0x1C, 0xAF] with cc := 0xFF }) fun s => { s with cc := 0xAF, pc := 0x0102 }) = true ∧
    (stepsTo ({ start 0x0100 [0x1A, 0x50] with cc := 0x00 }) fun s => { s with cc := 0x50, pc := 0x0102 }) = true := by decide +kernel

/-- V155, V157, V158. -/
theorem test_lsr :
    (stepsTo ({ start 0x0100 [0x44] with a := 0x80, cc := 0x01 }) fun s => { s with a := 0x40, cc := 0x00, pc := 0x0101 }) = true ∧
    (stepsTo ({ start 0x0100 [0x54] with b := 0xFF }) fun s => { s with b := 0x7F, cc := 0x01, pc := 0x0101 }) = true ∧
    (stepsTo ((start 0x0100 [0x74, 0x20, 0x00]).placeBytes 0x2000 [0x03]) fun s => { s.placeBytes 0x2000 [0x01] with cc := 0x01, pc := 0x0103 }) = true := by decide +kernel

/-- V159, V162, V163. -/
theorem test_asr :
    (stepsToButCc ({ start 0x0100 [0x47] with a := 0x81 }) fun s => { s with a := 0xC0, pc := 0x0101 }) = true ∧
    (stepsToButCc ({ start 0x0100 [0x57] with b := 0xFF }) fun s => { s with pc := 0x0101 }) = true ∧
    (stepsToButCc ((start 0x0100 [0x07, 0x10]).placeBytes 0x0010 [0x80]) fun s => { s.placeBytes 0x0010 [0xC0] with pc := 0x0102 }) = true := by decide +kernel

/-- V165, V168, V169. -/
theorem test_asl :
    (stepsToButCc ({ start 0x0100 [0x48] with a := 0x40 }) fun s => { s with a := 0x80, pc := 0x0101 }) = true ∧
    (stepsToButCc ({ start 0x0100 [0x58] with b := 0x7F }) fun s => { s with b := 0xFE, pc := 0x0101 }) = true ∧
    (stepsToButCc ({ (start 0x0100 [0x68, 0x84]).placeBytes 0x2000 [0xFF] with x := 0x2000 }) fun s => { s.placeBytes 0x2000 [0xFE] with pc := 0x0102 }) = true := by decide +kernel

/-- V171, V174, V175. -/
theorem test_rol :
    (stepsTo ({ start 0x0100 [0x49] with a := 0x80, cc := 0x01 }) fun s => { s with a := 0x01, cc := 0x03, pc := 0x0101 }) = true ∧
    (stepsTo ({ start 0x0100 [0x59] with b := 0xFF, cc := 0x00 }) fun s => { s with b := 0xFE, cc := 0x09, pc := 0x0101 }) = true ∧
    (stepsTo ({ (start 0x0100 [0x79, 0x20, 0x00]).placeBytes 0x2000 [0x7F] with cc := 0x01 }) fun s => { s.placeBytes 0x2000 [0xFF] with cc := 0x0A, pc := 0x0103 }) = true := by decide +kernel

/-- V177, V180, V181. -/
theorem test_ror :
    (stepsTo ({ start 0x0100 [0x46] with a := 0x01, cc := 0x01 }) fun s => { s with a := 0x80, cc := 0x09, pc := 0x0101 }) = true ∧
    (stepsTo ({ start 0x0100 [0x56] with b := 0xFE, cc := 0x03 }) fun s => { s with b := 0xFF, cc := 0x0A, pc := 0x0101 }) = true ∧
    (stepsTo ({ (start 0x0100 [0x66, 0x84]).placeBytes 0x2000 [0x00] with x := 0x2000, cc := 0x01 }) fun s => { s.placeBytes 0x2000 [0x80] with cc := 0x08, pc := 0x0102 }) = true := by decide +kernel

/-- V184, V187, V188. -/
theorem test_tfr :
    (stepsTo ({ start 0x0100 [0x1F, 0x8A] with a := 0xFF, cc := 0x00 }) fun s => { s with cc := 0xFF, pc := 0x0102 }) = true ∧
    (stepsTo (start 0x0100 [0x1F, 0x51]) fun s => { s with x := 0x0102, pc := 0x0102 }) = true ∧
    (stepsTo ({ start 0x0100 [0x1F, 0x15] with x := 0x4000 }) fun s => { s with pc := 0x4000 }) = true := by decide +kernel

/-- V191, V194, V195. -/
theorem test_exg :
    (stepsTo ({ start 0x0100 [0x1E, 0x01] with a := 0x12, b := 0x34, x := 0xABCD }) fun s => { s with a := 0xAB, b := 0xCD, x := 0x1234, pc := 0x0102 }) = true ∧
    (stepsTo ({ start 0x0100 [0x1E, 0x8A] with a := 0x0F, cc := 0xF0 }) fun s => { s with a := 0xF0, cc := 0x0F, pc := 0x0102 }) = true ∧
    (stepsTo ({ start 0x0100 [0x1E, 0x15] with x := 0x4000 }) fun s => { s with x := 0x0102, pc := 0x4000 }) = true := by decide +kernel

/-- V197, V199, V202. -/
theorem test_invalid_transfers :
    (faultsWith ({ start 0x0100 [0x1F, 0x81] with a := 0x12, x := 0x3456 }) (.invalidRegisterTransfer 0x0100 0x1F 0x81)) = true ∧
    (faultsWith (start 0x0100 [0x1E, 0x0B]) (.invalidRegisterTransfer 0x0100 0x1E 0x0B)) = true ∧
    (faultsWith (start 0x0100 [0x1F, 0xCC]) (.invalidRegisterTransfer 0x0100 0x1F 0xCC)) = true := by decide +kernel

/-- V203, V207. -/
theorem test_pshs :
    (stepsTo ({ start 0x0100 [0x34, 0xFF] with s := 0x8000, cc := 0x81, a := 0x02, b := 0x03, dp := 0x04, x := 0x0506, y := 0x0708, u := 0x090A }) fun s => { s.placeBytes 0x7FF4 [0x81, 0x02, 0x03, 0x04, 0x05, 0x06, 0x07, 0x08, 0x09, 0x0A, 0x01, 0x02] with s := 0x7FF4, pc := 0x0102 }) = true ∧
    (stepsTo ({ start 0x0100 [0x34, 0x06] with s := 0x0001, a := 0xAA, b := 0xBB }) fun s => { (s.placeBytes 0x0000 [0xBB]).placeBytes 0xFFFF [0xAA] with s := 0xFFFF, pc := 0x0102 }) = true := by decide +kernel

/-- V204, V214. -/
theorem test_puls :
    (stepsTo ({ (start 0x0100 [0x35, 0x7F]).placeBytes 0x7FF4 [0x81, 0x02, 0x03, 0x04, 0x05, 0x06, 0x07, 0x08, 0x09, 0x0A] with s := 0x7FF4 }) fun s => { s with a := 0x02, b := 0x03, x := 0x0506, y := 0x0708, u := 0x090A, s := 0x7FFE, dp := 0x04, cc := 0x81, pc := 0x0102 }) = true ∧
    (stepsTo ({ ((start 0x0100 [0x35, 0x06]).placeBytes 0xFFFF [0x11]).placeBytes 0x0000 [0x22] with s := 0xFFFF }) fun s => { s with a := 0x11, b := 0x22, s := 0x0001, pc := 0x0102 }) = true := by decide +kernel

/-- V209, V210. -/
theorem test_pshu :
    (stepsTo ({ start 0x0100 [0x36, 0x40] with u := 0x8000, s := 0x1234 }) fun s => { s.placeBytes 0x7FFE [0x12, 0x34] with u := 0x7FFE, pc := 0x0102 }) = true ∧
    (stepsTo ({ start 0x0100 [0x36, 0x16] with u := 0x4000, a := 0x01, b := 0x02, x := 0x0304 }) fun s => { s.placeBytes 0x3FFC [0x01, 0x02, 0x03, 0x04] with u := 0x3FFC, pc := 0x0102 }) = true := by decide +kernel

/-- V211, V212. -/
theorem test_pulu :
    (stepsTo ({ (start 0x0100 [0x37, 0x16]).placeBytes 0x3FFC [0x01, 0x02, 0x03, 0x04] with u := 0x3FFC }) fun s => { s with a := 0x01, b := 0x02, x := 0x0304, u := 0x4000, pc := 0x0102 }) = true ∧
    (stepsTo ({ (start 0x0100 [0x37, 0x40]).placeBytes 0x3000 [0x80, 0x00] with u := 0x3000 }) fun s => { s with u := 0x3002, s := 0x8000, pc := 0x0102 }) = true := by decide +kernel

/-- V219, V220, V221. -/
theorem test_short_branches :
    (stepsTo (start 0xFFF0 [0x20, 0x10]) fun s => { s with pc := 0x0002 }) = true ∧
    (stepsTo (start 0x0004 [0x20, 0xF0]) fun s => { s with pc := 0xFFF6 }) = true ∧
    (stepsTo (start 0x0100 [0x21, 0x7F]) fun s => { s with pc := 0x0102 }) = true := by decide +kernel

/-- V225, V228, V229. -/
theorem test_long_branches :
    (stepsTo (start 0x0100 [0x16, 0xFF, 0xFD]) fun s => { s with pc := 0x0100 }) = true ∧
    (stepsTo ({ start 0x0100 [0x10, 0x26, 0x00, 0x10] with cc := 0x00 }) fun s => { s with pc := 0x0114 }) = true ∧
    (stepsTo ({ start 0x0100 [0x10, 0x26, 0x00, 0x10] with cc := 0x04 }) fun s => { s with pc := 0x0104 }) = true := by decide +kernel

/-- V232, V233, V238. -/
theorem test_calls :
    (stepsTo ({ start 0x0100 [0x8D, 0x10] with s := 0x8000 }) fun s => { s.placeBytes 0x7FFE [0x01, 0x02] with s := 0x7FFE, pc := 0x0112 }) = true ∧
    (stepsTo ({ start 0x0100 [0x17, 0x01, 0x00] with s := 0x8000 }) fun s => { s.placeBytes 0x7FFE [0x01, 0x03] with s := 0x7FFE, pc := 0x0203 }) = true ∧
    (stepsTo ({ start 0x0100 [0xAD, 0xE4] with s := 0x8000 }) fun s => { s.placeBytes 0x7FFE [0x01, 0x02] with s := 0x7FFE, pc := 0x8000 }) = true := by decide +kernel

/-- V243, V240, V246. -/
theorem test_jmp_rts_nop :
    (stepsTo ((start 0x0100 [0x6E, 0x9F, 0x20, 0x00]).placeBytes 0x2000 [0x12, 0x34]) fun s => { s with pc := 0x1234 }) = true ∧
    (stepsTo ({ ((start 0x0100 [0x39]).placeBytes 0xFFFF [0x12]).placeBytes 0x0000 [0x34] with s := 0xFFFF }) fun s => { s with s := 0x0001, pc := 0x1234 }) = true ∧
    (stepsTo (start 0xFFFF [0x12]) fun s => { s with pc := 0x0000 }) = true := by decide +kernel

/-- V247, V248, V249. -/
theorem test_software_interrupts :
    (stepsTo ({ (start 0x0100 [0x3F]).placeBytes 0xFFFA [0x40, 0x00] with s := 0x8000, cc := 0x01, a := 0x02, b := 0x03, dp := 0x04, x := 0x0506, y := 0x0708, u := 0x090A }) fun s => { s.placeBytes 0x7FF4 [0x81, 0x02, 0x03, 0x04, 0x05, 0x06, 0x07, 0x08, 0x09, 0x0A, 0x01, 0x01] with s := 0x7FF4, cc := 0xD1, pc := 0x4000 }) = true ∧
    (stepsTo ({ (start 0x0100 [0x10, 0x3F]).placeBytes 0xFFF4 [0x41, 0x00] with s := 0x8000, cc := 0x01, a := 0x02, b := 0x03, dp := 0x04, x := 0x0506, y := 0x0708, u := 0x090A }) fun s => { s.placeBytes 0x7FF4 [0x81, 0x02, 0x03, 0x04, 0x05, 0x06, 0x07, 0x08, 0x09, 0x0A, 0x01, 0x02] with s := 0x7FF4, cc := 0x81, pc := 0x4100 }) = true ∧
    (stepsTo ({ (start 0x0100 [0x11, 0x3F]).placeBytes 0xFFF2 [0x42, 0x00] with s := 0x8000, cc := 0x01, a := 0x02, b := 0x03, dp := 0x04, x := 0x0506, y := 0x0708, u := 0x090A }) fun s => { s.placeBytes 0x7FF4 [0x81, 0x02, 0x03, 0x04, 0x05, 0x06, 0x07, 0x08, 0x09, 0x0A, 0x01, 0x02] with s := 0x7FF4, cc := 0x81, pc := 0x4200 }) = true := by decide +kernel

/-- V282. -/
theorem test_swi_at_top :
    (stepsTo ({ start 0xFFFF [0x3F] with s := 0x8000 }) fun s => { s.placeBytes 0x7FF4 [0x80, 0x00, 0x00, 0x00, 0x00, 0x00, 0x00, 0x00, 0x00, 0x00, 0x00, 0x00] with s := 0x7FF4, cc := 0xD0, pc := 0x0000 }) = true := by decide +kernel

/-- V251, V252. -/
theorem test_rti :
    (stepsTo ({ (start 0x0100 [0x3B]).placeBytes 0x7FF4 [0x81, 0x02, 0x03, 0x04, 0x05, 0x06, 0x07, 0x08, 0x09, 0x0A, 0x01, 0x01] with s := 0x7FF4 }) fun s => { s with a := 0x02, b := 0x03, x := 0x0506, y := 0x0708, u := 0x090A, s := 0x8000, dp := 0x04, cc := 0x81, pc := 0x0101 }) = true ∧
    (stepsTo ({ (start 0x0100 [0x3B]).placeBytes 0x7FF4 [0x01, 0x20, 0x00, 0x04, 0x05, 0x06, 0x07, 0x08, 0x09, 0x0A, 0x01, 0x01] with s := 0x7FF4, a := 0xEE }) fun s => { s with s := 0x7FF7, cc := 0x01, pc := 0x2000 }) = true := by decide +kernel

/-- V253, V254, V275. -/
theorem test_sync_cwai :
    (faultsWith (start 0x0100 [0x13]) (.illegalOpcode 0x0100 0x13 none)) = true ∧
    (faultsWith ({ start 0x0100 [0x3C, 0xFF] with cc := 0x00 }) (.illegalOpcode 0x0100 0x3C none)) = true ∧
    (faultsWith (start 0xFFFF [0x3C]) (.illegalOpcode 0xFFFF 0x3C none)) = true := by decide +kernel

/-- V259, V262, V267. -/
theorem test_illegal_opcodes :
    (faultsWith (start 0x0100 [0x10, 0x10]) (.illegalOpcode 0x0100 0x1010 none)) = true ∧
    (faultsWith ({ start 0x0100 [0xA6, 0x87] with x := 0x2000 }) (.illegalOpcode 0x0100 0xA6 (some 0x87))) = true ∧
    (faultsWith (start 0xFFFF [0x01]) (.illegalOpcode 0xFFFF 0x01 none)) = true := by decide +kernel

/-- V269, V270, V271. -/
theorem test_fetch_out_of_range :
    (faultsWith (start 0xFFFF [0x10]) (.outOfRange 0xFFFF 0x10 0x10000)) = true ∧
    (faultsWith (start 0xFFFE [0xB6, 0x12]) (.outOfRange 0xFFFE 0xB6 0xFFFF)) = true ∧
    (faultsWith (start 0xFFFD [0xA6, 0x9F, 0x12]) (.outOfRange 0xFFFD 0xA6 0xFFFF)) = true := by decide +kernel

/-- V279, V281. -/
theorem test_pointer_at_top :
    (faultsWith ({ start 0x0100 [0xA6, 0x94] with x := 0xFFFF }) (.outOfRange 0x0100 0xA6 0xFFFF)) = true ∧
    (faultsWith (start 0x0100 [0x10, 0xAE, 0x9F, 0xFF, 0xFF]) (.outOfRange 0x0100 0x10AE 0xFFFF)) = true := by decide +kernel

/-- V272, V277. -/
theorem test_precise_fault_order :
    (faultsWith (start 0xFFFE [0xA6, 0x87]) (.illegalOpcode 0xFFFE 0xA6 (some 0x87))) = true ∧
    (faultsWith ({ start 0x0100 [0xEC, 0x81] with x := 0xFFFF }) (.outOfRange 0x0100 0xEC 0xFFFF)) = true := by decide +kernel

/-- The truth table of the sixteen conditions, one row per value of N Z V C (95_test_vectors.md section 2.6). -/
theorem test_conditions :
    ((List.range 16).map fun k => ([.always, .never, .hi, .ls, .cc, .cs, .ne, .eq, .vc, .vs, .pl, .mi, .ge, .lt, .gt, .le] : List Cond).map fun c => c.holds (BitVec.ofNat 8 k)) =
      ["T-T-T-T-T-T-T-T-",
       "T--T-TT-T-T-T-T-",
       "T-T-T-T--TT--T-T",
       "T--T-TT--TT--T-T",
       "T--TT--TT-T-T--T",
       "T--T-T-TT-T-T--T",
       "T--TT--T-TT--T-T",
       "T--T-T-T-TT--T-T",
       "T-T-T-T-T--T-T-T",
       "T--T-TT-T--T-T-T",
       "T-T-T-T--T-TT-T-",
       "T--T-TT--T-TT-T-",
       "T--TT--TT--T-T-T",
       "T--T-T-TT--T-T-T",
       "T--TT--T-T-TT--T",
       "T--T-T-T-T-TT--T"].map fun row : String => row.toList.map fun ch => ch == 'T' := by decide +kernel

/-! ## Flags beside an undefined one: the vector's CC for either value of it -/

/-- V80, V85, V103: CC after SUBA, SBCA and NEGA. -/
theorem test_subtraction_flags : ∀ h : Bool,
    (let q := sub8 0x7F 0xFF false; putNZVC q.n q.z q.v q.c (putFlag .h h 0x00)) = (if h then 0x2B else 0x0B) ∧
    (let q := sub8 0x00 0xFF true; putNZVC q.n q.z q.v q.c (putFlag .h h 0x01)) = (if h then 0x25 else 0x05) ∧
    (let q := sub8 0x00 0x7F false; putNZVC q.n q.z q.v q.c (putFlag .h h 0x00)) = (if h then 0x29 else 0x09) := by decide

/-- V159, V165: the flags of ASRA and ASLA; H, the opaque value, is masked out by setting it. -/
theorem test_shift_flags :
    (asrFlags 0x81 State.reset).cc ||| 0x20 = 0x29 ∧ (aslFlags 0x40 State.reset).cc ||| 0x20 = 0x2A := by
  cases h : Config.freeFlag 0 <;>
    (simp only [asrFlags, aslFlags, State.undefine, State.withCc, State.reset, h]; decide)

/-- V133: the flags of DAA; V, the opaque value, is masked out by setting it. -/
theorem test_daa_flags : (daaOp { State.reset with a := 0x99, cc := 0x01 }).cc ||| 0x02 = 0x0B := by
  cases h : Config.freeFlag 0 <;>
    (simp only [daaOp, State.undefine, State.withCc, State.set8, State.flag, State.reset, h]; decide)


/-! ## The host: stop conditions and the trace observer -/

/-- R265: a bound of three steps ends a run that never meets a PC; it is the host's count that stops it. -/
theorem test_run_stops_after_bound :
    (start 0x0100 [0x12, 0x12, 0x12, 0x12]).run 9 0x0100 (stopAfter 3) 0 =
      .stopped ((start 0x0100 [0x12, 0x12, 0x12, 0x12]).withPc 0x0103) := rfl

/-- R44, R35, D14: a word is told high byte first, in and out; past the top nothing is told. -/
theorem test_host_access_is_heard :
    hostTrace (start 0x2000 [0x12, 0x34]) (.readWord 0x2000) = [.read 0x2000 0x12, .read 0x2001 0x34] ∧
    hostTrace State.reset (.writeWord 0xFFFE 0xABCD) = [.write 0xFFFE 0xAB, .write 0xFFFF 0xCD] ∧
    hostTrace State.reset (.readByte 0xFFFF) = [.read 0xFFFF 0x00] ∧
    hostTrace State.reset (.writeByte 0x0000 0x7F) = [.write 0x0000 0x7F] ∧
    hostTrace State.reset (.writeWord 0xFFFF 0xABCD) = [] ∧ hostTrace State.reset (.readByte 0x10000) = [] := by decide

/-- R44: a run of BRA and INCA is told fetch by fetch. -/
theorem test_run_is_heard :
    (start 0x0100 [0x20, 0x00, 0x4C]).runTrace 5 0x0100 (stopAfter 2) 0 =
      [.read 0x0100 0x20, .read 0x0101 0x00, .read 0x0102 0x4C] := rfl


/-! ## Witnesses: the hypotheses of each obligation are met -/

/-- The state of the witnesses: X, S and U at 0xFFFF, DP at 0xFF. -/
def top : State := { State.reset with x := 0xFFFF, s := 0xFFFF, u := 0xFFFF, dp := 0xFF }

/-- A branch to itself, `20 FE` (V216). -/
def loop : State := start 0x0100 [0x20, 0xFE]

theorem witness_DecodeOfEncodeGivesInstruction : (Instr.ldy (.mem (.idx (.extended 0xFFFF true)))).wf = true := by decide

theorem witness_EncodeOfDecodeGivesBytes :
    decode [0x10, 0xAE, 0x9F, 0xFF, 0xFF] = .ok (.ldy (.mem (.idx (.extended 0xFFFF true))), []) := rfl

theorem witness_LengthIsOpcodeBytesPlusOperandBytes :
    (Instr.sync).wf = true ∧ (Instr.ldy (.mem (.idx (.extended 0xFFFF true)))).wf = true := by decide

theorem witness_UndefinedOpcodesFault :
    (start 0xFFFF [0x01]).readByte (start 0xFFFF [0x01]).pc ∈ illegalPage1 ∧
    (let s := start 0xFFFE [0x10, 0x10];
      s.pc ≠ 0xFFFF ∧ s.readByte s.pc = 0x10 ∧ s.readByte (s.pc + 1) ∉ definedPage2) ∧
    (let s := start 0xFFFE [0x11, 0xBB];
      s.pc ≠ 0xFFFF ∧ s.readByte s.pc = 0x11 ∧ s.readByte (s.pc + 1) ∉ definedPage3) := by decide +kernel

/-- One byte of four below the top, and four of five. -/
theorem witness_BytesPastTheTopFault :
    (let i := Instr.ldy (.imm 0x1234);
      let s := start 0xFFFF [0x10];
      i.wf = true ∧ (∀ mask, i ≠ .cwai mask) ∧ s.pc.toNat + 1 = 65536 ∧ 1 < i.length ∧
        ∀ j (h : j < (encode i).length), j < 1 → Memory.read s.mem (s.pc.toNat + j) = (encode i)[j]) ∧
    (let i := Instr.ldy (.mem (.idx (.extended 0x1234 true)));
      let s := start 0xFFFC [0x10, 0xAE, 0x9F, 0x12];
      i.wf = true ∧ (∀ mask, i ≠ .cwai mask) ∧ s.pc.toNat + 4 = 65536 ∧ 4 < i.length ∧
        ∀ j (h : j < (encode i).length), j < 4 → Memory.read s.mem (s.pc.toNat + j) = (encode i)[j]) := by
  refine ⟨⟨rfl, fun _ h => (by cases h), rfl, by decide, ?_⟩, ⟨rfl, fun _ h => (by cases h), rfl, by decide, ?_⟩⟩
  · intro j _ hj
    obtain rfl : j = 0 := by omega
    rfl
  · intro j _ hj
    have : j = 0 ∨ j = 1 ∨ j = 2 ∨ j = 3 := by omega
    rcases this with rfl | rfl | rfl | rfl <;> rfl

theorem witness_StepRunsDecodedInstruction : decode (start 0xFFFF [0x12]).fetchWindow = .ok (.nop, []) := rfl

theorem witness_StepRunsStoredInstruction :
    let i := Instr.ldy (.mem (.idx (.extended 0x1234 true)))
    i.wf = true ∧ StoredAtPc i (start 0xFFFB [0x10, 0xAE, 0x9F, 0x12, 0x34]) := by
  refine ⟨rfl, by decide +kernel, ?_⟩
  intro k hk
  have : k < 5 := hk
  have : k = 0 ∨ k = 1 ∨ k = 2 ∨ k = 3 ∨ k = 4 := by omega
  rcases this with rfl | rfl | rfl | rfl | rfl <;> rfl

theorem witness_InvalidPostbytesFault :
    (let s := start 0xFFFE [0xA6, 0x87];
      s.pc.toNat + 1 < 65536 ∧ s.readByte s.pc ∈ indexedPage1 ∧ s.readByte (s.pc + 1) ∈ invalidPostbytes) ∧
    (let s := start 0xFFFD [0x10, 0xEF, 0xFF];
      s.pc.toNat + 2 < 65536 ∧ s.readByte s.pc = 0x10 ∧ s.readByte (s.pc + 1) ∈ indexedPage2 ∧
        s.readByte (s.pc + 2) ∈ invalidPostbytes) ∧
    (let s := start 0xFFFD [0x11, 0xAC, 0x90];
      s.pc.toNat + 2 < 65536 ∧ s.readByte s.pc = 0x11 ∧ s.readByte (s.pc + 1) ∈ indexedPage3 ∧
        s.readByte (s.pc + 2) ∈ invalidPostbytes) := by decide +kernel

theorem witness_SyncAndCwaiAlwaysFault :
    (start 0xFFFF [0x13]).readByte (start 0xFFFF [0x13]).pc = 0x13 ∧
    (start 0xFFFF [0x3C]).readByte (start 0xFFFF [0x3C]).pc = 0x3C := by decide +kernel

/-- The hypothesis, and that each of the listed cases occurs. -/
theorem witness_FaultsExactlyWhenListed :
    (Instr.std (.idx (.postInc2 .x false))).wf = true ∧ Unimplemented (.cwai 0xFF) ∧ ¬ValidPair 0x5 0x8 ∧
    PointerAtTop (.jmp (.idx (.noOffset .x true))) top ∧ WordAtTop (.ldd (.mem (.dir 0xFF))) top ∧
    WordAtTop (.std (.idx (.postInc2 .x false))) top :=
  ⟨rfl, .inr ⟨0xFF, rfl⟩, (transferPair_none_iff 0x5 0x8).mp rfl, ⟨.noOffset .x true, rfl, rfl, rfl⟩,
    ⟨rfl, .dir 0xFF, rfl, rfl⟩, ⟨rfl, .idx (.postInc2 .x false), rfl, rfl⟩⟩

theorem loop_step : step loop = .next loop := rfl

theorem reaches_loop (s t : State) (h : Reaches s t) : s = loop → t = loop := by
  induction h with
  | refl _ => exact id
  | step s' u v first _ ih =>
    rintro rfl
    rw [loop_step] at first
    cases first
    exact ih rfl

theorem witness_DisciplinedProgramsNeverFault :
    ∀ t, Reaches loop t → ∃ i rest, decode t.fetchWindow = .ok (i, rest) ∧ ¬Unimplemented i ∧ ¬BadTransfer i ∧
      ¬PointerAtTop i t ∧ ¬WordAtTop i t := by
  intro t h
  obtain rfl := reaches_loop _ _ h rfl
  refine ⟨.bra 0xFE, [0x00, 0x00, 0x00], rfl, ?_, ?_, ?_, ?_⟩
  · rintro (h | ⟨_, h⟩) <;> cases h
  · rintro ⟨_, _, h | h, -⟩ <;> cases h
  · rintro ⟨_, h, -⟩
    cases h
  · rintro ⟨h, -⟩
    cases h

theorem witness_StepKeepsMemoryCanonical : MemoryCanonical loop ∧ step loop = .next loop := ⟨rfl, rfl⟩

theorem witness_ResetClearsRegistersAndKeepsMemory :
    (∃ t : State, loop.hostReset = t.hostReset) ∧ MemoryCanonical loop := ⟨⟨loop, rfl⟩, rfl⟩

/-- The four ranges at their ends. -/
theorem witness_BusAccessesAreBigEndianAndChecked :
    65535 < 65536 ∧ 65535 < 65535 + 1 ∧ 65535 ≤ 65535 ∧ 65534 + 1 ≤ 65535 := by decide

theorem witness_LoadWritesSequenceOrNothing :
    (((0xFFFF : Nat) : Int) + ([0x01, 0x02] : List Byte).length - 1 > 65535) ∧
    (((0xFFFE : Nat) : Int) + ([0x01, 0x02] : List Byte).length - 1 ≤ 65535) ∧
    (((0x10000 : Nat) : Int) + ([] : List Byte).length - 1 ≤ 65535) := by decide

theorem witness_StackPrimitivesPushAndPull : (Reg16.u = .s ∨ Reg16.u = .u) ∧ (Reg16.s = .s ∨ Reg16.s = .u) := by decide

theorem witness_RunStopsAfterCompletedStep :
    (step (loop.withPc 0x0100) = .next loop ∧ (stopAfter 1 0 loop).1 = true) ∧
    loop.run 1 0x0100 (stopAt 0x0100) () = .stopped loop ∧
    (start 0x0100 [0x13]).run 1 0x0100 (stopAfter 5) 0 =
      .faulted (.illegalOpcode 0x0100 0x0013 none) (start 0x0100 [0x13]) ∧
    (0 < 2 ∧ 2 ≤ 2 ∧ StepsTo 2 (loop.withPc 0x0100) loop) :=
  ⟨⟨rfl, rfl⟩, rfl, rfl, by decide, by decide,
    .succ 1 _ loop _ loop_step (.succ 0 _ loop _ loop_step (.zero loop))⟩

/-- For every instruction an operand resolves below 0xFFFF, one at 0xFFFF, and one not at all: the hypotheses of the
statements that complete at an address or store: `SimpleModesResolve`, `StoreAccumulators`, `StoreWordRegisters`,
`LoadEffectiveAddress`, `NegateIncrementDecrement`, `ClearAndTest`, `ComplementAndCcMasks`, `ShiftAndRotateRight`,
`ShiftAndRotateLeft`, `CallsJumpsReturnsNop`. -/
theorem witness_locate (i : Instr) :
    (∃ s, locate i (.dir 0xFE) top = .ok (0xFFFE, s)) ∧ (∃ s, locate i (.idx (.postInc2 .x false)) top = .ok (0xFFFF, s)) ∧
    (∃ s, locate i (.ext 0xFFFF) top = .ok (0xFFFF, s)) ∧
    locate i (.idx (.noOffset .x true)) top = .error (.outOfRange 0x0000 i.opcode 0xFFFF) :=
  ⟨⟨_, rfl⟩, ⟨_, rfl⟩, ⟨_, rfl⟩, rfl⟩

/-- The hypotheses of the statements that complete on an 8-bit operand: `LoadAccumulators`, `AddToAccumulators`,
`SubtractAndCompareAccumulators`, `LogicOnAccumulators`, `BranchesAfterCompareOrderOperands` (its word clauses:
`witness_operand16`). -/
theorem witness_operand8 (i : Instr) :
    (∃ s, operand8 i (.imm 0x80) top = .ok (0x80, s)) ∧ (∃ s, operand8 i (.mem (.ext 0xFFFF)) top = .ok (0x00, s)) ∧
    operand8 i (.mem (.idx (.noOffset .x true))) top = .error (.outOfRange 0x0000 i.opcode 0xFFFF) :=
  ⟨⟨_, rfl⟩, ⟨_, rfl⟩, rfl⟩

/-- The hypotheses of the statements that complete on a 16-bit operand: `LoadWordRegisters`, `AddAndSubtractD`,
`CompareWordRegisters`, `BranchesAfterCompareOrderOperands`. -/
theorem witness_operand16 (i : Instr) :
    (∃ s, operand16 i (.imm 0x8000) top = .ok (0x8000, s)) ∧
    (∃ s, operand16 i (.mem (.dir 0xFE)) top = .ok (0x0000, s)) ∧
    operand16 i (.mem (.dir 0xFF)) top = .error (.outOfRange 0x0000 i.opcode 0xFFFF) ∧
    operand16 i (.mem (.idx (.noOffset .x true))) top = .error (.outOfRange 0x0000 i.opcode 0xFFFF) :=
  ⟨⟨_, rfl⟩, ⟨_, (by with_unfolding_all rfl : operand16 i (.mem (.dir 0xFE)) top = .ok (0x0000, top.advance i))⟩, rfl, rfl⟩

theorem witness_IndirectFormsResolveOnce (i : Instr) :
    (∃ r, Indexed.postInc2 .x true = .postInc2 r true ∧ Indexed.postInc2 .x false = .postInc2 r false) ∧
    (∃ s, locate i (.idx (.postInc2 .x false)) top = .ok (0xFFFF, s)) ∧
    (∃ s, locate i (.idx (.postInc2 .y false)) top = .ok (0x0000, s)) ∧ ((0xFFFE : Word) ≠ 0xFFFF) :=
  ⟨⟨.x, rfl, rfl⟩, ⟨_, rfl⟩, ⟨_, rfl⟩, by decide⟩

theorem witness_IndexedSideEffectComesFirst :
    (AutoForm (.preDec2 .s true) .s (-2) (-2) ∧ (Indexed.preDec2 .s true).wf = true ∧
      BitVec.ofInt 16 ((top.get16 (baseReg .s)).toNat + (-2)) ≠ (0xFFFF : Word) ∧
      mkWord (top.readByte 0xFFFD) (top.readByte 0xFFFE) ≠ 0xFFFF) ∧
    (AutoForm (.postInc1 .u false) .u 0 1 ∧ (Indexed.postInc1 .u false).wf = true ∧
      isIndirect (.postInc1 .u false) = false) ∧
    BitVec.ofInt 16 ((top.get16 (baseReg .y)).toNat + top.a.toInt) ≠ (0xFFFF : Word) :=
  ⟨⟨.preDec2 .s true, rfl, by decide, by decide⟩, ⟨.postInc1 .u false, rfl, rfl⟩, by decide⟩

theorem witness_DecimalAdjustAddsDecimal :
    99 < 100 ∧ ({ State.reset with a := 0x99 } : State).a = BitVec.ofNat 8 (99 / 10 * 16 + 99 % 10) ∧ 0 < 100 := by decide

theorem witness_MultiplySignExtendAddIndex : ∃ t, exec .sex top = .next t := ⟨_, rfl⟩

theorem witness_TransferAndExchange :
    ¬ValidPair 0x0 0x8 ∧ ¬ValidPair 0xB 0x5 ∧ ¬ValidPair 0x6 0x6 ∧ ¬ValidPair 0x5 0x7 ∧ ¬ValidPair 0xC 0xC ∧
      ¬ValidPair 0xF 0xF :=
  ⟨(transferPair_none_iff _ _).mp rfl, (transferPair_none_iff _ _).mp rfl, (transferPair_none_iff _ _).mp rfl,
    (transferPair_none_iff _ _).mp rfl, (transferPair_none_iff _ _).mp rfl, (transferPair_none_iff _ _).mp rfl⟩

theorem witness_PullUndoesPush :
    (∃ t, exec (.pshs 0xFF) top = .next t ∧ ({ t with a := 0x55 } : State).mem = t.mem ∧
      ({ t with a := 0x55 } : State).s = t.s) ∧
    ∃ t, exec (.pshu 0xFF) top = .next t ∧ ({ t with a := 0x55 } : State).mem = t.mem ∧
      ({ t with a := 0x55 } : State).u = t.u := ⟨⟨_, rfl, rfl, rfl⟩, ⟨_, rfl, rfl, rfl⟩⟩

theorem witness_ReturnGoesBackToCaller :
    ∃ t, exec (.bsr 0x10) top = .next t ∧ ({ t with a := 0x55 } : State).s = t.s ∧
      ({ t with a := 0x55 } : State).readByte t.s = t.readByte t.s ∧
      ({ t with a := 0x55 } : State).readByte (t.s + 1) = t.readByte (t.s + 1) := ⟨_, rfl, rfl, rfl, rfl⟩

theorem witness_ReturnGoesBackToCaller_jsr :
    (∃ ea s t, locate (.jsr (.idx (.preDec2 .s false))) (.idx (.preDec2 .s false)) top = .ok (ea, s) ∧
      exec (.jsr (.idx (.preDec2 .s false))) top = .next t) ∧ ∃ t, exec (.lbsr 0xFFFD) top = .next t :=
  ⟨⟨_, _, _, rfl, rfl⟩, ⟨_, rfl⟩⟩

theorem witness_ReturnFromInterrupt :
    getFlag .e (({ State.reset with s := 0xFFFF }).placeBytes 0xFFFF [0x80]).mem.head!.2 = true ∧
    (({ State.reset with s := 0xFFFF }).placeBytes 0xFFFF [0x80]).readByte 0xFFFF = 0x80 ∧
    getFlag .e (top.readByte top.s) = false := by decide +kernel

theorem witness_ReturnRestoresInterruptedState :
    ∃ t, exec .swi top = .next t ∧ ({ t with a := 0x55 } : State).s = t.s ∧
      ∀ k < 12, ({ t with a := 0x55 } : State).readByte (t.s + BitVec.ofNat 16 k) = t.readByte (t.s + BitVec.ofNat 16 k) :=
  ⟨_, rfl, rfl, fun _ _ => rfl⟩

/-- The byte after a word stored at 0xFFFD is not stored to. -/
theorem witness_OnlyStoredBytesChange :
    ∃ t, exec (.std (.ext 0xFFFD)) top = .next t ∧ (0xFFFF : Word) ∉ writeAddresses (.std (.ext 0xFFFD)) top ∧
      (0xFFFC : Word) ∉ writeAddresses (.std (.ext 0xFFFD)) top := ⟨_, rfl, by decide +kernel, by decide +kernel⟩

theorem witness_DirectPageChangesOnlyBy : ∃ t, exec (.tfr 0x8 0xB) top = .next t ∧ t.dp ≠ top.dp := ⟨_, rfl, by decide⟩

theorem witness_InterruptFlagsChangeOnlyBy : ∃ t, exec (.orcc 0xFF) top = .next t ∧
    (t.flag .i ≠ top.flag .i ∨ t.flag .f ≠ top.flag .f ∨ t.flag .e ≠ top.flag .e) := ⟨_, rfl, .inl (by decide)⟩

theorem witness_HalfCarryChangesOnlyBy : ∃ t, exec (.adda (.imm 0x0F)) { top with a := 0x01 } = .next t ∧
    t.flag .h ≠ ({ top with a := 0x01 } : State).flag .h := ⟨_, rfl, by decide⟩

end Sys2Proof.Tests
end

section
/-! Proofs of the statements of 00_scope.md. -/

namespace Sys2Proof.Machine

/-- The decoder's rejections become faults, so a refusal could only come from an instruction (R10, R55). -/
theorem step_not_refused (st : State) (r : Refusal) : step st ≠ .refused r := by
  intro refused
  cases decoded : decode st.fetchWindow with
  | ok instrAndRest =>
    have runs : step st = exec instrAndRest.1 st := step_of_decode decoded
    exact exec_not_refused instrAndRest.1 st r (runs.symm.trans refused)
  | error reject =>
    have faults : step st = .fault (rejectFault st.pc reject) := step_of_reject decoded
    cases faults.symm.trans refused

/-- Settles O9: of the three outcomes of a step, `step_not_refused` leaves the next state and the fault. -/
theorem stepEndsInNextOrFault : Obligations.StepEndsInNextOrFault := by
  intro st
  cases outcome : step st with
  | next t => exact .inl ⟨t, rfl⟩
  | fault f => exact .inr ⟨f, rfl⟩
  | refused r => exact absurd outcome (step_not_refused st r)

end Sys2Proof.Machine
end

section
/-! Proofs of the statements of 10_state.md. -/

namespace Sys2Proof.Machine

/-! ## The canonical form of the memory -/

/-- Each effect an instruction can have on memory is a sequence of writes inside the address space. -/
theorem MemoryEffect.keeps_canonical {i : Instr} {st t : State} (effect : MemoryEffect i st t)
    (canonical : MemoryCanonical st) : MemoryCanonical t := by
  unfold MemoryCanonical at canonical ⊢
  cases effect with
  | same mem => rwa [mem]
  | byte ea v _ mem =>
    rw [mem]
    exact Memory.wf_write _ _ _ ea.isLt canonical
  | word ea v w below _ mem =>
    rw [mem]
    exact Memory.wf_write _ _ _ below (Memory.wf_write _ _ _ ea.isLt canonical)
  | push p s bytes before _ _ mem =>
    rw [mem]
    exact State.wf_pushBytes s p bytes (by rwa [before])

/-- Settles O14: a step that completes is `exec` of a decoded instruction, whose effect on memory is one of four. -/
theorem stepKeepsMemoryCanonical : Obligations.StepKeepsMemoryCanonical := by
  intro s s' canonical next
  cases decoded : decode s.fetchWindow with
  | ok instrAndRest =>
    have runs : exec instrAndRest.1 s = .next s' := (step_of_decode decoded).symm.trans next
    exact (exec_memory instrAndRest.1 s s' runs).keeps_canonical canonical
  | error reject => cases (step_of_reject decoded).symm.trans next

/-! ## Reset and D -/

/-- The registers of R32 are zero after reset, whatever the memory and the model's counter are. -/
theorem reset_registers_zero (m : List Host.Cell) (n : Nat) :
    let st : State := { State.reset with mem := m, freeDraws := n }
    (st.a = 0 ∧ st.b = 0 ∧ st.d = 0 ∧ st.dp = 0 ∧ st.cc = 0) ∧ (st.x = 0 ∧ st.y = 0 ∧ st.u = 0 ∧ st.s = 0) := by
  have d : mkWord Config.reset8 Config.reset8 = 0 := by decide
  exact ⟨⟨rfl, rfl, d, rfl, rfl⟩, rfl, rfl, rfl, rfl⟩

/-- Settles O15: construction and `reset()` differ in the memory and the counter only, and `reset()` keeps both. -/
theorem resetClearsRegistersAndKeepsMemory : Obligations.ResetClearsRegistersAndKeepsMemory := by
  refine ⟨?_, Memory.read_nil, rfl, fun st => ⟨rfl, rfl, id⟩⟩
  rintro st (rfl | ⟨t, rfl⟩)
  · exact reset_registers_zero [] 0
  · exact reset_registers_zero t.mem t.freeDraws

/-- Settles O19, by the laws of `mkWord`, `hiByte` and `loByte`. -/
theorem dIsTheViewOfAAndB : Obligations.DIsTheViewOfAAndB := by
  intro st v a b
  have writesHalves : st.set16 .d v = (st.set8 .a (hiByte v)).set8 .b (loByte v) := rfl
  exact ⟨toNat_mkWord st.a st.b, ⟨toNat_hiByte v, toNat_loByte v⟩, ⟨State.get16_set16_same st .d v, writesHalves⟩,
    rfl, rfl, rfl, rfl⟩

end Sys2Proof.Machine
end

section
/-! What an instruction can do to DP and to E, F, I and H of CC, once for all instructions (10_state.md R18, R24 to R27),
and the statements of 10_state.md that follow from it. -/

namespace Sys2Proof.Machine

/-! ## Two views of the state -/

/-- DP, E, F and I. -/
def State.masks (s : State) : Byte × Bool × Bool × Bool := (s.dp, s.flag .e, s.flag .f, s.flag .i)

/-- DP, E, F, I and H. -/
def State.status (s : State) : (Byte × Bool × Bool × Bool) × Bool := (s.masks, s.flag .h)

theorem State.masks_eq_iff (s t : State) :
    t.masks = s.masks ↔ t.dp = s.dp ∧ t.flag .e = s.flag .e ∧ t.flag .f = s.flag .f ∧ t.flag .i = s.flag .i := by
  simp [State.masks]

theorem State.status_eq_iff (s t : State) : t.status = s.status ↔ t.masks = s.masks ∧ t.flag .h = s.flag .h := by
  simp [State.status]

theorem keptByModes_masks : KeptByModes State.masks :=
  ⟨fun _ _ _ h => by simp [State.masks, State.flag, h.dp, h.cc], fun _ _ => rfl⟩

theorem keptByModes_status : KeptByModes State.status :=
  ⟨fun i st s h => (State.status_eq_iff st s).mpr
    ⟨keptByModes_masks.entered i st s h, (keptByModes_flag .h).entered i st s h⟩, fun _ _ => rfl⟩

/-- A state whose CC is that of `s` but for H, N, Z, V and C has the masks of `s`. -/
theorem masks_of_ccHNZVC {s t : State} {h n z v c : Bool} (dp : t.dp = s.dp) (cc : t.cc = ccHNZVC s h n z v c) :
    t.masks = s.masks := by
  simp [State.masks, State.flag, dp, cc, ccHNZVC]

/-- A state whose CC is that of `s` but for N, Z, V and C has the status of `s`. -/
theorem status_of_ccNZVC {s t : State} {n z v c : Bool} (dp : t.dp = s.dp) (cc : t.cc = ccNZVC s n z v c) :
    t.status = s.status := by
  simp [State.status, State.masks, State.flag, dp, cc, ccNZVC]

/-! ## Shapes on an accumulator, and branches -/

theorem KeptByModes.modifyReg {α : Type} {view : State → α} (hk : KeptByModes view) {i : Instr} {st t : State}
    {r : Reg8} {result : Byte → State → Byte} {flags : Byte → State → State}
    (hr : ∀ (s : State) v, view (s.set8 r v) = view s) (hf : ∀ v s, view (flags v s) = view s)
    (h : modifyReg i r result flags st = .next t) : view t = view st :=
  hk.inherent (fun s => by rw [hr, hf]) h

theorem KeptByModes.branch {α : Type} {view : State → α} (hk : KeptByModes view) {i : Instr} {st t : State}
    {c : Cond} {disp : Word} (hp : ∀ (s : State) v, view (s.withPc v) = view s)
    (h : branch i c disp st = .next t) : view t = view st :=
  hk.inherent (fun s => by split <;> simp only [hp]) h

/-! ## Transfers, pulls and interrupts -/

/-- The bit of a push or pull list that selects an 8-bit register (R192). -/
def listBit : Reg8 → Nat
  | .cc => 0
  | .a => 1
  | .b => 2
  | .dp => 3

/-- A transfer, exchange or pull that names an 8-bit register as a destination (R190, R191, R192). -/
def NamesReg8 (q : Reg8) (i : Instr) : Prop :=
  (∃ src dst, (i = .tfr src dst ∧ dst = code8 q) ∨ (i = .exg src dst ∧ (src = code8 q ∨ dst = code8 q))) ∨
  ∃ list : Byte, (i = .puls list ∨ i = .pulu list) ∧ list.getLsbD (listBit q) = true

/-- The registers of a valid postbyte have its codes (R188, R189). -/
theorem codes_of_transferPair {src dst : BitVec 4} {p : TransferPair} (h : transferPair src dst = some p) :
    (∃ r q, p = .pair8 r q ∧ src = code8 r ∧ dst = code8 q) ∨ ∃ r q, p = .pair16 r q := by
  have valid : ValidPair src dst := by
    by_contra invalid
    rw [(transferPair_none_iff src dst).mpr invalid] at h
    cases h
  rcases valid with ⟨r, q, rfl, rfl⟩ | ⟨r, q, rfl, rfl⟩
  · simp only [transferPair, transferReg_code8, Option.some.injEq] at h
    exact .inl ⟨r, q, h.symm, rfl, rfl⟩
  · simp only [transferPair, transferReg_code16, Option.some.injEq] at h
    exact .inr ⟨r, q, h.symm⟩

/-- No 16-bit register holds CC or DP. -/
theorem State.get8_set16_of_cc_or_dp {q : Reg8} (hq : q = .cc ∨ q = .dp) (s : State) (r : Reg16) (v : Word) :
    (s.set16 r v).get8 q = s.get8 q := by
  rcases hq with rfl | rfl
  · exact s.set16_cc r v
  · exact s.set16_dp r v

/-- TFR changes CC and DP only as the destination (R190). -/
theorem transfer_keeps {src dst : BitVec 4} {p : TransferPair} (hp : transferPair src dst = some p) {q : Reg8}
    (hq : q = .cc ∨ q = .dp) (hd : dst ≠ code8 q) (s : State) : (transfer p s).get8 q = s.get8 q := by
  rcases codes_of_transferPair hp with ⟨r1, r2, rfl, -, rfl⟩ | ⟨r1, r2, rfl⟩
  · exact State.get8_set8_other s q r2 _ fun e => hd (e ▸ rfl)
  · exact State.get8_set16_of_cc_or_dp hq s r2 _

/-- EXG changes CC and DP only as one of the pair (R191). -/
theorem exchange_keeps {src dst : BitVec 4} {p : TransferPair} (hp : transferPair src dst = some p) {q : Reg8}
    (hq : q = .cc ∨ q = .dp) (hs : src ≠ code8 q) (hd : dst ≠ code8 q) (s : State) :
    (exchange p s).get8 q = s.get8 q := by
  rcases codes_of_transferPair hp with ⟨r1, r2, rfl, rfl, rfl⟩ | ⟨r1, r2, rfl⟩
  · simp only [exchange]
    rw [State.get8_set8_other _ q r1 _ fun e => hs (e ▸ rfl), State.get8_set8_other _ q r2 _ fun e => hd (e ▸ rfl)]
  · simp only [exchange]
    rw [State.get8_set16_of_cc_or_dp hq, State.get8_set16_of_cc_or_dp hq]

/-- A pull from S changes CC and DP only when the list names them (R194). -/
theorem State.pullList_s_keeps {list : Byte} {q : Reg8} (hq : q = .cc ∨ q = .dp)
    (bit : list.getLsbD (listBit q) = false) (s : State) : (s.pullList .s .u list).get8 q = s.get8 q := by
  have unselected : ¬ list.getLsbD (listBit q) = true := by rw [bit]; decide
  rw [State.pullList_s]
  rcases hq with rfl | rfl <;> exact if_neg unselected

/-- A pull from U changes CC and DP only when the list names them (R196). -/
theorem State.pullList_u_keeps {list : Byte} {q : Reg8} (hq : q = .cc ∨ q = .dp)
    (bit : list.getLsbD (listBit q) = false) (s : State) : (s.pullList .u .s list).get8 q = s.get8 q := by
  have unselected : ¬ list.getLsbD (listBit q) = true := by rw [bit]; decide
  rw [State.pullList_u]
  rcases hq with rfl | rfl <;> exact if_neg unselected

/-- Taking a software interrupt keeps DP and H, and sets I and F if it masks (R236, R251). -/
theorem State.enterInterrupt_status (s : State) (vector : Word) (mask : Bool) :
    (s.enterInterrupt vector mask).dp = s.dp ∧ (s.enterInterrupt vector mask).flag .h = s.flag .h ∧
      (s.enterInterrupt vector mask).flag .f = (s.flag .f || mask) ∧
      (s.enterInterrupt vector mask).flag .i = (s.flag .i || mask) := by
  rw [State.enterInterrupt_eq]
  simp [State.flag]

/-- RTI pulls DP only with E = 1 in the byte it pulls (R239). -/
theorem State.leaveInterrupt_dp (s : State) (h : getFlag .e (s.readByte s.s) = false) : s.leaveInterrupt.dp = s.dp := by
  rw [s.leaveInterrupt_partial h]

/-! ## The effect of an instruction -/

/-- The instructions that compute H, in the additions, or leave it undefined, and keep E, F and I (R24, R27). -/
inductive WritesHalfCarry : Instr → Prop where
  | sum {i : Instr} (o : Src8) (is : i = .adda o ∨ i = .addb o ∨ i = .adca o ∨ i = .adcb o) : WritesHalfCarry i
  | difference {i : Instr} (o : Src8)
      (is : i = .suba o ∨ i = .subb o ∨ i = .sbca o ∨ i = .sbcb o ∨ i = .cmpa o ∨ i = .cmpb o) : WritesHalfCarry i
  | memory {i : Instr} (l : Loc) (is : i = .neg l ∨ i = .asl l ∨ i = .asr l) : WritesHalfCarry i
  | accumulator {i : Instr}
      (is : i = .nega ∨ i = .negb ∨ i = .asla ∨ i = .aslb ∨ i = .asra ∨ i = .asrb) : WritesHalfCarry i

/-- DP and CC of `t` compared with those of `st` after the instruction: the six ways of R18 and R24 to R27. -/
inductive StatusEffect (i : Instr) (st t : State) : Prop where
  | kept (status : t.status = st.status)
  | halfCarry (writes : WritesHalfCarry i) (masks : t.masks = st.masks)
  | maskCc (mask : Byte) (is : i = .andcc mask ∨ i = .orcc mask) (dp : t.dp = st.dp)
  | move (names : ∀ q, q = .cc ∨ q = .dp → t.get8 q ≠ st.get8 q → NamesReg8 q i)
  | rti (is : i = .rti) (dp : getFlag .e (st.readByte st.s) = false → t.dp = st.dp)
  | interrupt (mask : Bool) (is : (i = .swi ∧ mask = true) ∨ ((i = .swi2 ∨ i = .swi3) ∧ mask = false))
      (dp : t.dp = st.dp) (h : t.flag .h = st.flag .h) (f : t.flag .f = (st.flag .f || mask))
      (i : t.flag .i = (st.flag .i || mask))

section Shapes

variable {i : Instr} {st t : State}

theorem StatusEffect.of_tfr {src dst : BitVec 4} (h : exec (.tfr src dst) st = .next t) :
    StatusEffect (.tfr src dst) st t := by
  obtain ⟨p, hp, rfl⟩ := withPair_next h
  refine .move fun q hq changed => .inl ⟨src, dst, .inl ⟨rfl, ?_⟩⟩
  exact by_contra fun hd => changed (transfer_keeps hp hq hd _)

theorem StatusEffect.of_exg {src dst : BitVec 4} (h : exec (.exg src dst) st = .next t) :
    StatusEffect (.exg src dst) st t := by
  obtain ⟨p, hp, rfl⟩ := withPair_next h
  refine .move fun q hq changed => .inl ⟨src, dst, .inr ⟨rfl, ?_⟩⟩
  exact or_iff_not_imp_left.mpr fun hs => by_contra fun hd => changed (exchange_keeps hp hq hs hd _)

theorem StatusEffect.of_puls {list : Byte} (h : exec (.puls list) st = .next t) : StatusEffect (.puls list) st t := by
  obtain rfl := inherent_next (f := fun s => s.pullList .s .u list) h
  refine .move fun q hq changed => .inr ⟨list, .inl rfl, ?_⟩
  exact eq_true_of_ne_false fun bit => changed (State.pullList_s_keeps hq bit _)

theorem StatusEffect.of_pulu {list : Byte} (h : exec (.pulu list) st = .next t) : StatusEffect (.pulu list) st t := by
  obtain rfl := inherent_next (f := fun s => s.pullList .u .s list) h
  refine .move fun q hq changed => .inr ⟨list, .inr rfl, ?_⟩
  exact eq_true_of_ne_false fun bit => changed (State.pullList_u_keeps hq bit _)

theorem StatusEffect.of_rti (h : exec .rti st = .next t) : StatusEffect .rti st t := by
  have ht := inherent_next (f := State.leaveInterrupt) h
  exact .rti rfl fun e => ht ▸ (st.advance .rti).leaveInterrupt_dp e

theorem StatusEffect.of_enterInterrupt {vector : Word} {mask : Bool}
    (is : (i = .swi ∧ mask = true) ∨ ((i = .swi2 ∨ i = .swi3) ∧ mask = false))
    (h : inherent i (fun s => s.enterInterrupt vector mask) st = .next t) : StatusEffect i st t := by
  rw [inherent_next h]
  obtain ⟨hdp, hh, hf, hi⟩ := (st.advance i).enterInterrupt_status vector mask
  exact .interrupt mask is hdp hh hf hi

end Shapes

/-- Every instruction that completes has one of the six effects on DP and CC. -/
theorem exec_status (i : Instr) (st t : State) (h : exec i st = .next t) : StatusEffect i st t := by
  have masks := keptByModes_masks
  have status := keptByModes_status
  cases i with
  | cwai m => cases h
  | sync => cases h
  | tfr src dst => exact .of_tfr h
  | exg src dst => exact .of_exg h
  | puls list => exact .of_puls h
  | pulu list => exact .of_pulu h
  | rti => exact .of_rti h
  | swi => exact .of_enterInterrupt (.inl ⟨rfl, rfl⟩) h
  | swi2 => exact .of_enterInterrupt (.inr ⟨.inl rfl, rfl⟩) h
  | swi3 => exact .of_enterInterrupt (.inr ⟨.inr rfl, rfl⟩) h
  | andcc mask =>
    exact .maskCc mask (.inl rfl) (keptByModes_dp.inherent (f := fun s => s.withCc (s.cc &&& mask)) (fun _ => rfl) h)
  | orcc mask =>
    exact .maskCc mask (.inr rfl) (keptByModes_dp.inherent (f := fun s => s.withCc (s.cc ||| mask)) (fun _ => rfl) h)
  | adda o | addb o | adca o | adcb o =>
    refine .halfCarry (.sum o (by simp)) (masks.withOperand8 (fun v s => ?_) h)
    simp only [addTo_eq, addCarryTo_eq]
    exact masks_of_ccHNZVC rfl rfl
  | suba o | subb o | sbca o | sbcb o | cmpa o | cmpb o =>
    refine .halfCarry (.difference o (by simp)) (masks.withOperand8 (fun v s => ?_) h)
    simp only [subFrom_eq, subCarryFrom_eq, compare8_eq]
    exact masks_of_ccHNZVC rfl rfl
  | neg l | asl l | asr l =>
    refine .halfCarry (.memory l (by simp)) (masks.modifyLoc (fun v s => ?_) h)
    simp only [negFlags_eq, aslFlags_eq, asrFlags_eq]
    exact masks_of_ccHNZVC rfl rfl
  | nega | negb | asla | aslb | asra | asrb =>
    refine .halfCarry (.accumulator (by simp)) (masks.modifyReg (fun _ _ => rfl) (fun v s => ?_) h)
    simp only [negFlags_eq, aslFlags_eq, asrFlags_eq]
    exact masks_of_ccHNZVC rfl rfl
  | lda o | ldb o | anda o | andb o | ora o | orb o | eora o | eorb o | bita o | bitb o =>
    refine .kept (status.withOperand8 (fun v s => ?_) h)
    simp only [load8_eq, andTo_eq, orTo_eq, eorTo_eq, bitTest_eq]
    exact status_of_ccNZVC rfl rfl
  | ldd o | ldx o | ldy o | ldu o | lds o | addd o | subd o | cmpd o | cmpx o | cmpy o | cmpu o | cmps o =>
    refine .kept (status.withOperand16 (fun v s => ?_) h)
    simp only [load16_eq, addToD_eq, subFromD_eq, compare16_eq]
    exact status_of_ccNZVC rfl rfl
  | sta l | stb l =>
    refine .kept (status.storeLoc8 (fun s => ?_) h)
    exact status_of_ccNZVC rfl (putLogic8_eq_ccNZV s _)
  | std l | stx l | sty l | stu l | sts l =>
    refine .kept (status.storeLoc16 (fun s => ?_) h)
    exact status_of_ccNZVC rfl (putLogic16_eq_ccNZV s _)
  | clr l => exact .kept (status.storeLoc8 (fun s => clrFlags_eq s ▸ status_of_ccNZVC rfl rfl) h)
  | inc l | dec l | com l | lsr l | rol l | ror l =>
    refine .kept (status.modifyLoc (fun v s => ?_) h)
    simp only [incFlags_eq, decFlags_eq, comFlags_eq, lsrFlags_eq, rolFlags_eq, rorFlags_eq]
    exact status_of_ccNZVC rfl rfl
  | inca | incb | deca | decb | coma | comb | lsra | lsrb | rola | rolb | rora | rorb =>
    refine .kept (status.modifyReg (fun _ _ => rfl) (fun v s => ?_) h)
    simp only [incFlags_eq, decFlags_eq, comFlags_eq, lsrFlags_eq, rolFlags_eq, rorFlags_eq]
    exact status_of_ccNZVC rfl rfl
  | tst l => exact .kept (status.readLoc8 (fun v s => tstFlags_eq v s ▸ status_of_ccNZVC rfl rfl) h)
  | leax x | leay x =>
    refine .kept (status.withEA (fun ea s => ?_) h)
    rw [leaWithZ_eq]
    exact status_of_ccNZVC rfl rfl
  | leas x | leau x | jmp l => exact .kept (status.withEA (by intros; rfl) h)
  | jsr l => exact .kept (status.withEA (status.callTo (fun _ _ => rfl) (fun _ _ => rfl)) h)
  | clra =>
    refine .kept (status.inherent (f := fun s => (clrFlags s).set8 .a 0x00) (fun s => ?_) h)
    exact clrFlags_eq s ▸ status_of_ccNZVC rfl rfl
  | clrb =>
    refine .kept (status.inherent (f := fun s => (clrFlags s).set8 .b 0x00) (fun s => ?_) h)
    exact clrFlags_eq s ▸ status_of_ccNZVC rfl rfl
  | tsta | tstb | daa | mul | sex =>
    refine .kept (status.inherent (fun s => ?_) h)
    simp only [tstFlags_eq, daaOp_eq, mulOp_eq, sexOp_eq]
    exact status_of_ccNZVC rfl rfl
  | abx => exact .kept (status.inherent (by intros; rfl) h)
  | nop => exact .kept (status.inherent (f := fun s => s) (fun _ => rfl) h)
  | rts => exact .kept (status.inherent (fun s => returnOp_eq s ▸ rfl) h)
  | pshs list => exact .kept (status.inherent (fun s => status.pushList_s (fun _ _ => rfl) s list) h)
  | pshu list => exact .kept (status.inherent (fun s => status.pushList_u (fun _ _ => rfl) s list) h)
  | bsr d | lbsr d => exact .kept (status.inherent (fun s => status.callTo (fun _ _ => rfl) (fun _ _ => rfl) _ s) h)
  | bra d | brn d | bhi d | bls d | bcc d | bcs d | bne d | beq d | bvc d | bvs d | bpl d | bmi d | bge d | blt d | bgt d
  | ble d | lbra d | lbrn d | lbhi d | lbls d | lbcc d | lbcs d | lbne d | lbeq d | lbvc d | lbvs d | lbpl d | lbmi d
  | lbge d | lblt d | lbgt d | lble d => exact .kept (status.branch (fun _ _ => rfl) h)

/-! ## What changes DP, the masks and H -/

/-- Settles O58: of the six effects, only a transfer, a pull and RTI reach DP, under the conditions of R18. -/
theorem directPageChangesOnlyBy : Obligations.DirectPageChangesOnlyBy := by
  intro i st t h changed
  cases exec_status i st t h with
  | kept status =>
    have masks := ((State.status_eq_iff st t).mp status).1
    exact absurd ((State.masks_eq_iff st t).mp masks).1 changed
  | halfCarry _ masks => exact absurd ((State.masks_eq_iff st t).mp masks).1 changed
  | maskCc _ _ dp => exact absurd dp changed
  | interrupt _ _ dp => exact absurd dp changed
  | move names =>
    rcases names .dp (.inr rfl) changed with pair | list
    · exact .inl pair
    · exact .inr (.inl list)
  | rti is dp => exact .inr (.inr ⟨is, eq_true_of_ne_false fun e => changed (dp e)⟩)

/-- Settles O59: `kept` and `halfCarry` leave E, F and I, the other effects are those of the instructions listed. -/
theorem interruptFlagsChangeOnlyBy : Obligations.InterruptFlagsChangeOnlyBy := by
  intro i st t h changed
  have masksChanged : t.masks ≠ st.masks := by
    intro masks
    obtain ⟨-, he, hf, hi⟩ := (State.masks_eq_iff st t).mp masks
    simp [he, hf, hi] at changed
  have ccChanged : t.get8 .cc ≠ st.get8 .cc := by
    intro cc
    have same (fl : Flag) : t.flag fl = st.flag fl := congrArg (getFlag fl) cc
    simp [same] at changed
  cases exec_status i st t h with
  | kept status => exact absurd ((State.status_eq_iff st t).mp status).1 masksChanged
  | halfCarry _ masks => exact absurd masks masksChanged
  | maskCc mask is _ => exact .inl ⟨mask, is⟩
  | move names =>
    rcases names .cc (.inl rfl) ccChanged with pair | list
    · exact .inr (.inl pair)
    · exact .inr (.inr (.inl list))
  | rti is _ => exact .inr (.inr (.inr (.inl is)))
  | interrupt mask is _ _ hf hi =>
    rcases is with ⟨swi, -⟩ | ⟨is, rfl⟩
    · exact .inr (.inr (.inr (.inr (.inl swi))))
    · rw [Bool.or_false] at hf hi
      exact .inr (.inr (.inr (.inr (.inr ⟨is, hi, hf⟩))))

/-- Settles O60: of the six effects, `kept` and `interrupt` leave H, the others are those of the instructions listed. -/
theorem halfCarryChangesOnlyBy : Obligations.HalfCarryChangesOnlyBy := by
  intro i st t h changed
  have ccChanged : t.get8 .cc ≠ st.get8 .cc := fun cc => changed (congrArg (getFlag .h) cc)
  cases exec_status i st t h with
  | kept status => exact absurd ((State.status_eq_iff st t).mp status).2 changed
  | interrupt _ _ _ hh => exact absurd hh changed
  | halfCarry writes _ =>
    cases writes with
    | sum o is => exact .inl ⟨o, is⟩
    | difference o is => exact .inr (.inl ⟨o, is⟩)
    | memory l is => exact .inr (.inr (.inl ⟨l, is⟩))
    | accumulator is => exact .inr (.inr (.inr (.inl is)))
  | maskCc mask is _ => exact .inr (.inr (.inr (.inr (.inl ⟨mask, is⟩))))
  | move names =>
    rcases names .cc (.inl rfl) ccChanged with pair | list
    · exact .inr (.inr (.inr (.inr (.inr (.inl pair)))))
    · exact .inr (.inr (.inr (.inr (.inr (.inr (.inl list))))))
  | rti is _ => exact .inr (.inr (.inr (.inr (.inr (.inr (.inr is))))))

end Sys2Proof.Machine
end

section
/-! Proofs of the statements of 20_memory.md. -/

/-! ## Decoding what was encoded (30_encoding.md R60 to R72) -/

namespace Sys2Proof

/-- Decoding the bytes of a well-formed instruction gives it back: the map has its entry at its opcode, and the entry
makes it from its operand bytes (R61, R72). -/
theorem decode_encode (i : Instr) (rest : List Byte) (wf : i.wf = true) :
    decode (encode i ++ rest) = .ok (i, rest) := by
  obtain ⟨e, entry, rebuilds⟩ := i.entry
  rw [encode, List.append_assoc, decode_opcodeBytes i.opcode e _ i.opcode_page entry]
  exact fetchOperand_encode _ _ e i.operand i rest rebuilds wf

/-- An indexed form has at most two bytes after its postbyte (R83). -/
theorem Indexed.length_extraBytes_le (x : Indexed) : x.extraBytes.length ≤ 2 := by
  cases x <;> simp [Indexed.extraBytes]

/-- No mode has more than three operand bytes (R61, R72). -/
theorem Operand.length_bytes_le (o : Operand) : o.bytes.length ≤ 3 := by
  cases o with
  | idx x =>
    have := x.length_extraBytes_le
    simp only [Operand.bytes, List.length_cons]
    omega
  | _ => simp [Operand.bytes]

/-- The longest instruction has five bytes (R61). -/
theorem Instr.length_le_five (i : Instr) : i.length ≤ 5 := by
  have opcode : (opcodeBytes i.opcode).length ≤ 2 := by
    rw [length_opcodeBytes]
    split <;> decide
  have operand := i.operand.length_bytes_le
  rw [i.length_eq]
  omega

end Sys2Proof

namespace Sys2Proof.Machine

/-- The fetch window starts with the bytes of an instruction that lies at PC (R55, R56). -/
theorem StoredAtPc.fetchWindow {i : Instr} {st : State} (stored : StoredAtPc i st) :
    st.fetchWindow = encode i ++ st.bytesFrom (st.pc.toNat + i.length) (5 - i.length) := by
  obtain ⟨below, bytes⟩ := stored
  exact st.bytesFrom_prefix (encode i) st.pc.toNat 5 i.length_le_five below bytes

/-- Settles O8: the window starts with the encoding, which decodes to the instruction whatever follows it. -/
theorem stepRunsStoredInstruction : Obligations.StepRunsStoredInstruction := by
  intro st i wf stored
  apply step_of_decode
  rw [stored.fetchWindow]
  exact decode_encode i _ wf

/-! ## The bus (R35 to R39) -/

theorem State.memRead1_out (st : State) {addr : Nat} (h : Config.memSize ≤ addr) : st.memRead1 addr = none :=
  if_neg (Nat.not_lt.mpr h)

theorem State.memWrite1_out (st : State) {addr : Nat} (v : Byte) (h : Config.memSize ≤ addr) :
    st.memWrite1 addr v = none :=
  if_neg (Nat.not_lt.mpr h)

theorem State.memRead2_out (st : State) {addr : Nat} (h : Config.memSize ≤ addr + 1) : st.memRead2 addr = none :=
  if_neg (Nat.not_lt.mpr h)

theorem State.memWrite2_out (st : State) {addr : Nat} (w : Word) (h : Config.memSize ≤ addr + 1) :
    st.memWrite2 addr w = none :=
  if_neg (Nat.not_lt.mpr h)

theorem State.memWrite1_lt (st : State) {addr : Nat} (v : Byte) (h : addr < Config.memSize) :
    st.memWrite1 addr v = some (st.withMem (Memory.write st.mem addr v)) :=
  if_pos h

theorem State.memRead2_lt (st : State) {addr : Nat} (h : addr + 1 < Config.memSize) :
    st.memRead2 addr = some (mkWord (Memory.read st.mem addr) (Memory.read st.mem (addr + 1))) :=
  if_pos h

theorem State.memWrite2_lt (st : State) {addr : Nat} (w : Word) (h : addr + 1 < Config.memSize) :
    st.memWrite2 addr w =
      some (st.withMem (Memory.write (Memory.write st.mem addr (hiByte w)) (addr + 1) (loByte w))) :=
  if_pos h

/-- What a word written leaves in memory: the high byte first, every other byte as it was (R37). -/
theorem Memory.read_writeWord (m : List Host.Cell) (addr : Nat) (v w : Byte) (b : Nat) :
    Memory.read (Memory.write (Memory.write m addr v) (addr + 1) w) b =
      if b = addr then v else if b = addr + 1 then w else Memory.read m b := by
  rw [Memory.read_write, Memory.read_write]
  by_cases high : b = addr
  · simp [high]
  · simp [high]

/-- Settles O16: each access is decided by the address of its last byte, and a write is seen by `Memory.read_write`. -/
theorem busAccessesAreBigEndianAndChecked : Obligations.BusAccessesAreBigEndianAndChecked := by
  intro st addr v w
  refine ⟨fun out => ⟨st.memRead1_out out, st.memWrite1_out v out⟩,
    fun out => ⟨st.memRead2_out out, st.memWrite2_out w out⟩, fun inside => ?_, fun inside => ?_⟩
  · have inside : addr < Config.memSize := Nat.lt_succ_of_le inside
    exact ⟨st.memRead1_lt addr inside, _, st.memWrite1_lt v inside, rfl, Memory.read_write st.mem addr v⟩
  · have inside : addr + 1 < Config.memSize := Nat.lt_succ_of_le inside
    have stored := Memory.read_writeWord st.mem addr (hiByte w) (loByte w)
    have high := (stored addr).trans (if_pos rfl)
    have low := (stored (addr + 1)).trans ((if_neg (Nat.succ_ne_self addr)).trans (if_pos rfl))
    refine ⟨⟨_, st.memRead2_lt inside, toNat_mkWord _ _⟩, _, st.memWrite2_lt w inside, rfl, ?_, ?_, ?_, ?_⟩
    · rw [State.memRead2_lt _ inside, State.withMem_mem, high, low, mkWord_hiByte_loByte]
    · rw [State.withMem_mem, high, toNat_hiByte]
    · rw [State.withMem_mem, low, toNat_loByte]
    · intro b notHigh notLow
      rw [State.withMem_mem, stored, if_neg notHigh, if_neg notLow]

/-! ## `load` (R42) -/

theorem State.placeBytes_cons (st : State) {addr : Nat} (b : Byte) (rest : List Byte) (h : addr < Config.memSize) :
    st.placeBytes addr (b :: rest) = (st.withMem (Memory.write st.mem addr b)).placeBytes (addr + 1) rest := by
  rw [State.placeBytes, st.memWrite1_lt b h]

/-- The bytes outside the sequence are as they were. -/
theorem State.placeBytes_outside (st : State) (addr : Nat) (bytes : List Byte)
    (below : addr + bytes.length ≤ Config.memSize) (b : Nat) (outside : b < addr ∨ addr + bytes.length ≤ b) :
    Memory.read (st.placeBytes addr bytes).mem b = Memory.read st.mem b := by
  induction bytes generalizing st addr with
  | nil => rfl
  | cons v rest ih =>
    rw [List.length_cons] at below outside
    rw [st.placeBytes_cons v rest (by omega), ih _ (addr + 1) (by omega) (by omega), State.withMem_mem,
      Memory.read_write_other _ _ _ _ (by omega)]

/-- The sequence lies in memory from the address on. -/
theorem State.placeBytes_inside (st : State) (addr : Nat) (bytes : List Byte)
    (below : addr + bytes.length ≤ Config.memSize) (k : Nat) (h : k < bytes.length) :
    Memory.read (st.placeBytes addr bytes).mem (addr + k) = bytes[k] := by
  induction bytes generalizing st addr k with
  | nil => exact absurd h (Nat.not_lt_zero k)
  | cons v rest ih =>
    rw [List.length_cons] at below h
    rw [st.placeBytes_cons v rest (by omega)]
    cases k with
    | zero =>
      rw [State.placeBytes_outside _ (addr + 1) rest (by omega) _ (by omega)]
      exact Memory.read_write_same st.mem addr v
    | succ k =>
      have next : addr + (k + 1) = addr + 1 + k := by omega
      rw [next]
      exact ih _ (addr + 1) (by omega) k (by omega)

/-- Settles O17: `load` checks the last byte of the sequence and then places it byte after byte. -/
theorem loadWritesSequenceOrNothing : Obligations.LoadWritesSequenceOrNothing := by
  intro st addr bytes
  constructor
  · intro out
    have above : ¬ addr + bytes.length ≤ Config.memSize := by
      rw [Config.memSize]
      omega
    exact if_neg above
  · intro inside
    have below : addr + bytes.length ≤ Config.memSize := by
      rw [Config.memSize]
      omega
    have loaded : st.load addr bytes = some (st.placeBytes addr bytes) := if_pos below
    exact ⟨_, loaded, st.load_frame _ addr bytes loaded, st.wf_load _ addr bytes loaded,
      st.placeBytes_inside addr bytes below, st.placeBytes_outside addr bytes below⟩

/-! ## The stack primitives (R45 to R48) -/

theorem State.set16_withMem (st : State) (m : List Host.Cell) (p : Reg16) (v : Word) :
    (st.withMem m).set16 p v = (st.set16 p v).withMem m := by
  cases p <;> rfl

theorem State.set16_set16 (st : State) (p : Reg16) (v w : Word) : (st.set16 p v).set16 p w = st.set16 p w := by
  cases p <;> rfl

theorem State.set16_get16 (st : State) (p : Reg16) : st.set16 p (st.get16 p) = st := by
  cases p with
  | d => simp [State.set16, State.d]
  | _ => rfl

/-- A push changes the stack pointer and memory only (R45). -/
theorem State.push8_eq (st : State) (p : Reg16) (v : Byte) :
    st.push8 p v = (st.set16 p (st.get16 p - 1)).withMem (st.push8 p v).mem := by
  rw [State.push8_mem, State.push8, State.writeByte, State.set16_mem]

/-- A push of a word moves the stack pointer down by two (R46). -/
theorem State.push16_eq_set16 (st : State) (p : Reg16) (w : Word) :
    st.push16 p w = (st.set16 p (st.get16 p - 2)).withMem (st.push16 p w).mem := by
  have two : st.get16 p - 1 - 1 = st.get16 p - 2 := by bv_omega
  rw [State.push16, State.push8_eq _ p (hiByte w), State.push8_get16_same, two, State.push8_eq st p (loByte w),
    State.set16_withMem, State.set16_set16]
  rfl

/-- A pull of a word moves the stack pointer up by two (R48). -/
theorem State.drop16_eq (st : State) (p : Reg16) : st.drop16 p = st.set16 p (st.get16 p + 2) := by
  have two : st.get16 p + 1 + 1 = st.get16 p + 2 := by bv_omega
  rw [State.drop16, State.drop8, State.drop8, State.get16_set16_same, State.set16_set16, two]

/-- The word pulled, high byte first (R48). -/
theorem State.pulled16_eq (st : State) (p : Reg16) :
    st.pulled16 p = mkWord (st.readByte (st.get16 p)) (st.readByte (st.get16 p + 1)) := by
  rw [State.pulled16, State.pulled8, State.pulled8, State.drop8, State.get16_set16_same, State.readByte_set16]

/-- A pull gives back the byte pushed. -/
theorem State.pulled8_push8 (st : State) (p : Reg16) (v : Byte) : (st.push8 p v).pulled8 p = v := by
  rw [State.pulled8, State.push8_get16_same, State.push8_readByte, if_pos rfl]

/-- A pull gives back the word pushed. -/
theorem State.pulled16_push16 (st : State) (p : Reg16) (w : Word) : (st.push16 p w).pulled16 p = w := by
  obtain ⟨stored, -⟩ := st.pushBytes_stored p [hiByte w, loByte w] (by simp)
  have pointer : (st.push16 p w).get16 p = st.get16 p - 2 := st.pushBytes_get16_same p [hiByte w, loByte w]
  have high : (st.push16 p w).readByte (st.get16 p - 2) = hiByte w := by
    rw [← BitVec.add_zero (st.get16 p - 2)]
    exact stored 0 (by simp)
  have low : (st.push16 p w).readByte (st.get16 p - 2 + 1) = loByte w := stored 1 (by simp)
  rw [State.pulled16_eq, pointer, high, low, mkWord_hiByte_loByte]

/-- Pulling the word pushed leaves the registers as they were. -/
theorem State.drop16_push16 (st : State) (p : Reg16) (w : Word) :
    (st.push16 p w).drop16 p = st.withMem (st.push16 p w).mem := by
  have back : st.get16 p - 2 + 2 = st.get16 p := BitVec.sub_add_cancel _ _
  rw [State.drop16_eq, State.push16_eq_set16, State.get16_withMem, State.get16_set16_same, back, State.set16_withMem,
    State.set16_set16, State.set16_get16]
  rfl

/-- Settles O18, by the equation of each primitive; `pushBytes_stored` says where the bytes lie. -/
theorem stackPrimitivesPushAndPull : Obligations.StackPrimitivesPushAndPull := by
  intro st p _ v w
  exact ⟨⟨_, st.push8_eq p v, st.pushBytes_stored p [v] (by simp)⟩,
    ⟨_, st.push16_eq_set16 p w, st.pushBytes_stored p [hiByte w, loByte w] (by simp)⟩, rfl, rfl, rfl,
    st.pulled16_eq p, st.drop16_eq p, st.pulled8_push8 p v, st.pulled16_push16 p w, st.drop16_push16 p w⟩

/-! ## What an instruction leaves unchanged (R36, R41, R45) -/

/-- A byte that is not at an address pushed to is as it was: upward from the new pointer lie the addresses that
`pushAddresses` lists downward from the old one. -/
theorem State.pushBytes_outside (st : State) (p : Reg16) (bytes : List Byte) (few : bytes.length ≤ 65536) (a : Word)
    (outside : a ∉ pushAddresses (st.get16 p) bytes.length) : (st.pushBytes p bytes).readByte a = st.readByte a := by
  obtain ⟨-, others⟩ := st.pushBytes_stored p bytes few
  refine others a fun k hk pushed => outside ?_
  have downward : st.get16 p - 1 - BitVec.ofNat 16 (bytes.length - 1 - k) = a := by
    rw [pushed]
    apply BitVec.eq_of_toNat_eq
    simp only [BitVec.toNat_sub, BitVec.toNat_add, BitVec.toNat_ofNat, show (1 : Word).toNat = 1 from rfl]
    omega
  exact List.mem_map.mpr ⟨bytes.length - 1 - k, List.mem_range.mpr (by omega), downward⟩

/-- Each effect an instruction can have on memory changes bytes at the addresses it writes only. -/
theorem MemoryEffect.readByte_outside {i : Instr} {st t : State} (effect : MemoryEffect i st t) {a : Word}
    (outside : a ∉ writeAddresses i st) : t.readByte a = st.readByte a := by
  unfold State.readByte
  cases effect with
  | same mem => rw [mem]
  | byte ea v at_ mem =>
    rw [at_, List.mem_singleton] at outside
    rw [mem, Memory.read_write_other _ _ _ _ fun e => outside (BitVec.eq_of_toNat_eq e)]
  | word ea v w below at_ mem =>
    have next : (ea + 1).toNat = ea.toNat + 1 := BitVec.toNat_add_of_lt below
    rw [at_, List.mem_pair, not_or, ← BitVec.toNat_inj, ← BitVec.toNat_inj, next] at outside
    obtain ⟨notHigh, notLow⟩ := outside
    rw [mem, Memory.read_writeWord, if_neg notHigh, if_neg notLow]
  | push p s bytes before few at_ mem =>
    rw [at_] at outside
    rw [mem, ← before]
    exact s.pushBytes_outside p bytes (by omega) a outside

/-- Settles O57: an instruction that completes has one of the four effects on memory. -/
theorem onlyStoredBytesChange : Obligations.OnlyStoredBytesChange := by
  intro i st t a next outside
  exact (exec_memory i st t next).readByte_outside outside

end Sys2Proof.Machine
end

section
/-! Proofs of the statements of 30_encoding.md. -/

namespace Sys2Proof.Machine

/-- Settles O1, by `decode_encode`. -/
theorem decodeOfEncodeGivesInstruction : Obligations.DecodeOfEncodeGivesInstruction :=
  decode_encode

/-! ## From the bytes to the instruction and back (R61, R65 to R67) -/

/-- The opcode byte of page 1 stands alone (R61, R65). -/
theorem opcodeBytes_page1 (b : Byte) : opcodeBytes (mkWord 0x00 b) = [b] := by
  rw [opcodeBytes, hiByte_mkWord, if_pos rfl, loByte_mkWord]

/-- An opcode of page 2 or 3 is two bytes, 0x10 or 0x11 and its own (R61, R66, R67). -/
theorem opcodeBytes_prefixed {prefixByte : Byte} (b : Byte) (h : prefixByte ≠ 0x00) :
    opcodeBytes (mkWord prefixByte b) = [prefixByte, b] := by
  rw [opcodeBytes, hiByte_mkWord, if_neg h, loByte_mkWord]

/-- What operand bytes decode to under an opcode is well-formed, and its encoding is the opcode bytes and the operand
bytes used (R61, R72). -/
theorem encode_of_fetchOperand {opcode : Word} {offset : Nat} {bytes rest : List Byte} {o : Option Entry} {i : Instr}
    (fetched : fetchOperand opcode offset bytes o = .ok (i, rest)) (makes : Entry.MakesAt opcode o) :
    i.wf = true ∧ encode i ++ rest = opcodeBytes opcode ++ bytes := by
  obtain ⟨hasOpcode, wf, hasBytes⟩ := fetchOperand_makes fetched makes
  refine ⟨wf, ?_⟩
  rw [encode, hasOpcode, List.append_assoc, hasBytes]

/-- Settles O2: on each page the entry found makes instructions with the opcode it stands under, so the encoding is the
opcode bytes and the operand bytes read. -/
theorem encodeOfDecodeGivesBytes : Obligations.EncodeOfDecodeGivesBytes := by
  intro bytes rest i decoded
  cases bytes with
  | nil => cases decoded
  | cons b0 tail =>
    rw [decode_cons] at decoded
    by_cases is10 : b0 = 0x10
    · rw [if_pos is10] at decoded
      cases tail with
      | nil => cases decoded
      | cons b1 operand =>
        have back := encode_of_fetchOperand decoded (page2_makesAt b1)
        rwa [opcodeBytes_prefixed b1 (by decide), ← is10] at back
    · rw [if_neg is10] at decoded
      by_cases is11 : b0 = 0x11
      · rw [if_pos is11] at decoded
        cases tail with
        | nil => cases decoded
        | cons b1 operand =>
          have back := encode_of_fetchOperand decoded (page3_makesAt b1)
          rwa [opcodeBytes_prefixed b1 (by decide), ← is11] at back
      · rw [if_neg is11] at decoded
        have back := encode_of_fetchOperand decoded (page1_makes b0)
        rwa [opcodeBytes_page1] at back

/-! ## Lengths (R60, R61, R72) -/

/-- A postbyte with bit 7 set, as a number: its sub-mode is the low four bits (R62). -/
theorem toNat_postbyteOf (code : BitVec 2) (indirect : Bool) (sub : BitVec 4) :
    128 ≤ (postbyteOf code indirect sub).toNat ∧ (postbyteOf code indirect sub).toNat % 16 = sub.toNat := by
  revert code indirect sub
  decide

/-- The postbyte of a five-bit offset has bit 7 clear (R83). -/
theorem toNat_postbyte_offset5 (r : IndexReg) (n : BitVec 5) : (Indexed.offset5 r n).postbyte.toNat < 128 := by
  have bit7 : ∀ (code : BitVec 2) (n : BitVec 5), (0#1 ++ code ++ n : BitVec (1 + 2 + 5)).toNat < 128 := by decide
  exact bit7 r.code n

/-- The operand bytes are as many as the mode says, and of an indexed operand the postbyte tells (R61, R72). -/
theorem operandByteCount_eq (o : Operand) : operandByteCount o = o.bytes.length := by
  cases o with
  | idx x =>
    cases x with
    | offset5 r n => exact if_pos (toNat_postbyte_offset5 r n)
    | _ =>
      simp [operandByteCount, Indexed.postbyte, toNat_postbyteOf, Operand.bytes, Indexed.extraBytes,
        (toNat_postbyteOf _ _ _).1.not_gt]
  | _ => rfl

/-- The page of an opcode, read from the number (R243). -/
theorem opcode_page_eq_zero_iff (opcode : Word) : opcode.toNat / 256 = 0 ↔ hiByte opcode = 0 := by
  rw [← toNat_hiByte]
  exact BitVec.toNat_inj (y := (0 : Byte))

/-- Settles O3: the encoding is opcode bytes and operand bytes, each counted by its own lemma. -/
theorem lengthIsOpcodeBytesPlusOperandBytes : Obligations.LengthIsOpcodeBytesPlusOperandBytes := by
  intro i _
  have count : i.length = (if i.opcode.toNat / 256 = 0 then 1 else 2) + operandByteCount i.operand := by
    simp only [i.length_eq, length_opcodeBytes, operandByteCount_eq, opcode_page_eq_zero_iff]
  refine ⟨?_, count, ?_, i.length_le_five⟩
  · rw [← toNat_hiByte]
    rcases i.opcode_page with page | page | page <;> simp [page]
  · rw [count]
    split <;> omega

/-! ## Opcodes outside the maps (R68, R69) -/

/-- The illegal bytes of page 1 select no other page, and page 1 has no entry for them (R69). -/
theorem page1_illegal (b : Byte) (illegal : b ∈ illegalPage1) : b ≠ 0x10 ∧ b ≠ 0x11 ∧ page1 b.toNat = none := by
  have all : ∀ b ∈ illegalPage1, b ≠ 0x10 ∧ b ≠ 0x11 ∧ (page1 b.toNat).isNone = true := by decide
  simpa using all b illegal

/-- Page 2 has no entry for a byte that is not one of the 38 (R66, R69). -/
theorem page2_undefined (b : Byte) (undefined : b ∉ definedPage2) : page2 b.toNat = none := by
  have all : ∀ b : Byte, b ∉ definedPage2 → (page2 b.toNat).isNone = true := by decide
  simpa using all b undefined

/-- Page 3 has no entry for a byte that is not one of the 9 (R67, R69). -/
theorem page3_undefined (b : Byte) (undefined : b ∉ definedPage3) : page3 b.toNat = none := by
  have all : ∀ b : Byte, b ∉ definedPage3 → (page3 b.toNat).isNone = true := by decide
  simpa using all b undefined

/-- A step on a byte that page 1 has no entry for faults with that byte (R55, R69). -/
theorem step_of_page1_none {st : State} (not10 : st.readByte st.pc ≠ 0x10) (not11 : st.readByte st.pc ≠ 0x11)
    (none1 : page1 (st.readByte st.pc).toNat = none) :
    step st = .fault (.illegalOpcode st.pc (mkWord 0x00 (st.readByte st.pc)) none) := by
  apply step_of_reject (r := .undefinedOpcode (mkWord 0x00 (st.readByte st.pc)))
  rw [st.fetchWindow_eq, decode_cons, if_neg not10, if_neg not11, none1]
  rfl

/-- Below the top of memory the fetch window holds the two bytes from PC on (R56). -/
theorem State.fetchWindow_eq_two (st : State) (below : st.pc ≠ 0xFFFF) :
    st.fetchWindow = st.readByte st.pc :: st.readByte (st.pc + 1) :: st.bytesFrom (st.pc.toNat + 2) 3 := by
  have second : st.pc.toNat + 1 < 65536 := by bv_omega
  rw [st.fetchWindow_eq, st.bytesFrom_next 1 3 second]
  rfl

/-- Settles O4: the map has no entry for the byte, so decoding rejects it as undefined. -/
theorem undefinedOpcodesFault : Obligations.UndefinedOpcodesFault := by
  refine ⟨fun st illegal => ?_, fun st below prefixed undefined => ?_, fun st below prefixed undefined => ?_,
    by decide +kernel, by decide +kernel, by decide +kernel⟩
  · obtain ⟨not10, not11, none1⟩ := page1_illegal _ illegal
    exact step_of_page1_none not10 not11 none1
  · apply step_of_reject (r := .undefinedOpcode (mkWord 0x10 (st.readByte (st.pc + 1))))
    rw [st.fetchWindow_eq_two below, prefixed, decode_cons, if_pos rfl]
    simp only [page2_undefined _ undefined, fetchOperand]
  · apply step_of_reject (r := .undefinedOpcode (mkWord 0x11 (st.readByte (st.pc + 1))))
    rw [st.fetchWindow_eq_two below, prefixed, decode_cons, if_neg (by decide), if_pos rfl]
    simp only [page3_undefined _ undefined, fetchOperand]

/-! ## Bytes that end inside an instruction (R56, R57) -/

/-- Where in the operand the fetch that fails starts when only `k` of the operand bytes are there: at the first byte
that is missing, or one before it when a `Fetch16` finds one byte of its two (R57). -/
def failingFetch (o : Operand) (k : Nat) : Nat :=
  if endsInWord o = true ∧ k + 1 = o.bytes.length then k - 1 else k

/-- A `Fetch16` that does not find both bytes fails where it starts (R57). -/
theorem fetch16_take (opcode : Word) (offset : Nat) (f : Word → Instr) (h l : Byte) {k : Nat} (short : k < 2) :
    fetch16 opcode offset f ([h, l].take k) = .error (.missingByte opcode offset) := by
  interval_cases k <;> rfl

/-- An operand of one word fails at its first byte, whether one byte of it is there or none. -/
theorem failingFetch_word (o : Operand) (word : endsInWord o = true) (two : o.bytes.length = 2) {k : Nat}
    (short : k < 2) : failingFetch o k = 0 := by
  interval_cases k <;> simp [failingFetch, word, two]

/-- Two bytes after a postbyte fail at the first of them, whether one of them is there or none. -/
theorem failingFetch_extraWord (x : Indexed) (two : x.extraBytes.length = 2) {k : Nat} (short : k < 2) :
    failingFetch (.idx x) (k + 1) = 1 := by
  interval_cases k <;> simp [failingFetch, endsInWord, Operand.bytes, two]

/-- The first bytes of a well-formed indexed operand do not decode: the postbyte is missing, or bytes after it are
(R57, R83). -/
theorem fetchIndexed_take (opcode : Word) (offset : Nat) (f : Indexed → Instr) (x : Indexed) (wf : x.wf = true)
    {k : Nat} (short : k < (Operand.idx x).bytes.length) :
    fetchIndexed opcode offset f ((Operand.idx x).bytes.take k) =
      .error (.missingByte opcode (offset + failingFetch (.idx x) k)) := by
  cases k with
  | zero =>
    have start : failingFetch (.idx x) 0 = 0 := by simp [failingFetch]
    rw [start]
    rfl
  | succ k =>
    simp only [Operand.bytes, List.take_succ_cons, fetchIndexed, postbyteForm_postbyte x wf]
    have extra : k < x.extraBytes.length := Nat.lt_of_succ_lt_succ short
    have extraWord : x.extraBytes.length = 2 → failingFetch (.idx x) (k + 1) = 1 := fun two =>
      failingFetch_extraWord x two (two ▸ extra)
    cases x with
    | offset8 | pcr8 =>
      obtain rfl : k = 0 := Nat.lt_one_iff.mp extra
      rfl
    | offset16 r n | pcr16 r n | extended n =>
      rw [extraWord rfl]
      exact fetch16_take opcode (offset + 1) _ (hiByte n) (loByte n) extra
    | _ => exact absurd extra (Nat.not_lt_zero k)

/-- The first bytes of a well-formed operand do not decode under an entry of its mode: the fetch that runs out of bytes
fails where it starts (R57). -/
theorem fetchOperand_take (opcode : Word) (offset : Nat) {e : Entry} {o : Operand} {i : Instr}
    (rebuilds : Laws.OpcodeMap.rebuild e o = some i) (fetched : ∀ f, e ≠ .unfetched f) (wf : o.wf = true) {k : Nat}
    (short : k < o.bytes.length) :
    fetchOperand opcode offset (o.bytes.take k) (some e) =
      .error (.missingByte opcode (offset + failingFetch o k)) := by
  cases e <;> cases o <;> cases rebuilds
  case inh.inh => exact absurd short (Nat.not_lt_zero k)
  case idx.idx f x => exact fetchIndexed_take opcode offset f x wf short
  case unfetched.imm8 f v => exact absurd rfl (fetched f)
  case imm16.imm16 | ext.ext | rel16.rel16 =>
    rw [failingFetch_word _ rfl rfl short]
    exact fetch16_take _ _ _ _ _ short
  all_goals
    obtain rfl : k = 0 := Nat.lt_one_iff.mp short
    rfl

/-- CWAI alone has the entry whose operand is not fetched (R70). -/
theorem unfetched_is_cwai {i : Instr} {f : Byte → Instr} {o : Operand} {opcode : Word}
    (makes : (Entry.unfetched f).Makes opcode) (rebuilds : Laws.OpcodeMap.rebuild (.unfetched f) o = some i) :
    ∃ mask, i = .cwai mask := by
  obtain ⟨-, cwai⟩ := makes
  cases o <;> cases rebuilds
  exact ⟨_, cwai _⟩

/-- The entry of an instruction other than CWAI fetches its operand. -/
theorem entry_fetched (i : Instr) (notCwai : ∀ mask, i ≠ .cwai mask) :
    ∃ e, Laws.OpcodeMap.entryAt i.opcode = some e ∧ Laws.OpcodeMap.rebuild e i.operand = some i ∧
      ∀ f, e ≠ .unfetched f := by
  obtain ⟨e, entry, rebuilds⟩ := i.entry
  refine ⟨e, entry, rebuilds, ?_⟩
  rintro f rfl
  have makes := entryAt_makes i.opcode i.opcode_page
  rw [entry] at makes
  obtain ⟨mask, cwai⟩ := unfetched_is_cwai makes rebuilds
  exact notCwai mask cwai

/-- The byte 0x10 or 0x11 alone does not decode, and is reported as the opcode (R57, R244). -/
theorem decode_prefix_alone {opcode : Word} (page : hiByte opcode = 0x10 ∨ hiByte opcode = 0x11) :
    decode [hiByte opcode] = .error (.missingByte (mkWord 0x00 (hiByte opcode)) 1) := by
  rcases page with page | page <;> rw [page] <;> rfl

/-- The operand bytes cut short after the whole opcode do not decode (R57). -/
theorem decode_operand_cut (i : Instr) (wf : i.wf = true) (notCwai : ∀ mask, i ≠ .cwai mask) {k : Nat}
    (short : k < i.operand.bytes.length) :
    decode (opcodeBytes i.opcode ++ i.operand.bytes.take k) =
      .error (.missingByte i.opcode ((opcodeBytes i.opcode).length + failingFetch i.operand k)) := by
  obtain ⟨e, entry, rebuilds, fetched⟩ := entry_fetched i notCwai
  rw [decode_opcodeBytes i.opcode e _ i.opcode_page entry]
  exact fetchOperand_take _ _ rebuilds fetched wf short

/-- When memory ends after the first `k` bytes of an instruction, the fetch window holds those (R56, R57). -/
theorem State.fetchWindow_cut {st : State} {bytes : List Byte} {k : Nat} (top : st.pc.toNat + k = 65536) (few : k ≤ 5)
    (short : k ≤ bytes.length)
    (stored : ∀ j (h : j < bytes.length), j < k → Memory.read st.mem (st.pc.toNat + j) = bytes[j]) :
    st.fetchWindow = bytes.take k := by
  have length : (bytes.take k).length = k := List.length_take_of_le short
  have window := st.bytesFrom_prefix (bytes.take k) st.pc.toNat 5 (by omega) (by rw [length, top]; rfl) fun j h => by
    rw [List.getElem_take]
    exact stored j _ (by omega)
  have after : st.pc.toNat + (bytes.take k).length = Config.memSize := by rw [length, top]; rfl
  rwa [after, st.bytesFrom_top, List.append_nil] at window

/-- A window cut inside the opcode holds the byte 0x10 or 0x11 alone (R57, R61). -/
theorem opcode_cut {opcode : Word} {k : Nat} (nonempty : 0 < k) (cut : k < (opcodeBytes opcode).length)
    (operand : List Byte) :
    hiByte opcode ≠ 0 ∧ k = 1 ∧ (opcodeBytes opcode ++ operand).take k = [hiByte opcode] := by
  unfold opcodeBytes at cut ⊢
  split at cut
  · exact absurd cut (Nat.not_lt.mpr nonempty)
  · next prefixed =>
    obtain rfl : k = 1 := Nat.le_antisymm (Nat.le_of_lt_succ cut) nonempty
    rw [if_neg prefixed]
    exact ⟨prefixed, rfl, rfl⟩

/-- An operand that ends in a word has at least its two bytes. -/
theorem length_bytes_of_endsInWord {o : Operand} (word : endsInWord o = true) : 2 ≤ o.bytes.length := by
  cases o with
  | idx x =>
    have two : x.extraBytes.length = 2 := by simpa [endsInWord] using word
    simp [Operand.bytes, two]
  | imm16 | ext | rel16 => exact Nat.le_refl 2
  | _ => cases word

/-- The address of the fetch that fails, when memory ends after `k` operand bytes (R57, R244). -/
theorem failingFetch_address (o : Operand) {start k : Nat} (top : start + k = 65536) :
    start + failingFetch o k = if endsInWord o = true ∧ k + 1 = o.bytes.length then 65535 else 65536 := by
  unfold failingFetch
  split
  next cut =>
    have two := length_bytes_of_endsInWord cut.1
    omega
  next => exact top

/-- A step on the byte 0x10 or 0x11 at 0xFFFF (R57, R244). -/
theorem step_of_prefix_alone {st : State} {opcode : Word} (window : st.fetchWindow = [hiByte opcode])
    (page : hiByte opcode = 0x10 ∨ hiByte opcode = 0x11) :
    step st = .fault (.outOfRange st.pc (mkWord 0x00 (hiByte opcode)) (st.pc.toNat + 1)) :=
  step_of_reject (window ▸ decode_prefix_alone page)

/-- Settles O5: the window holds the first `k` bytes, which end inside the opcode or inside the operand. -/
theorem bytesPastTheTopFault : Obligations.BytesPastTheTopFault := by
  intro i st k wf notCwai top short stored
  have total := i.length_eq
  have opcodeLength := length_opcodeBytes i.opcode
  have window : st.fetchWindow = (encode i).take k :=
    State.fetchWindow_cut top (by have := i.length_le_five; omega) (Nat.le_of_lt short) stored
  simp only [ne_eq, opcode_page_eq_zero_iff]
  by_cases cut : k < (opcodeBytes i.opcode).length
  · have nonempty : 0 < k := by have := st.pc.isLt; omega
    obtain ⟨prefixed, rfl, alone⟩ := opcode_cut nonempty cut i.operand.bytes
    have notWord : ¬ (endsInWord i.operand = true ∧ 1 + 1 = i.length) := by
      rintro ⟨word, two⟩
      have := length_bytes_of_endsInWord word
      omega
    rw [if_pos ⟨rfl, prefixed⟩, if_neg notWord, ← top]
    exact step_of_prefix_alone (window.trans alone) (i.opcode_page.resolve_left prefixed)
  · obtain ⟨m, rfl⟩ := Nat.exists_eq_add_of_le (Nat.le_of_not_lt cut)
    have notAlone : ¬ ((opcodeBytes i.opcode).length + m = 1 ∧ ¬ hiByte i.opcode = 0) := by
      rintro ⟨one, prefixed⟩
      rw [if_neg prefixed] at opcodeLength
      omega
    have last : (opcodeBytes i.opcode).length + m + 1 = i.length ↔ m + 1 = i.operand.bytes.length := by omega
    rw [encode, List.take_length_add_append] at window
    simp only [last]
    rw [if_neg notAlone, ← failingFetch_address i.operand ((Nat.add_assoc _ _ _).trans top), Nat.add_assoc]
    exact step_of_reject (window ▸ decode_operand_cut i wf notCwai (by omega))

/-! ## Samples and the step (R55, R61) -/

/-- Settles O6: the decoder computes on each of the eight words. -/
theorem sampleWordsDecode : Obligations.SampleWordsDecode :=
  ⟨rfl, rfl, rfl, rfl, rfl, rfl, rfl, rfl⟩

/-- Settles O7, by `step_of_decode`. -/
theorem stepRunsDecodedInstruction : Obligations.StepRunsDecodedInstruction :=
  fun _ _ _ => step_of_decode

end Sys2Proof.Machine
end

section
/-! What an indexed operand resolves to, and the proofs of the statements of 40_addressing_modes.md. -/

namespace Sys2Proof.Machine

/-! ## The invalid postbytes (R96) -/

/-- The postbyte table has no form for the 39 invalid postbytes, and one for every other. -/
theorem postbyteForm_eq_none_iff (pb : Byte) : postbyteForm pb = none ↔ pb ∈ invalidPostbytes := by
  have all : ∀ pb : Byte, (postbyteForm pb).isNone = true ↔ pb ∈ invalidPostbytes := by decide
  rw [← all, Option.isNone_iff_eq_none]

/-- Whether a place of the opcode map has an entry of the indexed mode. -/
def isIndexedEntry : Option Entry → Bool
  | some (.idx _) => true
  | _ => false

/-- The bytes of page 1 with an indexed form select no other page, and have an indexed entry (R65). -/
theorem page1_indexed (b : Byte) (indexed : b ∈ indexedPage1) :
    b ≠ 0x10 ∧ b ≠ 0x11 ∧ isIndexedEntry (page1 b.toNat) = true := by
  revert b
  decide

/-- The second bytes of page 2 with an indexed form have an indexed entry (R66). -/
theorem page2_indexed (b : Byte) (indexed : b ∈ indexedPage2) : isIndexedEntry (page2 b.toNat) = true := by
  revert b
  decide

/-- The second bytes of page 3 with an indexed form have an indexed entry (R67). -/
theorem page3_indexed (b : Byte) (indexed : b ∈ indexedPage3) : isIndexedEntry (page3 b.toNat) = true := by
  revert b
  decide

/-- An indexed operand with an invalid postbyte is rejected whatever follows the postbyte (R96, R247). -/
theorem fetchOperand_invalidPostbyte {e : Option Entry} (indexed : isIndexedEntry e = true) {pb : Byte}
    (invalid : pb ∈ invalidPostbytes) (opcode : Word) (offset : Nat) (rest : List Byte) :
    fetchOperand opcode offset (pb :: rest) e = .error (.invalidPostbyte opcode pb) := by
  have noForm : postbyteForm pb = none := (postbyteForm_eq_none_iff pb).mpr invalid
  cases e with
  | none => cases indexed
  | some entry =>
    cases entry with
    | idx f => simp only [fetchOperand, fetchIndexed, noForm]
    | _ => cases indexed

/-- Two bytes below the top of memory the fetch window holds the three bytes from PC on (R56). -/
theorem State.fetchWindow_eq_three (st : State) (below : st.pc.toNat + 2 < 65536) :
    st.fetchWindow = st.readByte st.pc :: st.readByte (st.pc + 1) :: st.readByte (st.pc + 2) ::
      st.bytesFrom (st.pc.toNat + 3) 2 := by
  have notTop : st.pc ≠ 0xFFFF := by bv_omega
  rw [st.fetchWindow_eq_two notTop, st.bytesFrom_next 2 2 below]
  rfl

/-- Settles O10: the opcode has an indexed entry, and its postbyte selects no form. -/
theorem invalidPostbytesFault : Obligations.InvalidPostbytesFault := by
  refine ⟨postbyteForm_eq_none_iff, fun st below indexed invalid => ?_, fun st below prefixed indexed invalid => ?_,
    fun st below prefixed indexed invalid => ?_⟩
  · obtain ⟨not10, not11, entry⟩ := page1_indexed _ indexed
    have notTop : st.pc ≠ 0xFFFF := by bv_omega
    refine step_of_reject (r := .invalidPostbyte (mkWord 0x00 (st.readByte st.pc)) (st.readByte (st.pc + 1))) ?_
    rw [st.fetchWindow_eq_two notTop, decode_cons, if_neg not10, if_neg not11]
    exact fetchOperand_invalidPostbyte entry invalid _ 1 _
  · refine step_of_reject (r := .invalidPostbyte (mkWord 0x10 (st.readByte (st.pc + 1))) (st.readByte (st.pc + 2))) ?_
    rw [st.fetchWindow_eq_three below, prefixed, decode_cons, if_pos rfl]
    exact fetchOperand_invalidPostbyte (page2_indexed _ indexed) invalid _ 2 _
  · refine step_of_reject (r := .invalidPostbyte (mkWord 0x11 (st.readByte (st.pc + 1))) (st.readByte (st.pc + 2))) ?_
    rw [st.fetchWindow_eq_three below, prefixed, decode_cons, if_neg (by decide), if_pos rfl]
    exact fetchOperand_invalidPostbyte (page3_indexed _ indexed) invalid _ 2 _

/-! ## Immediate, direct and extended (R75 to R80) -/

/-- Settles O21: the addresses are those of `effectiveAddress`, and what is read at an address located is said by
`operand8_of_locate` and `operand16_of_locate`. -/
theorem simpleModesResolve : Obligations.SimpleModesResolve := by
  intro i st
  refine ⟨fun v => rfl, fun v => rfl, fun lo => ⟨mkWord st.dp lo, toNat_mkWord st.dp lo, rfl⟩, fun addr => rfl,
    fun l ea s located => ⟨operand8_of_locate located, operand16_of_locate located, ?_⟩, fun l f failed => ?_⟩
  · rintro rfl
    obtain ⟨address, -⟩ := (locate_ok i l st _ s).mp located
    exact (operand16_error i l st _).mpr (.inr ⟨address, rfl⟩)
  · have address : effectiveAddress i l st = .error f := (locate_error i l st f).mp failed
    exact ⟨(operand8_error i l st f).mpr address, (operand16_error i l st f).mpr (.inl address)⟩

/-! ## Addresses modulo 65536 (R40) -/

/-- Adding to an address is modulo 65536, whatever the sign of what is added. -/
theorem ofInt_toNat_add (w : Word) (k : Int) : BitVec.ofInt 16 (w.toNat + k) = w + BitVec.ofInt 16 k := by
  rw [BitVec.ofInt_add, BitVec.ofInt_natCast, BitVec.ofNat_toNat, BitVec.setWidth_eq]

theorem ofInt_toNat_sub (w : Word) (k : Int) : BitVec.ofInt 16 (w.toNat - k) = w - BitVec.ofInt 16 k := by
  rw [Int.sub_eq_add_neg, ofInt_toNat_add, BitVec.ofInt_neg, BitVec.sub_eq_add_neg]

theorem ofNat_toNat_add (w : Word) (k : Nat) : BitVec.ofNat 16 (w.toNat + k) = w + BitVec.ofNat 16 k := by
  rw [BitVec.ofNat_add, BitVec.ofNat_toNat, BitVec.setWidth_eq]

/-- An offset is added sign-extended (R84, R89, R90, R92, R93). -/
theorem ofInt_toNat_add_toInt {width : Nat} (w : Word) (n : BitVec width) :
    BitVec.ofInt 16 (w.toNat + n.toInt) = w + n.signExtend 16 :=
  ofInt_toNat_add w n.toInt

/-- D as a number (R14). -/
theorem State.ofNat_halves (st : State) : BitVec.ofNat 16 (st.a.toNat * 256 + st.b.toNat) = st.d := by
  rw [← toNat_mkWord, BitVec.ofNat_toNat, BitVec.setWidth_eq, State.d]

/-! ## The direct indexed forms (R84 to R93) -/

/-- A direct form resolves to the address of its form. -/
theorem locate_direct (i : Instr) (st : State) {x : Indexed} (wf : x.wf = true) (direct : isIndirect x = false) :
    locate i (.idx x) st = .ok (indexedAddress x (st.pcNext i) st, st.entered i (.idx x)) := by
  have located := locate_indexed i x st wf (by simp [direct])
  rwa [direct] at located

/-- The side effect of a form on its base register is in the state in which the operation runs (R97). -/
theorem State.entered_of_update {st : State} {x : Indexed} {r : IndexReg} {v : Word}
    (update : indexedUpdate x st = st.set16 (baseReg r) v) (i : Instr) :
    st.entered i (.idx x) = (st.advance i).set16 (baseReg r) v := by
  rw [State.entered, locUpdate, update]
  cases r <;> rfl

/-- Settles O22: `locate_direct` on each form, with its additions modulo 65536. -/
theorem indexedFormsResolve : Obligations.IndexedFormsResolve := by
  intro i st r n5 n8 n16 ignored R next s
  simp only [ofInt_toNat_add_toInt, ofInt_toNat_sub, ofNat_toNat_add, BitVec.signExtend_eq, State.ofNat_halves]
  have plain {x : Indexed} := locate_direct i st (x := x)
  have auto {x : Indexed} {v : Word} (wf : x.wf = true) (direct : isIndirect x = false)
      (update : indexedUpdate x st = st.set16 (baseReg r) v) :
      locate i (.idx x) st = .ok (indexedAddress x next st, s.set16 (baseReg r) v) :=
    State.entered_of_update update i ▸ plain wf direct
  exact ⟨plain rfl rfl, auto rfl rfl rfl, auto rfl rfl rfl, auto rfl rfl rfl, auto rfl rfl rfl, plain rfl rfl,
    plain rfl rfl, plain rfl rfl, plain rfl rfl, plain rfl rfl, plain rfl rfl, plain rfl rfl, plain rfl rfl⟩

/-! ## Indirection (R94, R95) -/

/-- An indirect form resolves to the word at the address of its form, and not at all when that is 0xFFFF (R95, R39). -/
theorem locate_indirect (i : Instr) (st : State) {x : Indexed} (wf : x.wf = true) (indirect : isIndirect x = true) :
    let a := indexedAddress x (st.pcNext i) st
    (a ≠ 0xFFFF →
      locate i (.idx x) st = .ok (mkWord (st.readByte a) (st.readByte (a + 1)), st.entered i (.idx x))) ∧
    (a = 0xFFFF → locate i (.idx x) st = .error (.outOfRange st.pc i.opcode 0xFFFF)) := by
  constructor
  · intro below
    have located := locate_indexed i x st wf fun _ => below
    rwa [if_pos indirect] at located
  · intro top
    rw [locate_error, effectiveAddress_error_iff i (.idx x) st _ wf]
    exact ⟨⟨x, rfl, indirect, top⟩, rfl⟩

/-- Settles O23: an indirect form has the address and the side effect of its direct form, so `locate_indirect` speaks
of what the direct form resolves to. -/
theorem indirectFormsResolveOnce : Obligations.IndirectFormsResolveOnce := by
  intro i st x direct a s forms
  have shared : x.wf = true ∧ isIndirect x = true ∧
      (Except.ok (a, s) : Except Fault (Word × State)) =
        .ok (indexedAddress x (st.pcNext i) st, st.entered i (.idx x)) := by
    rcases forms with ⟨form, resolved⟩ | ⟨rfl, rfl⟩
    · rw [← resolved]
      rcases form with ⟨r, rfl, rfl⟩ | ⟨r, rfl, rfl⟩ | ⟨r, rfl, rfl⟩ | ⟨r, rfl, rfl⟩ | ⟨r, rfl, rfl⟩ | ⟨r, rfl, rfl⟩ |
          ⟨r, n, rfl, rfl⟩ | ⟨r, n, rfl, rfl⟩ | ⟨g, n, rfl, rfl⟩ | ⟨g, n, rfl, rfl⟩ <;>
        exact ⟨rfl, rfl, locate_direct i st rfl rfl⟩
    · exact ⟨rfl, rfl, rfl⟩
  obtain ⟨wf, indirect, same⟩ := shared
  cases same
  exact locate_indirect i st wf indirect

/-! ## The side effect comes before the operation (R97) -/

/-- The address of an auto-increment or auto-decrement form, before indirection (R85 to R88). -/
theorem AutoForm.address {x : Indexed} {r : IndexReg} {off change : Int} (auto : AutoForm x r off change)
    (next : Word) (st : State) :
    indexedAddress x next st = BitVec.ofInt 16 ((st.get16 (baseReg r)).toNat + off) := by
  rw [ofInt_toNat_add]
  cases auto with
  | postInc1 | postInc2 => exact (BitVec.add_zero _).symm
  | preDec1 | preDec2 => exact BitVec.sub_eq_add_neg _ _

/-- The side effect of an auto-increment or auto-decrement form (R85 to R88). -/
theorem AutoForm.update {x : Indexed} {r : IndexReg} {off change : Int} (auto : AutoForm x r off change) (st : State) :
    indexedUpdate x st =
      st.set16 (baseReg r) (BitVec.ofInt 16 ((st.get16 (baseReg r)).toNat + change)) := by
  rw [ofInt_toNat_add]
  cases auto with
  | postInc1 | postInc2 => rfl
  | preDec1 | preDec2 => exact congrArg (st.set16 _) (BitVec.sub_eq_add_neg _ _)

/-- The four base registers are different registers. -/
theorem baseReg_ne {q r : IndexReg} (h : q ≠ r) : baseReg q ≠ baseReg r := by
  cases q <;> cases r <;> first | exact absurd rfl h | decide

section Operations

variable {i : Instr} {l : Loc} {x : Indexed} {st s : State} {ea : Word}

/-- A byte load from a located operand: the register is the byte there, and the base registers are those of the state
in which it runs. -/
theorem withOperand8_load8 (located : locate i l st = .ok (ea, s)) (q : Reg8) :
    ∃ t, withOperand8 i (.mem l) (load8 q) st = .next t ∧ t.get8 q = st.readByte ea ∧
      ∀ r, t.get16 (baseReg r) = s.get16 (baseReg r) := by
  refine ⟨_, withOperand8_ok _ (operand8_of_locate located), State.get8_set8_same _ q _, fun r => ?_⟩
  cases r <;> simp [baseReg, load8]

/-- A word load from a located operand: the register is the word there. -/
theorem withOperand16_load16 (located : locate i l st = .ok (ea, s)) (below : ea ≠ 0xFFFF) (q : Reg16) :
    ∃ t, withOperand16 i (.mem l) (load16 q) st = .next t ∧
      t.get16 q = mkWord (st.readByte ea) (st.readByte (ea + 1)) :=
  ⟨_, withOperand16_ok _ (operand16_of_locate located below), State.get16_set16_same _ q _⟩

/-- A word store at a located address keeps the register, and the word there is what the register holds in the state
in which it runs. -/
theorem store16_located (located : locate i l st = .ok (ea, s)) (below : ea ≠ 0xFFFF) (q : Reg16) :
    ∃ t, store16 i l q st = .next t ∧ t.get16 q = s.get16 q ∧
      mkWord (t.readByte ea) (t.readByte (ea + 1)) = s.get16 q := by
  have second : (ea + 1).toNat = ea.toNat + 1 := by bv_omega
  refine ⟨_, storeLoc16_ok _ _ located below, by simp, ?_⟩
  simp only [State.readByte, second, State.withMem_mem, Memory.read_writeWord]
  simp

/-- LEA of a located address: the register is the address, and the other base registers are those of the state in which
it runs. -/
theorem exec_leaOf_located (q : IndexReg) (located : locate (leaOf q x) (.idx x) st = .ok (ea, s)) :
    ∃ t, exec (leaOf q x) st = .next t ∧ t.get16 (baseReg q) = ea ∧
      ∀ r, q ≠ r → t.get16 (baseReg r) = s.get16 (baseReg r) := by
  have other (t : State) (r : IndexReg) (h : q ≠ r) :
      (t.set16 (baseReg q) ea).get16 (baseReg r) = t.get16 (baseReg r) :=
    State.get16_set16_other t _ _ ea (baseReg_ne h.symm)
  cases q with
  | x | y =>
    refine ⟨_, withEA_ok (leaWithZ _) located, State.get16_set16_same _ _ ea, fun r h => ?_⟩
    exact (other _ r h).trans (State.get16_withCc s _ _)
  | u | s => exact ⟨_, withEA_ok (leaPlain _) located, State.get16_set16_same _ _ ea, other s⟩

end Operations

/-- The store of a base register is a word store. -/
theorem exec_storeOf (r : IndexReg) (l : Loc) (st : State) :
    exec (storeOf r l) st = store16 (storeOf r l) l (baseReg r) st := by
  cases r <;> rfl

/-- The load of a base register is a word load. -/
theorem exec_loadOf (r : IndexReg) (o : Src16) (st : State) :
    exec (loadOf r o) st = withOperand16 (loadOf r o) o (load16 (baseReg r)) st := by
  cases r <;> rfl

/-- The operand of an auto-increment or auto-decrement form resolves, for every instruction, in the state that has the
side effect. -/
theorem AutoForm.located {x : Indexed} {r : IndexReg} {off change : Int} (auto : AutoForm x r off change)
    (wf : x.wf = true) (i : Instr) (st : State) {direct : Word}
    (address : direct = BitVec.ofInt 16 ((st.get16 (baseReg r)).toNat + off))
    (below : isIndirect x = true → direct ≠ 0xFFFF) :
    locate i (.idx x) st =
      .ok (if isIndirect x then mkWord (st.readByte direct) (st.readByte (direct + 1)) else direct,
        (st.advance i).set16 (baseReg r) (BitVec.ofInt 16 ((st.get16 (baseReg r)).toNat + change))) := by
  rw [← auto.address (st.pcNext i) st] at address
  subst address
  rw [locate_indexed i x st wf below, State.entered_of_update (auto.update st) i]

/-- Settles O24: the operand resolves in a state that has the side effect, and each operation is said by the lemma of
its shape. -/
theorem indexedSideEffectComesFirst : Obligations.IndexedSideEffectComesFirst := by
  constructor
  · intro st x r off change auto wf direct changed ea below
    have located (i : Instr) : locate i (.idx x) st = .ok (ea, (st.advance i).set16 (baseReg r) changed) :=
      auto.located wf i st rfl below
    have sideEffect (i : Instr) : ((st.advance i).set16 (baseReg r) changed).get16 (baseReg r) = changed :=
      State.get16_set16_same _ _ changed
    refine ⟨located, fun notTop => ?_, fun notTop => ?_, fun q => ?_, ?_, ?_⟩
    · have stored := store16_located (located (storeOf r (.idx x))) notTop (baseReg r)
      rwa [sideEffect, ← exec_storeOf] at stored
    · rw [exec_loadOf]
      exact withOperand16_load16 (located _) notTop (baseReg r)
    · obtain ⟨t, next, address, others⟩ := exec_leaOf_located q (located (leaOf q x))
      exact ⟨t, next, address, fun h => (others r h).trans (sideEffect _)⟩
    · obtain ⟨t, next, loaded, others⟩ := withOperand8_load8 (located (.lda (.mem (.idx x)))) .a
      exact ⟨t, next, loaded, (others r).trans (sideEffect _)⟩
    · obtain ⟨t, next, loaded, others⟩ := withOperand8_load8 (located (.ldb (.mem (.idx x)))) .b
      exact ⟨t, next, loaded, (others r).trans (sideEffect _)⟩
  · intro st r x ea forms
    have located (i : Instr) : locate i (.idx x) st = .ok (ea, st.entered i (.idx x)) := by
      rcases forms with ⟨rfl, rfl⟩ | ⟨rfl, rfl⟩ | ⟨rfl, rfl⟩
      · rw [ofInt_toNat_add_toInt]
        exact locate_direct i st rfl rfl
      · rw [ofInt_toNat_add_toInt]
        exact locate_direct i st rfl rfl
      · exact locate_direct i st rfl rfl
    refine ⟨?_, ?_, fun notTop => withOperand16_load16 (located _) notTop .d⟩
    · obtain ⟨t, next, loaded, -⟩ := withOperand8_load8 (located (.lda (.mem (.idx x)))) .a
      exact ⟨t, next, loaded⟩
    · obtain ⟨t, next, loaded, -⟩ := withOperand8_load8 (located (.ldb (.mem (.idx x)))) .b
      exact ⟨t, next, loaded⟩

end Sys2Proof.Machine
end

section
/-! Completing with an effect, once per shape of instruction, and the proofs of the statements of
41_load_store_lea.md. -/

namespace Sys2Proof.Machine

/-! ## Completing, by the shape of the instruction -/

section Shapes

variable {make8 : Src8 → Instr} {make16 : Src16 → Instr} {make : Loc → Instr} {makeIdx : Indexed → Instr}

/-- An operation on `operand8` completes with any effect it is equal to. -/
theorem completesOn8_of_exec {f effect : Byte → State → State}
    (runs : ∀ o st, exec (make8 o) st = withOperand8 (make8 o) o f st) (same : ∀ v s, f v s = effect v s) :
    CompletesOn8 make8 effect := by
  obtain rfl : f = effect := funext₂ same
  intro o st
  rw [runs]
  exact ⟨fun v s resolved => withOperand8_ok f resolved, fun e failed => withOperand8_error f failed⟩

/-- An operation on `operand16` completes with any effect it is equal to. -/
theorem completesOn16_of_exec {f effect : Word → State → State}
    (runs : ∀ o st, exec (make16 o) st = withOperand16 (make16 o) o f st) (same : ∀ v s, f v s = effect v s) :
    CompletesOn16 make16 effect := by
  obtain rfl : f = effect := funext₂ same
  intro o st
  rw [runs]
  exact ⟨fun v s resolved => withOperand16_ok f resolved, fun e failed => withOperand16_error f failed⟩

/-- An operation on the effective address of an indexed operand completes with any effect it is equal to. -/
theorem completesAtIndexed_of_exec {f effect : Word → State → State}
    (runs : ∀ x st, exec (makeIdx x) st = withEA (makeIdx x) (.idx x) f st) (same : ∀ ea s, f ea s = effect ea s) :
    CompletesAtIndexed makeIdx effect := by
  obtain rfl : f = effect := funext₂ same
  intro x st
  rw [runs]
  exact ⟨fun ea s located => withEA_ok f located, fun e failed => withEA_error f failed⟩

/-- An operand that resolves is located in a state with the memory as it was. -/
theorem mem_of_locate {i : Instr} {l : Loc} {st s : State} {ea : Word} (located : locate i l st = .ok (ea, s)) :
    s.mem = st.mem := by
  obtain ⟨-, rfl⟩ := (locate_ok i l st ea s).mp located
  exact State.entered_mem st i l

/-- An instruction that writes one byte at its located address, after an effect that keeps the memory, stores that
byte (R36). -/
theorem completesStoring8_of_writeByte {value : Byte → State → Byte} {effect : Byte → State → State}
    (keeps : ∀ m s, (effect m s).mem = s.mem)
    (writes : ∀ l st ea s, locate (make l) l st = .ok (ea, s) →
      exec (make l) st = .next ((effect (st.readByte ea) s).writeByte ea (value (st.readByte ea) s)))
    (faults : ∀ l st e, locate (make l) l st = .error e → exec (make l) st = .fault e) :
    CompletesStoring8 make value effect := by
  refine fun l st => ⟨fun ea s located => ⟨_, writes l st ea s located, fun addr => ?_⟩, faults l st⟩
  rw [keeps, mem_of_locate located, Memory.read_write]

/-- The store of an 8-bit register (R103, R104). -/
theorem completesStoring8_of_store8 {r : Reg8} (runs : ∀ l st, exec (make l) st = store8 (make l) l r st) :
    CompletesStoring8 make (fun _ s => s.get8 r)
      (fun _ s => s.withCc (ccNZV s (s.get8 r).msb (s.get8 r == 0) false)) := by
  simp only [store8, putLogic8_eq_ccNZV] at runs
  refine completesStoring8_of_writeByte (fun _ _ => rfl) (fun l st ea s located => ?_) fun l st e failed => ?_
  · exact (runs l st).trans (storeLoc8_ok _ _ located)
  · exact (runs l st).trans (storeLoc8_error _ _ failed)

/-- The store of a 16-bit register: high byte first, and not at 0xFFFF (R110 to R114, R37, R39). -/
theorem completesStoring16_of_store16 {r : Reg16} (runs : ∀ l st, exec (make l) st = store16 (make l) l r st) :
    CompletesStoring16 make (fun s => s.get16 r)
      (fun s => s.withCc (ccNZV s (s.get16 r).msb (s.get16 r == 0) false)) := by
  simp only [store16, putLogic16_eq_ccNZV] at runs
  intro l st
  rw [runs]
  refine ⟨fun ea s located below => ⟨_, storeLoc16_ok _ _ located below, fun addr => ?_⟩,
    fun s located => storeLoc16_top _ _ located, fun e failed => storeLoc16_error _ _ failed⟩
  rw [State.withCc_mem, mem_of_locate located, Memory.read_writeWord]

end Shapes

/-! ## Loads, stores, LEA (R101 to R118) -/

/-- Settles O25: both are `load8` on their operand. -/
theorem loadAccumulators : Obligations.LoadAccumulators :=
  ⟨completesOn8_of_exec (fun _ _ => rfl) (load8_eq .a), completesOn8_of_exec (fun _ _ => rfl) (load8_eq .b)⟩

/-- Settles O26: each is `load16` on its operand. -/
theorem loadWordRegisters : Obligations.LoadWordRegisters :=
  ⟨completesOn16_of_exec (fun _ _ => rfl) (load16_eq .d), completesOn16_of_exec (fun _ _ => rfl) (load16_eq .x),
    completesOn16_of_exec (fun _ _ => rfl) (load16_eq .y), completesOn16_of_exec (fun _ _ => rfl) (load16_eq .u),
    completesOn16_of_exec (fun _ _ => rfl) (load16_eq .s)⟩

/-- Settles O27: both are `store8` of their register. -/
theorem storeAccumulators : Obligations.StoreAccumulators :=
  ⟨completesStoring8_of_store8 (r := .a) fun _ _ => rfl, completesStoring8_of_store8 (r := .b) fun _ _ => rfl⟩

/-- Settles O28: each is `store16` of its register. -/
theorem storeWordRegisters : Obligations.StoreWordRegisters :=
  ⟨completesStoring16_of_store16 (r := .d) fun _ _ => rfl, completesStoring16_of_store16 (r := .x) fun _ _ => rfl,
    completesStoring16_of_store16 (r := .y) fun _ _ => rfl, completesStoring16_of_store16 (r := .u) fun _ _ => rfl,
    completesStoring16_of_store16 (r := .s) fun _ _ => rfl⟩

/-- Settles O29: LEAX and LEAY are `leaWithZ`, LEAS and LEAU are `leaPlain`, and neither reads at the address. -/
theorem loadEffectiveAddress : Obligations.LoadEffectiveAddress :=
  ⟨completesAtIndexed_of_exec (fun _ _ => rfl) (leaWithZ_eq .x),
    completesAtIndexed_of_exec (fun _ _ => rfl) (leaWithZ_eq .y),
    completesAtIndexed_of_exec (f := leaPlain .s) (fun _ _ => rfl) fun _ _ => rfl,
    completesAtIndexed_of_exec (f := leaPlain .u) (fun _ _ => rfl) fun _ _ => rfl⟩

end Sys2Proof.Machine
end

section
/-! Completing with an effect for the shapes of the arithmetic instructions, the sums of DAA, MUL and SEX over the
integers, and the proofs of the statements of 42_arithmetic.md. -/

namespace Sys2Proof.Machine

/-! ## Completing, by the shape of the instruction -/

/-- An inherent operation completes with any effect it is equal to. -/
theorem completes_of_exec {i : Instr} {f effect : State → State} (runs : ∀ st, exec i st = inherent i f st)
    (same : ∀ s, f s = effect s) : Completes i effect := by
  obtain rfl : f = effect := funext same
  exact runs

/-- An operation that only reads the byte at its located address completes with its effect on that byte. -/
theorem completesAt_of_readLoc8 {make : Loc → Instr} {f : Byte → State → State} {effect : Word → State → State}
    (runs : ∀ l st, exec (make l) st = readLoc8 (make l) l f st)
    (same : ∀ ea s, f (s.readByte ea) s = effect ea s) : CompletesAt make effect := by
  intro l st
  rw [runs]
  refine ⟨fun ea s located => ?_, fun e failed => readLoc8_error f failed⟩
  rw [readLoc8_ok f located, same]

/-- A read-modify-write of a byte in memory, in A and in B completes with any result and effect it is equal to, if the
effect keeps the memory (R41). -/
theorem completesOnByte_of_modify {make : Loc → Instr} {onA onB : Instr} {result value : Byte → State → Byte}
    {flags effect : Byte → State → State} (keeps : ∀ m s, (effect m s).mem = s.mem)
    (runs : ∀ l st, exec (make l) st = modifyLoc (make l) l result flags st)
    (runsA : ∀ st, exec onA st = modifyReg onA .a result flags st)
    (runsB : ∀ st, exec onB st = modifyReg onB .b result flags st)
    (sameValue : ∀ m s, result m s = value m s) (sameFlags : ∀ m s, flags m s = effect m s) :
    CompletesOnByte make onA onB value effect := by
  obtain rfl : result = value := funext₂ sameValue
  obtain rfl : flags = effect := funext₂ sameFlags
  refine ⟨completesStoring8_of_writeByte keeps (fun l st ea s located => ?_) fun l st e failed => ?_, runsA, runsB⟩
  · rw [runs, modifyLoc_ok result flags located, State.readByte, mem_of_locate located, State.readByte]
  · rw [runs, modifyLoc_error result flags failed]

/-! ## Additions, subtractions, compares (R124 to R140) -/

/-- Settles O30: ADD is `addTo` and ADC is `addCarryTo`, on their operand. -/
theorem addToAccumulators : Obligations.AddToAccumulators :=
  ⟨completesOn8_of_exec (fun _ _ => rfl) (addTo_eq .a), completesOn8_of_exec (fun _ _ => rfl) (addTo_eq .b),
    completesOn8_of_exec (fun _ _ => rfl) (addCarryTo_eq .a), completesOn8_of_exec (fun _ _ => rfl) (addCarryTo_eq .b)⟩

/-- Settles O31: SUB is `subFrom`, SBC is `subCarryFrom` and CMP is `compare8`, on their operand. -/
theorem subtractAndCompareAccumulators : Obligations.SubtractAndCompareAccumulators :=
  ⟨completesOn8_of_exec (fun _ _ => rfl) (subFrom_eq .a), completesOn8_of_exec (fun _ _ => rfl) (subFrom_eq .b),
    completesOn8_of_exec (fun _ _ => rfl) (subCarryFrom_eq .a),
    completesOn8_of_exec (fun _ _ => rfl) (subCarryFrom_eq .b),
    completesOn8_of_exec (fun _ _ => rfl) (compare8_eq .a), completesOn8_of_exec (fun _ _ => rfl) (compare8_eq .b)⟩

/-- Settles O32: ADDD is `addToD` and SUBD is `subFromD`. -/
theorem addAndSubtractD : Obligations.AddAndSubtractD :=
  ⟨completesOn16_of_exec (fun _ _ => rfl) addToD_eq, completesOn16_of_exec (fun _ _ => rfl) subFromD_eq⟩

/-- Settles O33: each is `compare16` of its register. -/
theorem compareWordRegisters : Obligations.CompareWordRegisters :=
  ⟨completesOn16_of_exec (fun _ _ => rfl) (compare16_eq .d), completesOn16_of_exec (fun _ _ => rfl) (compare16_eq .x),
    completesOn16_of_exec (fun _ _ => rfl) (compare16_eq .y), completesOn16_of_exec (fun _ _ => rfl) (compare16_eq .u),
    completesOn16_of_exec (fun _ _ => rfl) (compare16_eq .s)⟩

/-! ## One byte (R141 to R155) -/

/-- Settles O34: each is a read-modify-write of its byte. -/
theorem negateIncrementDecrement : Obligations.NegateIncrementDecrement :=
  ⟨completesOnByte_of_modify (fun _ _ => rfl) (fun _ _ => rfl) (fun _ => rfl) (fun _ => rfl) negResult_eq negFlags_eq,
    completesOnByte_of_modify (fun _ _ => rfl) (fun _ _ => rfl) (fun _ => rfl) (fun _ => rfl) (fun _ _ => rfl)
      incFlags_eq,
    completesOnByte_of_modify (fun _ _ => rfl) (fun _ _ => rfl) (fun _ => rfl) (fun _ => rfl) (fun _ _ => rfl)
      decFlags_eq⟩

/-- CLR in memory stores 0x00 whatever the byte was (R150). -/
theorem completesStoring8_clr :
    CompletesStoring8 .clr (fun _ _ => 0x00) (fun _ s => s.withCc (ccNZVC s false true false false)) := by
  refine completesStoring8_of_writeByte (fun _ _ => rfl) (fun l st ea s located => ?_) fun l st e failed => ?_
  · exact (storeLoc8_ok _ clrFlags located).trans (by rw [clrFlags_eq])
  · exact storeLoc8_error _ clrFlags failed

/-- Settles O35: CLR stores a constant, and TST is `tstFlags` of a byte that it reads only. -/
theorem clearAndTest : Obligations.ClearAndTest :=
  ⟨⟨completesStoring8_clr, completes_of_exec (fun _ => rfl) fun s => congrArg (·.set8 .a 0x00) (clrFlags_eq s),
      completes_of_exec (fun _ => rfl) fun s => congrArg (·.set8 .b 0x00) (clrFlags_eq s)⟩,
    completesAt_of_readLoc8 (fun _ _ => rfl) fun ea s => tstFlags_eq (s.readByte ea) s,
    completes_of_exec (fun _ => rfl) fun s => tstFlags_eq s.a s,
    completes_of_exec (fun _ => rfl) fun s => tstFlags_eq s.b s⟩

/-! ## DAA (R156) -/

/-- The two digits of the correction do not overlap: it is their sum. -/
theorem toNat_daaCorrection (a : Byte) (h c : Bool) :
    (daaCorrection a h c).toNat =
      (if h = true ∨ 9 < a.toNat % 16 then 0x06 else 0) +
        if c = true ∨ 9 < a.toNat / 16 ∨ 8 < a.toNat / 16 ∧ 9 < a.toNat % 16 then 0x60 else 0 := by
  simp only [daaCorrection, Bool.or_eq_true, Bool.and_eq_true, decide_eq_true_eq, or_assoc]
  split <;> split <;> rfl

/-- Settles O36: DAA is `daaOp`, with the correction as a sum. -/
theorem decimalAdjust : Obligations.DecimalAdjust :=
  completes_of_exec (fun _ => rfl) fun s => by
    rw [daaOp_eq, toNat_daaCorrection]
    simp only [Nat.add_assoc]

/-! ## DAA after ADCA (R126, R156)

`p` and `q` are numbers below 100, packed as two decimal digits each, and `carry` is 0 or 1. -/

/-- The byte of a number below 100 with one decimal digit in each half. -/
def packedDecimal (p : Nat) : Nat := p / 10 * 16 + p % 10

/-- The binary sum of two packed numbers and a carry, which ADCA takes modulo 256. -/
def packedSum (p q carry : Nat) : Nat := packedDecimal p + packedDecimal q + carry

/-- What a packed sum lacks: 6 for each of its digits that carries out in decimal. -/
def decimalCorrection (p q carry : Nat) : Nat :=
  (if 10 ≤ p % 10 + q % 10 + carry then 0x06 else 0) + if 100 ≤ p + q + carry then 0x60 else 0

section PackedDecimal

variable {p q carry : Nat} (hc : carry ≤ 1)
include hc

/-- DAA corrects the low digit exactly when the low digits add up to 10 or more. -/
theorem correctsLow_iff :
    (15 < packedDecimal p % 16 + packedDecimal q % 16 + carry ∨ 9 < packedSum p q carry % 256 % 16) ↔
      10 ≤ p % 10 + q % 10 + carry := by
  simp only [packedSum, packedDecimal]
  omega

variable (hp : p < 100) (hq : q < 100)
include hp hq

/-- DAA corrects the high digit exactly when the numbers add up to 100 or more. -/
theorem correctsHigh_iff :
    (255 < packedSum p q carry ∨ 9 < packedSum p q carry % 256 / 16 ∨
      8 < packedSum p q carry % 256 / 16 ∧ 9 < packedSum p q carry % 256 % 16) ↔ 100 ≤ p + q + carry := by
  by_cases carried : 255 < packedSum p q carry
  · simp only [carried, true_or, true_iff]
    simp only [packedSum, packedDecimal] at carried
    omega
  · rw [Nat.mod_eq_of_lt (Nat.lt_succ_of_le (Nat.not_lt.mp carried))]
    simp only [packedSum, packedDecimal] at carried ⊢
    omega

/-- The corrected sum is the packed sum of the numbers modulo 100. -/
theorem packedSum_add_decimalCorrection :
    (packedSum p q carry % 256 + decimalCorrection p q carry) % 256 = packedDecimal ((p + q + carry) % 100) := by
  simp only [packedSum, packedDecimal, decimalCorrection]
  split <;> split <;> omega

/-- The sum or its correction carries out of bit 7 exactly when the numbers add up to 100 or more. -/
theorem carriesOut_iff :
    (255 < packedSum p q carry ∨ 255 < packedSum p q carry % 256 + decimalCorrection p q carry) ↔
      100 ≤ p + q + carry := by
  simp only [packedSum, packedDecimal, decimalCorrection]
  split <;> split <;> omega

/-- DAA after the binary sum of two packed numbers, with the half-carry and the carry of that sum in H and C. -/
theorem daaOp_of_packedSum {s : State} (sum : s.a = BitVec.ofNat 8 (packedSum p q carry))
    (half : s.flag .h = decide (15 < packedDecimal p % 16 + packedDecimal q % 16 + carry))
    (full : s.flag .c = decide (255 < packedSum p q carry)) :
    (daaOp s).a = BitVec.ofNat 8 (packedDecimal ((p + q + carry) % 100)) ∧
      (daaOp s).flag .c = decide (100 ≤ p + q + carry) := by
  have corrected : s.a.toNat + (daaCorrection s.a (s.flag .h) (s.flag .c)).toNat =
      packedSum p q carry % 256 + decimalCorrection p q carry := by
    rw [toNat_daaCorrection, half, full, sum, BitVec.toNat_ofNat]
    simp only [decide_eq_true_eq, Nat.reducePow, correctsLow_iff hc, correctsHigh_iff hc hp hq, decimalCorrection]
  rw [daaOp_eq, corrected, full]
  constructor
  · rw [← packedSum_add_decimalCorrection hc hp hq]
    exact BitVec.eq_of_toNat_eq (Nat.mod_mod _ _).symm
  · refine (getFlag_c_packCc ..).trans ?_
    rw [← Bool.decide_or, decide_eq_decide, carriesOut_iff hc hp hq]

end PackedDecimal

/-- Settles O37: ADCA leaves the binary sum, its half-carry and its carry where DAA takes them. -/
theorem decimalAdjustAddsDecimal : Obligations.DecimalAdjustAddsDecimal := by
  intro st p q hp hq ha
  have pa : st.a.toNat = packedDecimal p := by
    rw [ha, BitVec.toNat_ofNat, packedDecimal]
    omega
  generalize hm : BitVec.ofNat 8 (q / 10 * 16 + q % 10) = m
  have qm : m.toNat = packedDecimal q := by
    rw [← hm, BitVec.toNat_ofNat, packedDecimal]
    omega
  refine ⟨addCarryTo .a m _, _, rfl, rfl, ?_⟩
  rw [addCarryTo_eq]
  have adjusted {s : State} := daaOp_of_packedSum (s := s) (Bool.toNat_le (st.flag .c)) hp hq
  rw [packedSum, ← pa, ← qm, packedDecimal, Nat.mod_mod_of_dvd _ (by decide)] at adjusted
  exact adjusted rfl (getFlag_h_packCc ..) (getFlag_c_packCc ..)

/-! ## MUL, SEX, ABX (R157 to R159) -/

/-- The product of two bytes fits in a word. -/
theorem toNat_mul_bytes (a b : Byte) : (BitVec.ofNat 16 (a.toNat * b.toNat)).toNat = a.toNat * b.toNat := by
  rw [BitVec.toNat_ofNat, Nat.mod_eq_of_lt]
  have := Nat.mul_le_mul (Nat.le_of_lt_succ a.isLt) (Nat.le_of_lt_succ b.isLt)
  omega

theorem hiByte_ofNat (n : Nat) (h : n < 65536) : hiByte (BitVec.ofNat 16 n) = BitVec.ofNat 8 (n / 256) := by
  apply BitVec.eq_of_toNat_eq
  rw [toNat_hiByte, BitVec.toNat_ofNat, BitVec.toNat_ofNat]
  omega

theorem loByte_ofNat (n : Nat) : loByte (BitVec.ofNat 16 n) = BitVec.ofNat 8 (n % 256) := by
  apply BitVec.eq_of_toNat_eq
  rw [toNat_loByte, BitVec.toNat_ofNat, BitVec.toNat_ofNat]
  omega

/-- MUL with D as its two bytes and the flags of the product as a number. -/
theorem mulOp_eq_halves (s : State) :
    mulOp s =
      { s with
        a := BitVec.ofNat 8 (s.a.toNat * s.b.toNat / 256)
        b := BitVec.ofNat 8 (s.a.toNat * s.b.toNat % 256)
        cc := ccNZC s (s.flag .n) (decide (s.a.toNat * s.b.toNat = 0))
          (decide (s.a.toNat * s.b.toNat / 128 % 2 = 1)) } := by
  have product := toNat_mul_bytes s.a s.b
  have bound := product ▸ BitVec.isLt _
  have zero : (BitVec.ofNat 16 (s.a.toNat * s.b.toNat) == 0) = decide (s.a.toNat * s.b.toNat = 0) := by
    rw [beq_eq_decide, decide_eq_decide, ← BitVec.toNat_inj, product]
    rfl
  have bit7 : (BitVec.ofNat 16 (s.a.toNat * s.b.toNat)).getLsbD 7 = decide (s.a.toNat * s.b.toNat / 128 % 2 = 1) := by
    rw [BitVec.getLsbD, product, Nat.testBit_eq_decide_div_mod_eq]
  rw [mulOp_eq, zero, bit7, State.set16, hiByte_ofNat _ bound, loByte_ofNat]
  rfl

/-- SEX with the sign of B as a comparison. -/
theorem sexOp_eq_sign (s : State) :
    sexOp s =
      { s with
        a := if 128 ≤ s.b.toNat then 0xFF else 0x00
        cc := ccNZV s s.b.msb (s.b == 0) (s.flag .v) } := by
  simp only [sexOp_eq, msb8, decide_eq_true_eq]
  rfl

/-- After SEX the word D is the integer that B is. -/
theorem sexOp_d_toInt (s : State) : (sexOp s).d.toInt = s.b.toInt := by
  have := s.b.isLt
  rw [sexOp_eq_sign, State.d_eq, toInt16, toInt8, toNat_mkWord]
  simp only [apply_ite BitVec.toNat, BitVec.reduceToNat]
  split <;> split <;> omega

/-- Settles O38: MUL, SEX and ABX are `mulOp`, `sexOp` and `abxOp`. -/
theorem multiplySignExtendAddIndex : Obligations.MultiplySignExtendAddIndex := by
  refine ⟨completes_of_exec (fun _ => rfl) mulOp_eq_halves, completes_of_exec (fun _ => rfl) sexOp_eq_sign,
    fun s t sex => ?_, completes_of_exec (fun _ => rfl) fun s => ?_⟩
  · obtain rfl : sexOp (s.advance .sex) = t := Host.Outcome.next.inj sex
    exact sexOp_d_toInt _
  · rw [ofNat_toNat_add, BitVec.ofNat_toNat]
    rfl

end Sys2Proof.Machine
end

section
/-! The results and flags of the logic, condition-code, shift and rotate instructions as numbers, and the proofs of the
statements of 43_logic_shift.md. -/

namespace Sys2Proof.Machine

/-! ## AND, OR, EOR, BIT (R160 to R167) -/

/-- Settles O39: AND, OR and EOR are `andTo`, `orTo` and `eorTo`, and BIT is `bitTest`, on their operand. -/
theorem logicOnAccumulators : Obligations.LogicOnAccumulators :=
  ⟨completesOn8_of_exec (fun _ _ => rfl) (andTo_eq .a), completesOn8_of_exec (fun _ _ => rfl) (andTo_eq .b),
    completesOn8_of_exec (fun _ _ => rfl) (orTo_eq .a), completesOn8_of_exec (fun _ _ => rfl) (orTo_eq .b),
    completesOn8_of_exec (fun _ _ => rfl) (eorTo_eq .a), completesOn8_of_exec (fun _ _ => rfl) (eorTo_eq .b),
    completesOn8_of_exec (fun _ _ => rfl) (bitTest_eq .a), completesOn8_of_exec (fun _ _ => rfl) (bitTest_eq .b)⟩

/-! ## COM, ANDCC, ORCC (R168 to R172) -/

theorem comResult_eq (m : Byte) (s : State) : comResult m s = BitVec.ofNat 8 (255 - m.toNat) := by
  apply BitVec.eq_of_toNat_eq
  rw [comResult, BitVec.toNat_not, BitVec.toNat_ofNat]
  omega

/-- The flags of COM, from the byte that is complemented. -/
theorem comFlags_eq_operand (m : Byte) (s : State) :
    comFlags m s = s.withCc (ccNZVC s (!m.msb) (m == 0xFF) false true) := by
  have zero : (~~~m == 0) = (m == 0xFF) := by
    rw [beq_eq_decide, beq_eq_decide, decide_eq_decide]
    exact BitVec.not_eq_comm
  rw [comFlags_eq, BitVec.msb_not, zero]
  rfl

theorem cc_and_eq_packCc (s : State) (mask : Byte) :
    s.cc &&& mask =
      packCc (s.flag .e && getFlag .e mask) (s.flag .f && getFlag .f mask) (s.flag .h && getFlag .h mask)
        (s.flag .i && getFlag .i mask) (s.flag .n && getFlag .n mask) (s.flag .z && getFlag .z mask)
        (s.flag .v && getFlag .v mask) (s.flag .c && getFlag .c mask) := by
  rw [← packCc_flags (s.cc &&& mask)]
  simp only [getFlag_and, State.flag]

theorem cc_or_eq_packCc (s : State) (mask : Byte) :
    s.cc ||| mask =
      packCc (s.flag .e || getFlag .e mask) (s.flag .f || getFlag .f mask) (s.flag .h || getFlag .h mask)
        (s.flag .i || getFlag .i mask) (s.flag .n || getFlag .n mask) (s.flag .z || getFlag .z mask)
        (s.flag .v || getFlag .v mask) (s.flag .c || getFlag .c mask) := by
  rw [← packCc_flags (s.cc ||| mask)]
  simp only [getFlag_or, State.flag]

/-- Settles O40: COM is a read-modify-write of its byte, and the masks act on each flag of CC. -/
theorem complementAndCcMasks : Obligations.ComplementAndCcMasks :=
  ⟨completesOnByte_of_modify (fun _ _ => rfl) (fun _ _ => rfl) (fun _ => rfl) (fun _ => rfl) comResult_eq
      comFlags_eq_operand,
    fun mask => completes_of_exec (fun _ => rfl) fun s => congrArg s.withCc (cc_and_eq_packCc s mask),
    fun mask => completes_of_exec (fun _ => rfl) fun s => congrArg s.withCc (cc_or_eq_packCc s mask)⟩

/-! ## LSR, ASR, ROR (R173 to R178, R185 to R187) -/

theorem byte_beq_zero (b : Byte) : (b == 0) = (b.toNat == 0) := by
  rw [beq_eq_decide, beq_eq_decide, decide_eq_decide, ← BitVec.toNat_inj]
  rfl

theorem shiftRightIn_beq_zero (top : Bool) (m : Byte) :
    (shiftRightIn top m == 0) = (m.toNat / 2 + 128 * top.toNat == 0) := by
  rw [byte_beq_zero, toNat_shiftRightIn]

/-- An arithmetic shift leaves zero where the signed half is 0: at 0 and at 1, not at -1. -/
theorem shiftRightIn_msb_beq_zero (m : Byte) : (shiftRightIn m.msb m == 0) = (m.toInt / 2 == 0) := by
  have := m.isLt
  rw [shiftRightIn_beq_zero, toInt8, msb8, beq_eq_decide, beq_eq_decide, decide_eq_decide]
  by_cases negative : 128 ≤ m.toNat
  · simp only [negative, decide_true, if_true, Bool.toNat_true]
    omega
  · simp only [negative, decide_false, if_false, Bool.toNat_false]
    omega

/-- The flags of LSR, from half the byte. -/
theorem lsrFlags_eq_half (m : Byte) (s : State) :
    lsrFlags m s = s.withCc (ccNZC s false (m.toNat / 2 == 0) (m.getLsbD 0)) := by
  rw [lsrFlags_eq, shiftRightIn_beq_zero]
  rfl

/-- The flags of ASR, from the signed half of the byte. -/
theorem asrFlags_eq_half (m : Byte) (s : State) :
    asrFlags m s =
      { s with
        cc := packCc (s.flag .e) (s.flag .f) (nextFree s) (s.flag .i) m.msb (m.toInt / 2 == 0) (s.flag .v)
          (m.getLsbD 0)
        freeDraws := s.freeDraws + 1 } := by
  rw [asrFlags_eq, msb_shiftRightIn, shiftRightIn_msb_beq_zero]

/-- The flags of ROR, from half the byte and the old carry. -/
theorem rorFlags_eq_half (m : Byte) (s : State) :
    rorFlags m s =
      s.withCc (ccNZC s (s.flag .c) (m.toNat / 2 + 128 * (s.flag .c).toNat == 0) (m.getLsbD 0)) := by
  rw [rorFlags_eq, msb_shiftRightIn, shiftRightIn_beq_zero]

/-- Settles O41: each is a read-modify-write of its byte by `shiftRightIn`, with 0, bit 7 or C entering. -/
theorem shiftAndRotateRight : Obligations.ShiftAndRotateRight :=
  ⟨completesOnByte_of_modify (fun _ _ => rfl) (fun _ _ => rfl) (fun _ => rfl) (fun _ => rfl)
      (fun m _ => shiftRightIn_eq false m) lsrFlags_eq_half,
    completesOnByte_of_modify (fun _ _ => rfl) (fun _ _ => rfl) (fun _ => rfl) (fun _ => rfl)
      (fun m _ => shiftRightIn_msb_eq m) asrFlags_eq_half,
    completesOnByte_of_modify (fun _ _ => rfl) (fun _ _ => rfl) (fun _ => rfl) (fun _ => rfl)
      (fun m s => shiftRightIn_eq (s.flag .c) m) rorFlags_eq_half⟩

/-! ## ASL, ROL (R179 to R184) -/

theorem shiftLeftIn_beq_zero (m : Byte) (low : Bool) :
    (shiftLeftIn m low == 0) = ((m.toNat * 2 + low.toNat) % 256 == 0) := by
  rw [byte_beq_zero, shiftLeftIn_eq, BitVec.toNat_ofNat]

/-- The flags of ASL, from twice the byte. -/
theorem aslFlags_eq_double (m : Byte) (s : State) :
    aslFlags m s =
      { s with
        cc := ccHNZVC s (nextFree s) (m.getLsbD 6) (m.toNat * 2 % 256 == 0) (m.getLsbD 7 ^^ m.getLsbD 6)
          (m.getLsbD 7)
        freeDraws := s.freeDraws + 1 } := by
  rw [aslFlags_eq, msb_shiftLeftIn, shiftLeftIn_beq_zero]
  rfl

/-- The flags of ROL, from twice the byte and the old carry. -/
theorem rolFlags_eq_double (m : Byte) (s : State) :
    rolFlags m s =
      s.withCc (ccNZVC s (m.getLsbD 6) ((m.toNat * 2 + (s.flag .c).toNat) % 256 == 0) (m.getLsbD 7 ^^ m.getLsbD 6)
        (m.getLsbD 7)) := by
  rw [rolFlags_eq, msb_shiftLeftIn, shiftLeftIn_beq_zero]

/-- Settles O42: each is a read-modify-write of its byte by `shiftLeftIn`, with 0 or C entering. -/
theorem shiftAndRotateLeft : Obligations.ShiftAndRotateLeft :=
  ⟨completesOnByte_of_modify (fun _ _ => rfl) (fun _ _ => rfl) (fun _ => rfl) (fun _ => rfl)
      (fun m _ => shiftLeftIn_eq m false) aslFlags_eq_double,
    completesOnByte_of_modify (fun _ _ => rfl) (fun _ _ => rfl) (fun _ => rfl) (fun _ => rfl)
      (fun m s => shiftLeftIn_eq m (s.flag .c)) rolFlags_eq_double⟩

end Sys2Proof.Machine
end

section
/-! Register pairs and register lists: the codes of two registers of one width, what a push of a list leaves in memory
and what a pull finds there; and the proofs of the statements of 44_transfer_stack.md. -/

namespace Sys2Proof.Machine

/-! ## TFR and EXG (R188 to R191) -/

theorem transferPair_code8 (r q : Reg8) : transferPair (code8 r) (code8 q) = some (.pair8 r q) := by
  simp only [transferPair, transferReg_code8]

theorem transferPair_code16 (r q : Reg16) : transferPair (code16 r) (code16 q) = some (.pair16 r q) := by
  simp only [transferPair, transferReg_code16]

/-- An instruction whose codes name a pair completes with its operation on that pair. -/
theorem completes_of_withPair {i : Instr} {src dst : BitVec 4} {p : TransferPair} {f : TransferPair → State → State}
    (runs : ∀ st, exec i st = withPair i src dst f st) (named : transferPair src dst = some p) : Completes i (f p) :=
  completes_of_exec (fun st => by rw [runs, withPair, named]) fun _ => rfl

/-- Of the 256 postbytes, 6 * 6 + 4 * 4 are valid (R189). -/
theorem countP_transferPair :
    (List.range 256).countP (fun pb =>
      (transferPair (BitVec.ofNat 4 (pb / 16)) (BitVec.ofNat 4 pb)).isSome) = 52 := by
  decide +kernel

/-- Settles O43: a valid pair of codes names two registers of one width, and any other pair names none. -/
theorem transferAndExchange : Obligations.TransferAndExchange := by
  refine ⟨fun r q => completes_of_withPair (f := transfer) (fun _ => rfl) (transferPair_code8 r q),
    fun r q => completes_of_withPair (f := transfer) (fun _ => rfl) (transferPair_code16 r q),
    fun r q => completes_of_withPair (f := exchange) (fun _ => rfl) (transferPair_code8 r q),
    fun r q => completes_of_withPair (f := exchange) (fun _ => rfl) (transferPair_code16 r q),
    fun src dst st invalid => ?_, countP_transferPair⟩
  have unnamed : transferPair src dst = none := (transferPair_none_iff src dst).mpr invalid
  exact ⟨withPair_fault.mpr ⟨unnamed, rfl⟩, withPair_fault.mpr ⟨unnamed, rfl⟩⟩

/-! ## Pushes and pulls as instructions -/

/-- An instruction with a register list and an opcode on page 1 has two bytes (R60, R61). -/
theorem inherent_of_stk {i : Instr} {list : Byte} {opcode : Word} (operand : i.operand = .stk list)
    (code : i.opcode = opcode) (page1 : hiByte opcode = 0) (f : State → State) (st : State) :
    inherent i f st = .next (f { st with pc := st.pc + 2 }) := by
  have two : i.length = 2 := by
    rw [i.length_eq, length_opcodeBytes, code, operand, if_pos page1]
    rfl
  rw [inherent, State.advance, State.pcNext, two]
  rfl

theorem exec_pshs (list : Byte) (st : State) :
    exec (.pshs list) st = .next (State.pushList { st with pc := st.pc + 2 } .s .u list) :=
  inherent_of_stk (opcode := 0x0034) rfl rfl (by decide) (·.pushList .s .u list) st

theorem exec_pshu (list : Byte) (st : State) :
    exec (.pshu list) st = .next (State.pushList { st with pc := st.pc + 2 } .u .s list) :=
  inherent_of_stk (opcode := 0x0036) rfl rfl (by decide) (·.pushList .u .s list) st

theorem exec_puls (list : Byte) (st : State) :
    exec (.puls list) st = .next (State.pullList { st with pc := st.pc + 2 } .s .u list) :=
  inherent_of_stk (opcode := 0x0035) rfl rfl (by decide) (·.pullList .s .u list) st

theorem exec_pulu (list : Byte) (st : State) :
    exec (.pulu list) st = .next (State.pullList { st with pc := st.pc + 2 } .u .s list) :=
  inherent_of_stk (opcode := 0x0037) rfl rfl (by decide) (·.pullList .u .s list) st

/-! ## What a push of a list leaves (R192, R193, R195) -/

/-- A stack pointer to push on or pull from, and the other one, which bit 6 of the list names (R193, R195). -/
inductive StackPair : Reg16 → Reg16 → Prop where
  | onS : StackPair .s .u
  | onU : StackPair .u .s

theorem State.pushList_eq_pushBytes (s : State) {p other : Reg16} (pair : StackPair p other) (list : Byte) :
    s.pushList p other list = s.pushBytes p (stackImage s (s.get16 other) list) := by
  cases pair with
  | onS => exact s.pushList_eq .s .u list (by decide) (by decide) (by decide) (by decide) (by decide)
  | onU => exact s.pushList_eq .u .s list (by decide) (by decide) (by decide) (by decide) (by decide)

theorem State.pushList_get16_same (s : State) {p other : Reg16} (pair : StackPair p other) (list : Byte) :
    (s.pushList p other list).get16 p = s.get16 p - BitVec.ofNat 16 (listBytes list) := by
  rw [s.pushList_eq_pushBytes pair, State.pushBytes_get16_same, stackImage_length]

/-- A push of a list lays its bytes from the new stack pointer upward. -/
theorem State.pushList_stored (s : State) {p other : Reg16} (pair : StackPair p other) (list : Byte) :
    StoredFrom (s.pushList p other list).mem s.mem (s.get16 p - BitVec.ofNat 16 (listBytes list))
      (stackImage s (s.get16 other) list) := by
  have fits : (stackImage s (s.get16 other) list).length ≤ 65536 := by
    rw [stackImage_length]
    exact (listBytes_le list).trans (by decide)
  rw [s.pushList_eq_pushBytes pair, ← stackImage_length s (s.get16 other) list]
  exact s.pushBytes_stored p _ fits

/-- A push on S changes S and memory only. -/
theorem State.pushList_s (s : State) (list : Byte) :
    s.pushList .s .u list =
      { s with s := s.s - BitVec.ofNat 16 (listBytes list), mem := (s.pushList .s .u list).mem } := by
  rw [s.pushList_eq_pushBytes .onS, ← stackImage_length s (s.get16 .u) list]
  exact s.pushBytes_s _

/-- A push on U changes U and memory only. -/
theorem State.pushList_u (s : State) (list : Byte) :
    s.pushList .u .s list =
      { s with u := s.u - BitVec.ofNat 16 (listBytes list), mem := (s.pushList .u .s list).mem } := by
  rw [s.pushList_eq_pushBytes .onU, ← stackImage_length s (s.get16 .s) list]
  exact s.pushBytes_u _

/-- Settles O44: a push of a list is a push of its stack image. -/
theorem pushesStoreSelectedRegisters : Obligations.PushesStoreSelectedRegisters := by
  intro list st s
  rw [exec_pshs, exec_pshu]
  exact ⟨⟨_, congrArg Host.Outcome.next (s.pushList_s list), s.pushList_stored .onS list⟩,
    ⟨_, congrArg Host.Outcome.next (s.pushList_u list), s.pushList_stored .onU list⟩,
    stackImage_length s s.u list, listBytes_le list⟩

/-! ## What a pull of a list finds (R192, R194, R196) -/

/-- Settles O45: a pull of a list is one update of the state. -/
theorem pullsReadSelectedRegisters : Obligations.PullsReadSelectedRegisters := by
  intro list st s
  rw [exec_puls, exec_pulu]
  exact ⟨congrArg Host.Outcome.next (s.pullList_s list), congrArg Host.Outcome.next (s.pullList_u list)⟩

/-! ## What a pull finds where a push ended (R192) -/

/-- The bytes lie in memory from the address upward, modulo 65536. -/
def BytesAt (mem : List Host.Cell) (addr : Word) (bytes : List Byte) : Prop :=
  ∀ k (h : k < bytes.length), Memory.read mem (addr + BitVec.ofNat 16 k).toNat = bytes[k]

/-- A push of a list leaves its stack image at the new stack pointer. -/
theorem State.pushList_bytesAt (s : State) {p other : Reg16} (pair : StackPair p other) (list : Byte) :
    BytesAt (s.pushList p other list).mem ((s.pushList p other list).get16 p) (stackImage s (s.get16 other) list) := by
  obtain ⟨stored, -⟩ := s.pushList_stored pair list
  rw [s.pushList_get16_same pair]
  exact stored

theorem BytesAt.append {mem : List Host.Cell} {addr : Word} {xs ys : List Byte} (lie : BytesAt mem addr (xs ++ ys)) :
    BytesAt mem addr xs ∧ BytesAt mem (addr + BitVec.ofNat 16 xs.length) ys := by
  constructor
  · intro k h
    have inside : k < (xs ++ ys).length := by
      rw [List.length_append]
      omega
    rw [lie k inside, List.getElem_append_left h]
  · intro k h
    have inside : xs.length + k < (xs ++ ys).length := by
      rw [List.length_append]
      omega
    rw [BitVec.add_assoc, ← BitVec.ofNat_add, lie (xs.length + k) inside, List.getElem_append_right (by omega)]
    simp only [Nat.add_sub_cancel_left]

/-- A byte that was pushed if selected is the byte read there if selected. -/
theorem BytesAt.byte_if {s : State} {addr : Word} {selected : Bool} {v w : Byte}
    (lie : BytesAt s.mem addr (if selected then [v] else [])) :
    (if selected then s.readByte addr else w) = if selected then v else w := by
  cases selected with
  | false => rfl
  | true => simpa [State.readByte] using lie 0 (by simp)

/-- A word that was pushed if selected is the word read there if selected. -/
theorem BytesAt.word_if {s : State} {addr : Word} {selected : Bool} {v w : Word}
    (lie : BytesAt s.mem addr (if selected then [hiByte v, loByte v] else [])) :
    (if selected then stackWord s addr else w) = if selected then v else w := by
  cases selected with
  | false => rfl
  | true =>
    have high : s.readByte addr = hiByte v := by simpa [State.readByte] using lie 0 (by simp)
    have low : s.readByte (addr + 1) = loByte v := lie 1 (by simp)
    simp only [stackWord, high, low, mkWord_hiByte_loByte]

/-- In a stack image each selected register lies at its stack offset. -/
theorem BytesAt.registers_of_stackImage {mem : List Host.Cell} {s : State} {sp other : Word} {list : Byte}
    (lie : BytesAt mem sp (stackImage s other list)) :
    BytesAt mem sp (if list.getLsbD 0 then [s.cc] else []) ∧
    BytesAt mem (sp + stackOffset list 1) (if list.getLsbD 1 then [s.a] else []) ∧
    BytesAt mem (sp + stackOffset list 2) (if list.getLsbD 2 then [s.b] else []) ∧
    BytesAt mem (sp + stackOffset list 3) (if list.getLsbD 3 then [s.dp] else []) ∧
    BytesAt mem (sp + stackOffset list 4) (if list.getLsbD 4 then [hiByte s.x, loByte s.x] else []) ∧
    BytesAt mem (sp + stackOffset list 5) (if list.getLsbD 5 then [hiByte s.y, loByte s.y] else []) ∧
    BytesAt mem (sp + stackOffset list 6) (if list.getLsbD 6 then [hiByte other, loByte other] else []) ∧
    BytesAt mem (sp + stackOffset list 7) (if list.getLsbD 7 then [hiByte s.pc, loByte s.pc] else []) := by
  obtain ⟨lie, pc⟩ := lie.append
  obtain ⟨lie, o⟩ := lie.append
  obtain ⟨lie, y⟩ := lie.append
  obtain ⟨lie, x⟩ := lie.append
  obtain ⟨lie, dp⟩ := lie.append
  obtain ⟨lie, b⟩ := lie.append
  obtain ⟨cc, a⟩ := lie.append
  simp only [List.length_append, length_ite_one, length_ite_two, ← stackOffset_one, ← stackOffset_two,
    ← stackOffset_three, ← stackOffset_four, ← stackOffset_five, ← stackOffset_six, ← stackOffset_seven]
    at a b dp x y o pc
  exact ⟨cc, a, b, dp, x, y, o, pc⟩

/-- A pull from S where a push on S in `s` ended loads the selected registers of `s`. -/
theorem State.pullList_s_of_pushList {s t : State} {list : Byte} (mem : t.mem = (s.pushList .s .u list).mem)
    (sp : t.s = (s.pushList .s .u list).s) :
    t.pullList .s .u list =
      { t with
        cc := if list.getLsbD 0 then s.cc else t.cc
        a := if list.getLsbD 1 then s.a else t.a
        b := if list.getLsbD 2 then s.b else t.b
        dp := if list.getLsbD 3 then s.dp else t.dp
        x := if list.getLsbD 4 then s.x else t.x
        y := if list.getLsbD 5 then s.y else t.y
        u := if list.getLsbD 6 then s.u else t.u
        pc := if list.getLsbD 7 then s.pc else t.pc
        s := s.s } := by
  have back : t.s + BitVec.ofNat 16 (listBytes list) = s.s := by
    rw [sp, s.pushList_s, BitVec.sub_add_cancel]
  have lie : BytesAt t.mem t.s (stackImage s s.u list) := by
    rw [mem, sp]
    exact s.pushList_bytesAt .onS list
  obtain ⟨cc, a, b, dp, x, y, u, pc⟩ := lie.registers_of_stackImage
  rw [t.pullList_s, cc.byte_if, a.byte_if, b.byte_if, dp.byte_if, x.word_if, y.word_if, u.word_if, pc.word_if, back]

/-- A pull from U where a push on U in `s` ended loads the selected registers of `s`. -/
theorem State.pullList_u_of_pushList {s t : State} {list : Byte} (mem : t.mem = (s.pushList .u .s list).mem)
    (sp : t.u = (s.pushList .u .s list).u) :
    t.pullList .u .s list =
      { t with
        cc := if list.getLsbD 0 then s.cc else t.cc
        a := if list.getLsbD 1 then s.a else t.a
        b := if list.getLsbD 2 then s.b else t.b
        dp := if list.getLsbD 3 then s.dp else t.dp
        x := if list.getLsbD 4 then s.x else t.x
        y := if list.getLsbD 5 then s.y else t.y
        s := if list.getLsbD 6 then s.s else t.s
        pc := if list.getLsbD 7 then s.pc else t.pc
        u := s.u } := by
  have back : t.u + BitVec.ofNat 16 (listBytes list) = s.u := by
    rw [sp, s.pushList_u, BitVec.sub_add_cancel]
  have lie : BytesAt t.mem t.u (stackImage s s.s list) := by
    rw [mem, sp]
    exact s.pushList_bytesAt .onU list
  obtain ⟨cc, a, b, dp, x, y, o, pc⟩ := lie.registers_of_stackImage
  rw [t.pullList_u, cc.byte_if, a.byte_if, b.byte_if, dp.byte_if, x.word_if, y.word_if, o.word_if, pc.word_if, back]

/-- Settles O46: the stack image the push leaves is what the pull reads, and the stack pointer goes back up by as much
as it went down. -/
theorem pullUndoesPush : Obligations.PullUndoesPush := by
  intro list st t t' mem
  rw [exec_pshs, exec_pshu, exec_puls, exec_pulu]
  constructor
  · rintro ⟨⟩ sp
    exact congrArg Host.Outcome.next (State.pullList_s_of_pushList (t := { t' with pc := t'.pc + 2 }) mem sp)
  · rintro ⟨⟩ sp
    exact congrArg Host.Outcome.next (State.pullList_u_of_pushList (t := { t' with pc := t'.pc + 2 }) mem sp)

end Sys2Proof.Machine
end

section
/-! Branches as conditions, what the flags of a difference tell about its operands, a return where a call ended, and the
proofs of the statements of 45_branch_jump.md. -/

namespace Sys2Proof.Machine

/-! ## Branches (R81, R82, R197) -/

/-- `PCnext` plus a displacement, as a number modulo 65536 (R59, R40). -/
theorem State.ofInt_pcNext_add (st : State) (i : Instr) (k : Int) :
    BitVec.ofInt 16 (st.pc.toNat + i.length + k) = st.pcNext i + BitVec.ofInt 16 k := by
  rw [Int.add_assoc, ofInt_toNat_add, BitVec.ofInt_add, BitVec.ofInt_natCast, ← BitVec.add_assoc, State.pcNext]

/-- A branch goes to `PCnext` plus its displacement when its condition holds, to `PCnext` when not. -/
theorem branch_eq (i : Instr) (c : Cond) (k : Int) (st : State) :
    branch i c (BitVec.ofInt 16 k) st = .next { st with
      pc := BitVec.ofInt 16 (st.pc.toNat + i.length + if c.holds st.cc then k else 0) } := by
  have atNext : (st.advance i).cc = st.cc := rfl
  rw [branch, inherent, atNext, State.ofInt_pcNext_add]
  by_cases taken : c.holds st.cc = true
  · rw [if_pos taken, if_pos taken]
    rfl
  · have stays : st.pcNext i + BitVec.ofInt 16 0 = st.pcNext i := BitVec.add_zero _
    rw [if_neg taken, if_neg taken, stays]
    rfl

/-- The short branch of a condition (R198 to R213). -/
def Cond.short : Cond → Byte → Instr
  | .always => .bra
  | .never => .brn
  | .hi => .bhi
  | .ls => .bls
  | .cc => .bcc
  | .cs => .bcs
  | .ne => .bne
  | .eq => .beq
  | .vc => .bvc
  | .vs => .bvs
  | .pl => .bpl
  | .mi => .bmi
  | .ge => .bge
  | .lt => .blt
  | .gt => .bgt
  | .le => .ble

/-- The long branch of a condition (R214 to R229). -/
def Cond.long : Cond → Word → Instr
  | .always => .lbra
  | .never => .lbrn
  | .hi => .lbhi
  | .ls => .lbls
  | .cc => .lbcc
  | .cs => .lbcs
  | .ne => .lbne
  | .eq => .lbeq
  | .vc => .lbvc
  | .vs => .lbvs
  | .pl => .lbpl
  | .mi => .lbmi
  | .ge => .lbge
  | .lt => .lblt
  | .gt => .lbgt
  | .le => .lble

theorem exec_short (c : Cond) (d : Byte) (st : State) :
    exec (c.short d) st = branch (c.short d) c (d.signExtend 16) st := by
  cases c <;> rfl

theorem exec_long (c : Cond) (d : Word) (st : State) : exec (c.long d) st = branch (c.long d) c d st := by
  cases c <;> rfl

theorem branchesWhen_short (c : Cond) (d : Byte) : BranchesWhen (c.short d) d.toInt (fun s => c.holds s.cc) :=
  fun st => (exec_short c d st).trans (branch_eq _ c d.toInt st)

theorem branchesWhen_long (c : Cond) (d : Word) : BranchesWhen (c.long d) d.toInt (fun s => c.holds s.cc) :=
  fun st => by rw [exec_long, ← branch_eq, BitVec.ofInt_toInt]

/-- Settles O47: BRA, BRN, BNE and BEQ are the branches of their conditions. -/
theorem branchAlwaysNeverAndOnZero : Obligations.BranchAlwaysNeverAndOnZero :=
  ⟨fun d => ⟨branchesWhen_short .always d, branchesWhen_short .never d, branchesWhen_short .ne d,
    branchesWhen_short .eq d⟩,
    fun d => ⟨branchesWhen_long .always d, branchesWhen_long .never d, branchesWhen_long .ne d,
      branchesWhen_long .eq d⟩⟩

/-- Settles O48: BHI, BLS, BCC and BCS are the branches of their conditions. -/
theorem branchOnUnsignedOrder : Obligations.BranchOnUnsignedOrder :=
  ⟨fun d => ⟨branchesWhen_short .hi d, branchesWhen_short .ls d, branchesWhen_short .cc d, branchesWhen_short .cs d⟩,
    fun d => ⟨branchesWhen_long .hi d, branchesWhen_long .ls d, branchesWhen_long .cc d, branchesWhen_long .cs d⟩⟩

/-- Settles O49: BVC, BVS, BPL and BMI are the branches of their conditions. -/
theorem branchOnOverflowAndSign : Obligations.BranchOnOverflowAndSign :=
  ⟨fun d => ⟨branchesWhen_short .vc d, branchesWhen_short .vs d, branchesWhen_short .pl d, branchesWhen_short .mi d⟩,
    fun d => ⟨branchesWhen_long .vc d, branchesWhen_long .vs d, branchesWhen_long .pl d, branchesWhen_long .mi d⟩⟩

/-- Settles O50: BGE, BLT, BGT and BLE are the branches of their conditions. -/
theorem branchOnSignedOrder : Obligations.BranchOnSignedOrder :=
  ⟨fun d => ⟨branchesWhen_short .ge d, branchesWhen_short .lt d, branchesWhen_short .gt d, branchesWhen_short .le d⟩,
    fun d => ⟨branchesWhen_long .ge d, branchesWhen_long .lt d, branchesWhen_long .gt d, branchesWhen_long .le d⟩⟩

/-- In any state both forms of a branch go by what its condition says of CC. -/
theorem bothTaken_of_holds {c : Cond} {t : State} {taken : Bool} (told : c.holds t.cc = taken) :
    BothTaken c.short c.long t taken := by
  subst told
  exact ⟨fun d => branchesWhen_short c d t, fun d => branchesWhen_long c d t⟩

/-! ## What the flags of a difference tell (R121, R123, R197) -/

/-- The difference of the integers fits exactly when the signed subtraction does not overflow. -/
theorem toInt_sub_eq_iff {w : Nat} (r m : BitVec w) :
    (r - m).toInt = r.toInt - m.toInt ↔ r.ssubOverflow m = false := by
  constructor
  · intro fits
    have upper := BitVec.toInt_lt (x := r - m)
    have lower := BitVec.le_toInt (r - m)
    rw [fits] at upper lower
    simp only [BitVec.ssubOverflow, Bool.or_eq_false_iff, decide_eq_false_iff_not]
    omega
  · intro fits
    exact BitVec.toInt_sub_of_not_ssubOverflow (by simp [fits])

/-- A signed difference fits, or has wrapped and has the wrong sign. -/
theorem toInt_sub_cases {w : Nat} (r m : BitVec w) :
    (r - m).toInt = r.toInt - m.toInt ∨ (r.toInt < m.toInt ∧ 0 ≤ (r - m).toInt) ∨
      (m.toInt < r.toInt ∧ (r - m).toInt < 0) := by
  have below := BitVec.toInt_sub_toInt_lt_twoPow_iff (x := r) (y := m)
  have above := BitVec.twoPow_le_toInt_sub_toInt_iff (x := r) (y := m)
  rw [← BitVec.toInt_sub] at below above
  rw [toInt_sub_eq_iff, BitVec.ssubOverflow, Bool.or_eq_false_iff, decide_eq_false_iff_not, decide_eq_false_iff_not]
  omega

/-- N, Z, V and C of a CC byte are those of the difference of `r` and `m`. -/
structure DiffFlags {w : Nat} (cc : Byte) (r m : BitVec w) : Prop where
  n : getFlag .n cc = decide ((r - m).toInt < 0)
  z : getFlag .z cc = decide (r = m)
  v : getFlag .v cc = decide ((r - m).toInt ≠ r.toInt - m.toInt)
  c : getFlag .c cc = decide (r.toNat < m.toNat)

/-- Without a borrow the byte of a difference is the difference modulo 256. -/
theorem diffByte_false (a m : Byte) : diffByte a m false = a - m := by
  have difference : diffByte a m false = BitVec.ofInt 8 (a.toInt - m.toInt) := by
    rw [diffByte, Bool.toNat_false, Int.natCast_zero, Int.sub_zero]
  rw [difference, Int.sub_eq_add_neg, BitVec.ofInt_add, BitVec.ofInt_neg, BitVec.ofInt_toInt, BitVec.ofInt_toInt,
    BitVec.sub_eq_add_neg]

theorem sub_beq_zero {w : Nat} (r m : BitVec w) : (r - m == 0) = decide (r = m) := by
  rw [Bool.eq_iff_iff, beq_iff_eq, decide_eq_true_eq, sub_eq_zero]

theorem overflows8_sub (r m : Byte) :
    overflows8 (r.toInt - m.toInt) = decide ((r - m).toInt ≠ r.toInt - m.toInt) := by
  rw [overflows8, decide_eq_decide, ne_eq, toInt_sub_eq_iff, BitVec.ssubOverflow, Bool.not_eq_false,
    Bool.or_eq_true, decide_eq_true_eq, decide_eq_true_eq]
  omega

theorem overflows16_sub (r m : Word) :
    overflows16 (r.toInt - m.toInt) = decide ((r - m).toInt ≠ r.toInt - m.toInt) := by
  rw [overflows16, decide_eq_decide, ne_eq, toInt_sub_eq_iff, BitVec.ssubOverflow, Bool.not_eq_false,
    Bool.or_eq_true, decide_eq_true_eq, decide_eq_true_eq]
  omega

/-- The flags after an 8-bit subtraction without borrow (R121). -/
theorem diffFlags_ccAfterDiff (s : State) (r m : Byte) : DiffFlags (ccAfterDiff s r m false) r m := by
  have bits : ccAfterDiff s r m false = ccHNZVC s (nextFree s) (r - m).msb (r - m == 0)
      (overflows8 (r.toInt - m.toInt)) (decide (r.toNat < m.toNat)) := by
    rw [ccAfterDiff, diffByte_false, Bool.toNat_false, Int.natCast_zero, Int.sub_zero, Nat.add_zero]
  rw [bits, BitVec.msb_eq_toInt, sub_beq_zero, overflows8_sub]
  exact ⟨getFlag_n_packCc .., getFlag_z_packCc .., getFlag_v_packCc .., getFlag_c_packCc ..⟩

/-- The flags after a 16-bit subtraction (R123). -/
theorem diffFlags_ccAfterDiff16 (s : State) (r m : Word) : DiffFlags (ccAfterDiff16 s r m) r m := by
  rw [ccAfterDiff16, BitVec.msb_eq_toInt, sub_beq_zero, overflows16_sub]
  exact ⟨getFlag_n_packCc .., getFlag_z_packCc .., getFlag_v_packCc .., getFlag_c_packCc ..⟩

/-- N and V differ exactly when the signed difference is negative, whether or not it fits. -/
theorem DiffFlags.n_bne_v {w : Nat} {cc : Byte} {r m : BitVec w} (flags : DiffFlags cc r m) :
    (getFlag .n cc != getFlag .v cc) = decide (r.toInt < m.toInt) := by
  have wrapped := toInt_sub_cases r m
  rw [flags.n, flags.v, Bool.eq_iff_iff, bne_iff_ne, ne_eq, decide_eq_decide, decide_eq_true_eq]
  omega

/-- N and V agree exactly when the signed difference is not negative. -/
theorem DiffFlags.n_beq_v {w : Nat} {cc : Byte} {r m : BitVec w} (flags : DiffFlags cc r m) :
    (getFlag .n cc == getFlag .v cc) = decide (m.toInt ≤ r.toInt) := by
  have agree : (getFlag .n cc == getFlag .v cc) = !(getFlag .n cc != getFlag .v cc) := (Bool.not_not _).symm
  rw [agree, flags.n_bne_v, ← decide_not, decide_eq_decide, Int.not_lt]

/-- What a branch after a difference is taken on: the last column of the table of R197. -/
def Cond.order {w : Nat} (r m : BitVec w) : Cond → Bool
  | .always => true
  | .never => false
  | .hi => decide (m.toNat < r.toNat)
  | .ls => decide (r.toNat ≤ m.toNat)
  | .cc => decide (m.toNat ≤ r.toNat)
  | .cs => decide (r.toNat < m.toNat)
  | .ne => decide (r ≠ m)
  | .eq => decide (r = m)
  | .vc => decide ((r - m).toInt = r.toInt - m.toInt)
  | .vs => decide ((r - m).toInt ≠ r.toInt - m.toInt)
  | .pl => decide (0 ≤ (r - m).toInt)
  | .mi => decide ((r - m).toInt < 0)
  | .ge => decide (m.toInt ≤ r.toInt)
  | .lt => decide (r.toInt < m.toInt)
  | .gt => decide (m.toInt < r.toInt)
  | .le => decide (r.toInt ≤ m.toInt)

/-- The flags of a difference meet a condition exactly when the operands compare so. -/
theorem DiffFlags.holds_eq_order {w : Nat} {cc : Byte} {r m : BitVec w} (flags : DiffFlags cc r m) (c : Cond) :
    c.holds cc = c.order r m := by
  have sameNat : r = m ↔ r.toNat = m.toNat := BitVec.toNat_eq
  have sameInt : r = m ↔ r.toInt = m.toInt := BitVec.toInt_inj.symm
  cases c with
  | always | never => rfl
  | eq => exact flags.z
  | cs => exact flags.c
  | vs => exact flags.v
  | mi => exact flags.n
  | ge => exact flags.n_beq_v
  | lt => exact flags.n_bne_v
  | ne => simp only [Cond.holds, Cond.order, flags.z, ← decide_not]
  | cc => simp only [Cond.holds, Cond.order, flags.c, ← decide_not, Nat.not_lt]
  | vc => simp only [Cond.holds, Cond.order, flags.v, ← decide_not, ne_eq, not_not]
  | pl => simp only [Cond.holds, Cond.order, flags.n, ← decide_not, Int.not_lt]
  | hi | ls =>
    simp only [Cond.holds, Cond.order, flags.c, flags.z, sameNat, ← decide_not, ← Bool.decide_and, ← Bool.decide_or,
      decide_eq_decide]
    omega
  | gt | le =>
    simp only [Cond.holds, Cond.order, flags.n_bne_v, flags.n_beq_v, flags.z, sameInt, ← decide_not,
      ← Bool.decide_and, ← Bool.decide_or, decide_eq_decide]
    omega

/-- Where CC holds the flags of a difference every conditional branch tells how its operands compare. -/
theorem DiffFlags.branchesTellOrder {w : Nat} {t : State} {r m : BitVec w} (flags : DiffFlags t.cc r m) :
    BranchesTellOrder t r m :=
  have told (c : Cond) : BothTaken c.short c.long t (c.order r m) := bothTaken_of_holds (flags.holds_eq_order c)
  ⟨told .hi, told .ls, told .cc, told .cs, told .ne, told .eq, told .vc, told .vs, told .pl, told .mi, told .ge,
    told .lt, told .gt, told .le⟩

/-- After an instruction that leaves the flags of a byte difference the branches tell how the register compares. -/
theorem ordersBranches8_of_completes {make : Src8 → Instr} {effect : Byte → State → State} {register : State → Byte}
    (completes : CompletesOn8 make effect) (flags : ∀ m s, (effect m s).cc = ccAfterDiff s (register s) m false) :
    OrdersBranches8 make register := by
  intro o st m s resolved
  have diff : DiffFlags (effect m s).cc (register s) m := by
    rw [flags]
    exact diffFlags_ccAfterDiff s (register s) m
  exact ⟨effect m s, (completes o st).left m s resolved, diff.branchesTellOrder⟩

/-- After an instruction that leaves the flags of a word difference the branches tell how the register compares. -/
theorem ordersBranches16_of_completes {make : Src16 → Instr} {effect : Word → State → State} {register : State → Word}
    (completes : CompletesOn16 make effect) (flags : ∀ m s, (effect m s).cc = ccAfterDiff16 s (register s) m) :
    OrdersBranches16 make register := by
  intro o st m s resolved
  have diff : DiffFlags (effect m s).cc (register s) m := by
    rw [flags]
    exact diffFlags_ccAfterDiff16 s (register s) m
  exact ⟨effect m s, (completes o st).left m s resolved, diff.branchesTellOrder⟩

/-- Settles O51: each instruction leaves the flags of the difference of its operands, and those tell their order. -/
theorem branchesAfterCompareOrderOperands : Obligations.BranchesAfterCompareOrderOperands := by
  obtain ⟨suba, subb, -, -, cmpa, cmpb⟩ := subtractAndCompareAccumulators
  obtain ⟨cmpd, cmpx, cmpy, cmpu, cmps⟩ := compareWordRegisters
  obtain ⟨-, subd⟩ := addAndSubtractD
  exact ⟨ordersBranches8_of_completes cmpa fun _ _ => rfl, ordersBranches8_of_completes cmpb fun _ _ => rfl,
    ordersBranches8_of_completes suba fun _ _ => rfl, ordersBranches8_of_completes subb fun _ _ => rfl,
    ordersBranches16_of_completes cmpd fun _ _ => rfl, ordersBranches16_of_completes cmpx fun _ _ => rfl,
    ordersBranches16_of_completes cmpy fun _ _ => rfl, ordersBranches16_of_completes cmpu fun _ _ => rfl,
    ordersBranches16_of_completes cmps fun _ _ => rfl, ordersBranches16_of_completes subd fun _ _ => rfl⟩

/-! ## Calls, jumps, returns, NOP (R230 to R235) -/

/-- An instruction with an opcode on page 1 is one byte longer than its operand (R60, R61). -/
theorem length_of_page1 {i : Instr} {opcode : Word} (code : i.opcode = opcode) (page1 : hiByte opcode = 0) :
    i.length = 1 + i.operand.bytes.length := by
  rw [i.length_eq, length_opcodeBytes, code, if_pos page1]

theorem length_bsr (d : Byte) : (Instr.bsr d).length = 2 := length_of_page1 (opcode := 0x008D) rfl (by decide)

theorem length_lbsr (d : Word) : (Instr.lbsr d).length = 3 := length_of_page1 (opcode := 0x0017) rfl (by decide)

theorem exec_bsr (d : Byte) (st : State) :
    exec (.bsr d) st = .next (callTo (st.pcNext (.bsr d) + BitVec.ofInt 16 d.toInt) (st.advance (.bsr d))) := rfl

theorem exec_lbsr (d : Word) (st : State) :
    exec (.lbsr d) st = .next (callTo (st.pcNext (.lbsr d) + BitVec.ofInt 16 d.toInt) (st.advance (.lbsr d))) := by
  rw [BitVec.ofInt_toInt]
  rfl

theorem exec_jsr {l : Loc} {st s : State} {ea : Word} (located : locate (.jsr l) l st = .ok (ea, s)) :
    exec (.jsr l) st = .next (callTo ea s) :=
  withEA_ok callTo located

/-- A call with a displacement pushes `PCnext` and goes to `PCnext` plus it (R230, R231). -/
theorem completes_relativeCall {i : Instr} {st : State} {k : Int} {n : Nat} (length : i.length = n)
    (runs : exec i st = .next (callTo (st.pcNext i + BitVec.ofInt 16 k) (st.advance i))) :
    ∃ mem,
      exec i st = .next { st with s := st.s - 2, pc := BitVec.ofInt 16 (st.pc.toNat + n + k), mem := mem } ∧
      StoredFrom mem st.mem (st.s - 2) [hiByte (st.pc + BitVec.ofNat 16 n), loByte (st.pc + BitVec.ofNat 16 n)] := by
  subst length
  refine ⟨_, ?_, callTo_stored (st.pcNext i + BitVec.ofInt 16 k) (st.advance i)⟩
  rw [runs, callTo_eq, State.ofInt_pcNext_add]
  rfl

theorem exec_rts (st : State) : exec .rts st = .next { st with pc := stackWord st st.s, s := st.s + 2 } :=
  congrArg Host.Outcome.next (returnOp_eq (st.advance .rts))

/-- Settles O52: the calls are `callTo` at their target, which JSR resolves before, and RTS is `returnOp`. -/
theorem callsJumpsReturnsNop : Obligations.CallsJumpsReturnsNop := by
  refine ⟨fun d st => completes_relativeCall (length_bsr d) (exec_bsr d st),
    fun d st => completes_relativeCall (length_lbsr d) (exec_lbsr d st),
    fun l st => ⟨fun ea s located => ⟨_, ?_, mem_of_locate located ▸ callTo_stored ea s⟩,
      fun f failed => withEA_error callTo failed⟩,
    fun l st => ⟨fun ea s located => withEA_ok _ located, fun f failed => withEA_error _ failed⟩,
    completes_of_exec (f := returnOp) (fun _ => rfl) returnOp_eq, fun _ => rfl⟩
  rw [exec_jsr located, callTo_eq]

/-! ## A return where a call ended (R230, R231, R233, R234) -/

/-- RTS on the S and the two bytes a call left goes to the address the call pushed, with S as before the push. -/
theorem exec_rts_of_callTo {s t t' : State} {target : Word} (call : t = callTo target s) (sp : t'.s = t.s)
    (high : t'.readByte t.s = t.readByte t.s) (low : t'.readByte (t.s + 1) = t.readByte (t.s + 1)) :
    exec .rts t' = .next { t' with s := s.s, pc := s.pc } := by
  subst call
  have pushed : stackWord (callTo target s) (callTo target s).s = s.pc :=
    ((s.push16 .s s.pc).pulled16_eq .s).symm.trans (s.pulled16_push16 .s s.pc)
  have word : stackWord t' t'.s = s.pc := by
    rw [← pushed, stackWord, sp, high, low, stackWord]
  have back : t'.s + 2 = s.s := by
    rw [sp, callTo_eq]
    exact BitVec.sub_add_cancel s.s 2
  rw [exec_rts, word, back]

/-- RTS after a call from the state with PC committed goes to the instruction after it. -/
theorem exec_rts_of_relativeCall {i : Instr} {st t t' : State} {target : Word} {n : Nat} (length : i.length = n)
    (runs : exec i st = .next (callTo target (st.advance i))) (called : exec i st = .next t) (sp : t'.s = t.s)
    (high : t'.readByte t.s = t.readByte t.s) (low : t'.readByte (t.s + 1) = t.readByte (t.s + 1)) :
    exec .rts t' = .next { t' with s := st.s, pc := st.pc + BitVec.ofNat 16 n } := by
  subst length
  exact exec_rts_of_callTo (Host.Outcome.next.inj (called.symm.trans runs)) sp high low

/-- Settles O53: each call is `callTo` in the state with PC at the instruction after it, and RTS finds that PC. -/
theorem returnGoesBackToCaller : Obligations.ReturnGoesBackToCaller := by
  intro st t t' sp high low
  refine ⟨fun d called => exec_rts_of_relativeCall (length_bsr d) (exec_bsr d st) called sp high low,
    fun d called => exec_rts_of_relativeCall (length_lbsr d) (exec_lbsr d st) called sp high low,
    fun l ea s located called => ?_⟩
  have call : t = callTo ea s := Host.Outcome.next.inj (called.symm.trans (exec_jsr located))
  obtain ⟨-, entered⟩ := (locate_ok _ l st ea s).mp located
  have atNext : s.pc = st.pcNext (.jsr l) := entered ▸ st.entered_pc _ l
  rw [exec_rts_of_callTo call sp high low, atNext, State.pcNext]

end Sys2Proof.Machine
end

section
/-! RTI by the byte it pulls, RTI where a software interrupt ended, the two instructions the machine does not implement,
and the proofs of the statements of 46_system.md. -/

namespace Sys2Proof.Machine

/-! ## SYNC and CWAI (R70, R240, R241) -/

theorem decode_sync (rest : List Byte) : decode (0x13 :: rest) = .ok (.sync, rest) := rfl

theorem exec_sync (st : State) : exec .sync st = .fault (.illegalOpcode st.pc 0x0013 none) := rfl

theorem exec_cwai (mask : Byte) (st : State) : exec (.cwai mask) st = .fault (.illegalOpcode st.pc 0x003C none) := rfl

/-- A step on the opcode of CWAI faults in `exec` when the mask byte is there, and in the decoder when it is not
(R70, R240). -/
theorem step_of_cwai_window {st : State} {rest : List Byte} (window : st.fetchWindow = 0x3C :: rest) :
    step st = .fault (.illegalOpcode st.pc 0x003C none) := by
  cases rest with
  | nil => exact step_of_reject (r := .unimplementedOpcode 0x003C) (window ▸ rfl)
  | cons mask rest =>
    rw [step_of_decode (i := .cwai mask) (rest := rest) (window ▸ rfl)]
    exact exec_cwai mask st

/-- Settles O11: the fetch window starts with the opcode, and neither the decoder nor `exec` lets it pass. -/
theorem syncAndCwaiAlwaysFault : Obligations.SyncAndCwaiAlwaysFault := by
  intro st
  refine ⟨exec_sync st, fun mask => exec_cwai mask st, fun sync => ?_, fun cwai => ?_⟩
  · rw [step_of_decode (st.fetchWindow_eq ▸ sync ▸ decode_sync _), exec_sync]
  · exact step_of_cwai_window (cwai ▸ st.fetchWindow_eq)

/-! ## RTI (R239, R252) -/

theorem exec_rti (st : State) : exec .rti st = .next (st.advance .rti).leaveInterrupt := rfl

/-- Settles O55, by the two equations of `leaveInterrupt`. -/
theorem returnFromInterrupt : Obligations.ReturnFromInterrupt :=
  fun st => ⟨fun entire => congrArg Host.Outcome.next ((st.advance .rti).leaveInterrupt_entire entire),
    fun partly => congrArg Host.Outcome.next ((st.advance .rti).leaveInterrupt_partial partly)⟩

/-! ## RTI where a software interrupt ended (R236 to R239) -/

/-- CC as a software interrupt pushes it: E = 1 and the other flags as they were (R236). -/
def State.stackedCc (s : State) : Byte :=
  packCc true (s.flag .f) (s.flag .h) (s.flag .i) (s.flag .n) (s.flag .z) (s.flag .v) (s.flag .c)

/-- The registers of `s` but for E and PC, with the memory and the count of undefined flags of `t`. -/
def State.resumed (s t : State) (pc : Word) : State :=
  { s with cc := s.stackedCc, pc := pc, mem := t.mem, freeDraws := t.freeDraws }

/-- The frame of a software interrupt is the stack image of all registers. -/
theorem interruptFrame_eq_stackImage (s : State) (ret : Word) :
    interruptFrame s ret = stackImage { s with cc := s.stackedCc, pc := ret } s.u 0xFF := rfl

/-- A software interrupt leaves its frame at the new S. -/
theorem State.enterInterrupt_bytesAt (s : State) (vector : Word) (mask : Bool) :
    BytesAt (s.enterInterrupt vector mask).mem (s.enterInterrupt vector mask).s (interruptFrame s s.pc) := by
  obtain ⟨stored, -⟩ := s.enterInterrupt_stored
  rw [State.enterInterrupt_eq]
  exact stored

/-- With E = 1 in the byte pulled, a return is a pull of all registers (R239). -/
theorem State.leaveInterrupt_eq_pullList (s : State) (entire : getFlag .e (s.readByte s.s) = true) :
    s.leaveInterrupt = s.pullList .s .u 0xFF := by
  rw [s.leaveInterrupt_entire entire, s.pullList_s]
  rfl

/-- A return from a frame loads the registers the frame was made from. -/
theorem State.leaveInterrupt_of_frame {s t : State} {ret : Word} (frame : BytesAt t.mem t.s (interruptFrame s ret)) :
    t.leaveInterrupt = { s.resumed t ret with s := t.s + 12 } := by
  rw [interruptFrame_eq_stackImage] at frame
  obtain ⟨cc, a, b, dp, x, y, u, pc⟩ := frame.registers_of_stackImage
  have pulled : t.readByte t.s = s.stackedCc := cc.byte_if (w := 0)
  have entire : getFlag .e (t.readByte t.s) = true := by
    rw [pulled, State.stackedCc, getFlag_e_packCc]
  rw [t.leaveInterrupt_eq_pullList entire, t.pullList_s, cc.byte_if, a.byte_if, b.byte_if, dp.byte_if, x.word_if,
    y.word_if, u.word_if, pc.word_if]
  rfl

/-- RTI on the S and the frame a software interrupt left resumes the state it interrupted. -/
theorem exec_rti_of_enterInterrupt {s t t' : State} {vector : Word} {mask : Bool}
    (entry : t = s.enterInterrupt vector mask) (sp : t'.s = t.s)
    (kept : ∀ k < 12, t'.readByte (t.s + BitVec.ofNat 16 k) = t.readByte (t.s + BitVec.ofNat 16 k)) :
    exec .rti t' = .next (s.resumed t' s.pc) := by
  subst entry
  have frame : BytesAt t'.mem t'.s (interruptFrame s s.pc) := fun k inside => by
    rw [sp]
    exact (kept k inside).trans (s.enterInterrupt_bytesAt vector mask k inside)
  have back : t'.s + 12 = s.s := by
    rw [sp, State.enterInterrupt_eq]
    exact BitVec.sub_add_cancel s.s 12
  rw [exec_rti, State.leaveInterrupt_of_frame (t := t'.advance .rti) frame]
  exact congrArg (fun sp => Host.Outcome.next { s.resumed t' s.pc with s := sp }) back

/-- RTI after an instruction of `n` bytes that is a software interrupt goes to the instruction after it. -/
theorem exec_rti_of_softwareInterrupt {i : Instr} {st t t' : State} {vector : Word} {mask : Bool} {n : Nat}
    (length : i.length = n) (runs : exec i st = .next ((st.advance i).enterInterrupt vector mask)) (sp : t'.s = t.s)
    (kept : ∀ k < 12, t'.readByte (t.s + BitVec.ofNat 16 k) = t.readByte (t.s + BitVec.ofNat 16 k))
    (interrupted : exec i st = .next t) : exec .rti t' = .next (st.resumed t' (st.pc + BitVec.ofNat 16 n)) := by
  subst length
  exact exec_rti_of_enterInterrupt (Host.Outcome.next.inj (interrupted.symm.trans runs)) sp kept

/-- Settles O56: each software interrupt is `enterInterrupt` with PC at the instruction after it, and RTI has one
answer, which therefore fits each of the three that ends in `t`. -/
theorem returnRestoresInterruptedState : Obligations.ReturnRestoresInterruptedState := by
  intro st t t' sp kept interrupted
  have swi := exec_rti_of_softwareInterrupt (i := .swi) (n := 1) (st := st) rfl rfl sp kept
  have swi2 := exec_rti_of_softwareInterrupt (i := .swi2) (n := 2) (st := st) rfl rfl sp kept
  have swi3 := exec_rti_of_softwareInterrupt (i := .swi3) (n := 2) (st := st) rfl rfl sp kept
  obtain ⟨pc, resumes⟩ : ∃ pc, exec .rti t' = .next (st.resumed t' pc) := by
    rcases interrupted with is | is | is
    · exact ⟨_, swi is⟩
    · exact ⟨_, swi2 is⟩
    · exact ⟨_, swi3 is⟩
  have pc_eq {ret : Word} (returns : exec .rti t' = .next (st.resumed t' ret)) : pc = ret :=
    congrArg State.pc (Host.Outcome.next.inj (resumes.symm.trans returns))
  exact ⟨_, resumes, rfl, fun is => pc_eq (swi is), fun is => pc_eq (swi2 is), fun is => pc_eq (swi3 is)⟩

end Sys2Proof.Machine
end

section
/-! The ways an instruction can fault, once for all instructions, the run of the host by its end, and the proofs of the
statements of 60_exceptions.md. -/

namespace Sys2Proof.Machine

/-! ## The faults of SYNC, CWAI, TFR and EXG (R243, R245) -/

/-- SYNC and CWAI always fault (R240, R241). -/
theorem exec_of_unimplemented {i : Instr} (is : Unimplemented i) (st : State) :
    exec i st = .fault (.illegalOpcode st.pc i.opcode none) := by
  rcases is with rfl | ⟨mask, rfl⟩
  · exact exec_sync st
  · exact exec_cwai mask st

/-- A transfer faults exactly when its codes name no pair of registers of one width (R189, R245). -/
theorem exec_fault_of_transfer {i : Instr} {src dst : BitVec 4} (is : i = .tfr src dst ∨ i = .exg src dst) (st : State)
    (f : Fault) :
    exec i st = .fault f ↔
      ¬ValidPair src dst ∧ f = .invalidRegisterTransfer st.pc i.opcode (src ++ dst : BitVec (4 + 4)) := by
  rw [← transferPair_none_iff]
  rcases is with rfl | rfl
  · exact withPair_fault (f := transfer)
  · exact withPair_fault (f := exchange)

theorem memoryOperand_of_unimplemented {i : Instr} (is : Unimplemented i) : memoryOperand i = none := by
  rcases is with rfl | ⟨mask, rfl⟩ <;> rfl

theorem memoryOperand_of_transfer {i : Instr} {src dst : BitVec 4} (is : i = .tfr src dst ∨ i = .exg src dst) :
    memoryOperand i = none := by
  rcases is with rfl | rfl <;> rfl

/-! ## The faults of a memory operand (R244) -/

/-- The effective address of a memory operand fails exactly on a pointer at 0xFFFF (R95). -/
theorem effectiveAddress_error_iff_pointerAtTop {i : Instr} {l : Loc} {st : State} {f : Fault}
    (operand : memoryOperand i = some l) (wf : l.wf = true) :
    effectiveAddress i l st = .error f ↔ PointerAtTop i st ∧ f = .outOfRange st.pc i.opcode 0xFFFF := by
  rw [effectiveAddress_error_iff i l st f wf, PointerAtTop, operand]
  simp only [Option.some.injEq]

theorem wordAtTop_iff {i : Instr} {l : Loc} {st : State} (operand : memoryOperand i = some l) :
    WordAtTop i st ↔ wordOperand i = true ∧ effectiveAddress i l st = .ok 0xFFFF := by
  rw [WordAtTop, operand]
  simp only [Option.some.injEq, exists_eq_left']

theorem not_operandAtTop {i : Instr} {st : State} (operand : memoryOperand i = none) :
    ¬(PointerAtTop i st ∨ WordAtTop i st) := by
  rintro (⟨x, is, -⟩ | ⟨-, l, is, -⟩)
  · cases operand.symm.trans is
  · cases operand.symm.trans is

/-! ## The ways an instruction can fault -/

/-- How an instruction can fault in a state: as SYNC or CWAI, as a transfer, on its memory operand, or not at all. -/
inductive FaultEffect (i : Instr) (st : State) : Prop where
  | unimplemented (is : Unimplemented i)
  | transfer (src dst : BitVec 4) (is : i = .tfr src dst ∨ i = .exg src dst)
  | never (operand : memoryOperand i = none) (completes : ∀ f, exec i st ≠ .fault f)
  | memory (l : Loc) (bytes : i.operand = l.operand) (operand : memoryOperand i = some l)
      (faults : ∀ f, exec i st = .fault f ↔
        effectiveAddress i l st = .error f ∨
          (wordOperand i = true ∧ effectiveAddress i l st = .ok 0xFFFF) ∧ f = .outOfRange st.pc i.opcode 0xFFFF)

section Shapes

variable {i : Instr} {st : State}

/-- A byte operand faults only where its address does not resolve. -/
theorem FaultEffect.of_byte {l : Loc} (bytes : i.operand = l.operand) (operand : memoryOperand i = some l)
    (byte : wordOperand i = false) (faults : ∀ f, exec i st = .fault f ↔ effectiveAddress i l st = .error f) :
    FaultEffect i st := by
  refine .memory l bytes operand fun f => ?_
  simp only [faults, byte, Bool.false_eq_true, false_and, or_false]

/-- A word operand faults also at the address 0xFFFF. -/
theorem FaultEffect.of_word {l : Loc} (bytes : i.operand = l.operand) (operand : memoryOperand i = some l)
    (word : wordOperand i = true)
    (faults : ∀ f, exec i st = .fault f ↔
      effectiveAddress i l st = .error f ∨
        effectiveAddress i l st = .ok 0xFFFF ∧ f = .outOfRange st.pc i.opcode 0xFFFF) : FaultEffect i st := by
  refine .memory l bytes operand fun f => ?_
  simp only [faults, word, true_and]

theorem FaultEffect.of_withOperand8 {o : Src8} {g : Byte → State → State} (bytes : i.operand = o.operand)
    (use : dataUse i = .operand8 o) (runs : exec i st = withOperand8 i o g st) : FaultEffect i st := by
  cases o with
  | imm v =>
    refine .never (by rw [memoryOperand, use]) fun f fault => ?_
    cases runs.symm.trans fault
  | mem l =>
    refine .of_byte bytes (by rw [memoryOperand, use]) (by rw [wordOperand, use]) fun f => ?_
    rw [runs, withOperand8_fault, operand8_error]

theorem FaultEffect.of_withOperand16 {o : Src16} {g : Word → State → State} (bytes : i.operand = o.operand)
    (use : dataUse i = .operand16 o) (runs : exec i st = withOperand16 i o g st) : FaultEffect i st := by
  cases o with
  | imm v =>
    refine .never (by rw [memoryOperand, use]) fun f fault => ?_
    cases runs.symm.trans fault
  | mem l =>
    refine .of_word bytes (by rw [memoryOperand, use]) (by rw [wordOperand, use]) fun f => ?_
    rw [runs, withOperand16_fault, operand16_error]

end Shapes

/-- Every instruction can fault in one of these ways only. -/
theorem exec_faultEffect (i : Instr) (st : State) : FaultEffect i st := by
  cases i with
  | sync => exact .unimplemented (.inl rfl)
  | cwai mask => exact .unimplemented (.inr ⟨mask, rfl⟩)
  | tfr src dst => exact .transfer src dst (.inl rfl)
  | exg src dst => exact .transfer src dst (.inr rfl)
  | lda o | ldb o | adda o | addb o | adca o | adcb o | suba o | subb o | sbca o | sbcb o | cmpa o | cmpb o | anda o
  | andb o | ora o | orb o | eora o | eorb o | bita o | bitb o => exact .of_withOperand8 rfl rfl rfl
  | ldd o | ldx o | ldy o | ldu o | lds o | addd o | subd o | cmpd o | cmpx o | cmpy o | cmpu o | cmps o =>
    exact .of_withOperand16 rfl rfl rfl
  | sta l | stb l | clr l => exact .of_byte rfl rfl rfl fun f => storeLoc8_fault
  | std l | stx l | sty l | stu l | sts l => exact .of_word rfl rfl rfl fun f => storeLoc16_fault
  | neg l | inc l | dec l | com l | lsr l | asr l | asl l | rol l | ror l =>
    exact .of_byte rfl rfl rfl fun f => modifyLoc_fault
  | tst l => exact .of_byte rfl rfl rfl fun f => readLoc8_fault
  | leax x | leay x | leas x | leau x => exact .of_byte (l := .idx x) rfl rfl rfl fun f => withEA_fault
  | jmp l | jsr l => exact .of_byte rfl rfl rfl fun f => withEA_fault
  | nega | negb | inca | incb | deca | decb | coma | comb | lsra | lsrb | asra | asrb | asla | aslb | rola | rolb | rora
  | rorb | clra | clrb | tsta | tstb | daa | mul | sex | abx | andcc m | orcc m | pshs m | puls m | pshu m | pulu m
  | bra d | brn d | bhi d | bls d | bcc d | bcs d | bne d | beq d | bvc d | bvs d | bpl d | bmi d | bge d | blt d | bgt d
  | ble d | lbra d | lbrn d | lbhi d | lbls d | lbcc d | lbcs d | lbne d | lbeq d | lbvc d | lbvs d | lbpl d | lbmi d
  | lbge d | lblt d | lbgt d | lble d | bsr d | lbsr d | rts | nop | swi | swi2 | swi3 | rti =>
    exact .never rfl fun f fault => nomatch fault

/-- A well-formed instruction with a memory operand faults exactly when that operand lies at the top (R244). -/
theorem exec_fault_of_memory {i : Instr} {l : Loc} {st : State} {f : Fault} (wf : i.wf = true)
    (bytes : i.operand = l.operand) (operand : memoryOperand i = some l)
    (faults : exec i st = .fault f ↔
      effectiveAddress i l st = .error f ∨
        (wordOperand i = true ∧ effectiveAddress i l st = .ok 0xFFFF) ∧ f = .outOfRange st.pc i.opcode 0xFFFF) :
    exec i st = .fault f ↔ (PointerAtTop i st ∨ WordAtTop i st) ∧ f = .outOfRange st.pc i.opcode 0xFFFF := by
  have wfLoc : l.wf = true := by
    rw [← l.wf_operand, ← bytes]
    exact wf
  rw [faults, effectiveAddress_error_iff_pointerAtTop operand wfLoc, ← wordAtTop_iff operand, or_and_right]

/-- Settles O12: each way to fault is one of the cases listed, and the instructions of the first two have no memory
operand. -/
theorem faultsExactlyWhenListed : Obligations.FaultsExactlyWhenListed := by
  intro i st f wf
  constructor
  · intro fault
    cases exec_faultEffect i st with
    | unimplemented is => exact .inl ⟨is, Host.Outcome.fault.inj (fault.symm.trans (exec_of_unimplemented is st))⟩
    | transfer src dst is => exact .inr (.inl ⟨src, dst, is, (exec_fault_of_transfer is st f).mp fault⟩)
    | never _ completes => exact absurd fault (completes f)
    | memory l bytes operand faults =>
      exact .inr (.inr ((exec_fault_of_memory wf bytes operand (faults f)).mp fault))
  · rintro (⟨is, rfl⟩ | ⟨src, dst, is, bad⟩ | ⟨atTop, rfl⟩)
    · exact exec_of_unimplemented is st
    · exact (exec_fault_of_transfer is st f).mpr bad
    · cases exec_faultEffect i st with
      | unimplemented is => exact absurd atTop (not_operandAtTop (memoryOperand_of_unimplemented is))
      | transfer src dst is => exact absurd atTop (not_operandAtTop (memoryOperand_of_transfer is))
      | never operand _ => exact absurd atTop (not_operandAtTop operand)
      | memory l bytes operand faults =>
        exact (exec_fault_of_memory wf bytes operand (faults _)).mpr ⟨atTop, rfl⟩

/-- Settles O13: what decodes is well-formed, so it faults only in the cases of O12, which the premise excludes. -/
theorem disciplinedProgramsNeverFault : Obligations.DisciplinedProgramsNeverFault := by
  intro st disciplined t reached
  obtain ⟨i, rest, decoded, implemented, goodTransfer, pointerBelow, wordBelow⟩ := disciplined t reached
  have wf : i.wf = true := (encodeOfDecodeGivesBytes _ rest i decoded).left
  rw [step_of_decode decoded]
  cases outcome : exec i t with
  | next u => exact ⟨u, rfl⟩
  | refused r => exact absurd outcome (exec_not_refused i t r)
  | fault f =>
    rcases (faultsExactlyWhenListed i t f wf).mp outcome with ⟨is, -⟩ | ⟨src, dst, is, bad, -⟩ | ⟨pointer | word, -⟩
    · exact absurd is implemented
    · exact absurd ⟨src, dst, is, bad⟩ goodTransfer
    · exact absurd pointer pointerBelow
    · exact absurd word wordBelow

/-! ## The run (R265, R266) -/

/-- What a run from `st` shows by its end: the completed step after which it stopped, or the state whose step faulted;
a run that used up its fuel shows nothing. -/
def RunEnd.Justified {σ : Type} (stop : StopCondition σ) (st : State) : RunEnd → Prop
  | .stopped t => ∃ u h, Reaches st u ∧ step u = .next t ∧ (stop h t).1 = true
  | .faulted f t => Reaches st t ∧ step t = .fault f
  | .refused _ _ => False
  | .running _ => True

/-- An end justified after a first step is justified from before it. -/
theorem RunEnd.Justified.of_step {σ : Type} {stop : StopCondition σ} {st t : State} {e : RunEnd}
    (first : step st = .next t) (justified : e.Justified stop t) : e.Justified stop st := by
  cases e with
  | stopped v =>
    obtain ⟨u, h, reached, last, holds⟩ := justified
    exact ⟨u, h, .step st t u first reached, last, holds⟩
  | faulted f v =>
    obtain ⟨reached, fault⟩ := justified
    exact ⟨.step st t v first reached, fault⟩
  | refused r v => exact justified
  | running v => trivial

/-- Every run ends in a way that is justified. -/
theorem runLoop_justified {σ : Type} (stop : StopCondition σ) (fuel : Nat) (host : σ) (st : State) :
    (runLoop stop fuel host st).Justified stop st := by
  induction fuel generalizing host st with
  | zero => trivial
  | succ fuel ih =>
    cases outcome : step st with
    | next t =>
      cases holds : (stop host t).1 with
      | true =>
        rw [runLoop_next_stopped stop fuel host outcome holds]
        exact ⟨st, host, .refl st, outcome, holds⟩
      | false =>
        rw [runLoop_next_goes_on stop fuel host outcome holds]
        exact (ih (stop host t).2 t).of_step outcome
    | fault f =>
      rw [runLoop_fault stop fuel host outcome]
      exact ⟨.refl st, outcome⟩
    | refused r => exact absurd outcome (step_not_refused st r)

/-- With `count` steps of the bound counted, the run stops after exactly the steps that remain. -/
theorem runLoop_stopAfter {bound count fuel n : Nat} {st t : State} (steps : StepsTo n st t) (positive : 0 < n)
    (enough : n ≤ fuel) (remain : count + n = bound) : runLoop (stopAfter bound) fuel count st = .stopped t := by
  induction steps generalizing count fuel with
  | zero st => exact absurd positive (Nat.lt_irrefl 0)
  | succ n st u t first rest ih =>
    obtain ⟨fuel, rfl⟩ : ∃ k, fuel = k + 1 := ⟨fuel - 1, by omega⟩
    cases rest with
    | zero u =>
      have last : (stopAfter bound count u).1 = true := by
        rw [stopAfter_fst, decide_eq_true_eq]
        omega
      exact runLoop_next_stopped (stopAfter bound) fuel count first last
    | succ n u v t second rest =>
      have notLast : (stopAfter bound count u).1 = false := by
        rw [stopAfter_fst, decide_eq_false_iff_not]
        omega
      rw [runLoop_next_goes_on (stopAfter bound) fuel count first notLast]
      exact ih (by omega) (by omega) (by rw [stopAfter_snd]; omega)

/-- Settles O20: the end of a run is justified, and a bound counts every completed step. -/
theorem runStopsAfterCompletedStep : Obligations.RunStopsAfterCompletedStep := by
  constructor
  · intro σ st fuel start stop host
    have justified : (st.run fuel start stop host).Justified stop (st.withPc start) := runLoop_justified stop fuel host _
    refine ⟨fun t stopped => ?_, fun f t faulted => ?_, fun r t refused => ?_, fun t first holds => ?_⟩
    · rwa [stopped] at justified
    · rwa [faulted] at justified
    · rwa [refused] at justified
    · exact runLoop_next_stopped stop fuel host first holds
  · intro st t fuel n start positive enough steps
    exact runLoop_stopAfter steps positive enough (Nat.zero_add n)

/-! ## Software interrupts (R236 to R238, R251) -/

/-- An instruction of `n` bytes that takes a software interrupt: the frame with the address after the instruction, the
flags, and PC from the vector as it reads after the pushes. -/
theorem exec_softwareInterrupt {i : Instr} {st : State} {vector : Word} {mask : Bool} {n : Nat} (length : i.length = n)
    (runs : exec i st = .next ((st.advance i).enterInterrupt vector mask)) :
    ∃ mem, exec i st = .next { st with
        cc := packCc true (st.flag .f || mask) (st.flag .h) (st.flag .i || mask) (st.flag .n) (st.flag .z) (st.flag .v)
          (st.flag .c)
        s := st.s - 12
        pc := mkWord (Memory.read mem vector.toNat) (Memory.read mem (vector + 1).toNat)
        mem := mem } ∧
      StoredFrom mem st.mem (st.s - 12) (interruptFrame st (st.pc + BitVec.ofNat 16 n)) := by
  subst length
  refine ⟨_, ?_, (st.advance i).enterInterrupt_stored⟩
  rw [runs, State.enterInterrupt_eq]
  rfl

/-- Settles O54: each takes a software interrupt, and only SWI masks I and F. -/
theorem softwareInterruptEntry : Obligations.SoftwareInterruptEntry := by
  intro st
  have swi := exec_softwareInterrupt (i := .swi) (st := st) (n := 1) rfl rfl
  have swi2 := exec_softwareInterrupt (i := .swi2) (st := st) (n := 2) rfl rfl
  have swi3 := exec_softwareInterrupt (i := .swi3) (st := st) (n := 2) rfl rfl
  rw [Bool.or_true, Bool.or_true] at swi
  rw [Bool.or_false, Bool.or_false] at swi2 swi3
  exact ⟨swi, swi2, swi3⟩

end Sys2Proof.Machine
end
